-- ==== Sys2Proof/Word.lean ====
section
/-! DEFINITION. The bit vectors the spec names, each of its stated width (R9: all values are unsigned bit
vectors of a stated width, bit 0 the least significant). -/

namespace Sys2Proof

/-- A data value, `DW = 8` bits (R7, D1). -/
abbrev Byte := BitVec 8

/-- An address, `AW = 16` bits (R6, R50). -/
abbrev Addr := BitVec 16

/-- A command word (R80). -/
abbrev Cmd := BitVec 32

/-- The cartridge selector that stands for the document's path, `SELW = 24` bits (R7, R84). -/
abbrev Selector := BitVec 24

/-- An index into `ram` (R30: 11 bits). -/
abbrev RamIndex := BitVec 11

/-- An index of a picture-unit register (R30: 3 bits). -/
abbrev RegIndex := BitVec 3

end Sys2Proof
end

