-- ==== Sys2Proof/Config.lean ====
section
/-! DEFINITION. What an implementation fixes (the open parameters of R7) and the free values: values the spec
leaves open, given as constants with no body, so that nothing can be proved of which value they have. -/

namespace Sys2Proof

/-- The named parameters of R7 that the document leaves open (D2, D3, D4). A built block has one value of each;
`State.cfg` carries it and no step changes it (log 2). -/
structure Config where
  /-- `CW`, the width of the master clock counter: an integer of at least 2. -/
  cw : Nat
  /-- `PHASE`, the residue mod 3 of the pre-increment counter on which the processor steps. -/
  phase : Fin 3
  /-- `MCC_INIT`, the counter value INIT writes: below `2 ^ CW`. -/
  mccInit : Nat
  deriving DecidableEq, Repr

/-- The defaults R7 gives: `CW = 32`, `PHASE = 0`, `MCC_INIT = 0`. -/
def Config.defaults : Config := { cw := 32, phase := 0, mccInit := 0 }

/-- `RAM_SIZE` (R6). -/
def Config.ramSize : Nat := 0x0800

/-- `DIV` (R6): the processor steps once every three master ticks. -/
def Config.div : Nat := 3

/-- FREE VALUE. The n-th byte nobody fixes: the spec's `draw8()` (R10, R55, D6) and a byte answer no script gives. -/
opaque Config.freeByte : Nat → Byte

/-- FREE VALUE. The n-th yes-or-no answer nobody fixes: a hijack flag, or the ok of `CartInsert` or `CartRemove`. -/
opaque Config.freeFlag : Nat → Bool

/-- FREE VALUE. What the pin level leaves unspecified (R202, U12, and call operands while no call is outstanding),
by cycle and item (items below 4000); and the answers a trace line does not note (R91), by line and item (from 4000
on). -/
opaque Config.freeNat : Nat → Nat → Nat

end Sys2Proof
end

