-- ==== Sys2Proof/Syntax.lean ====
section
/-! DEFINITION. The five operations of R2 and R82, one constructor per row of spec/opcode_table.json. Operands are
bit vectors of the widths of R84, so that an operand that does not fit its field cannot be written. -/

namespace Sys2Proof

/-- An operation of the block (R2, R82). -/
inductive Instr where
  /-- INIT, `busInitialize(path) -> status` (R150). -/
  | init (sel : Selector)
  /-- SHUT, `busShutdown() -> status` (R152). -/
  | shut
  /-- TICK, `busTick()` (R130). -/
  | tick
  /-- RD, `busRead(address) -> value` (R112). -/
  | rd (a : Addr)
  /-- WR, `busWrite(address, value)` (R113). -/
  | wr (a : Addr) (v : Byte)
  deriving DecidableEq, Repr

/-- The command word cut into the four fields of R81, before anything is checked. -/
structure RawCmd where
  op : BitVec 3
  z : BitVec 5
  addr : BitVec 16
  data : BitVec 8
  deriving DecidableEq, Repr

end Sys2Proof
end

