-- ==== Sys2Proof/WellFormed.lean ====
section
/-! DEFINITION. The checks the spec puts on what is given to the block: a command word must not be reserved (R86),
and the open parameters must be in their ranges (R7). An `Instr` needs no check: its operand widths are in its type. -/

namespace Sys2Proof

/-- The words of R86, by their fields, that are NOT reserved. Each line is one clause of that rule. -/
def RawCmd.wf (r : RawCmd) : Bool :=
  -- `op` in 0b000, 0b110, 0b111 is reserved
  (r.op != 0b000#3 && r.op != 0b110#3 && r.op != 0b111#3)
  -- any word with `cmd[28:24] != 0` is reserved
  && (r.z == 0#5)
  -- TICK or SHUT with `cmd[23:0] != 0` is reserved
  && ((r.op != 0b011#3 && r.op != 0b010#3) || (r.addr == 0#16 && r.data == 0#8))
  -- RD with `cmd[7:0] != 0` is reserved
  && (r.op != 0b100#3 || r.data == 0#8)

/-- The ranges of R7: `CW >= 2` and `MCC_INIT` in `[0, 2^CW)`. (`PHASE` in 0, 1, 2 is in its type.) -/
def Config.wf (c : Config) : Bool :=
  decide (2 ≤ c.cw) && decide (c.mccInit < 2 ^ c.cw)

end Sys2Proof
end

