-- ==== Sys2Proof/Decode.lean ====
section
/-! DEFINITION. The command word: its fields (R81), the table of R85, the decoder, and the encoder written from the
formats of R81. The decoder is total on words: a word that matches no row is reserved (R85, R86) and gives none. -/

namespace Sys2Proof

/-- `addr = cmd[23:8]` (R81, R84). -/
def addrOf (w : Cmd) : Addr := w.extractLsb' 8 16

/-- `data = cmd[7:0]` (R81, R84). -/
def dataOf (w : Cmd) : Byte := w.extractLsb' 0 8

/-- `sel = cmd[23:0]` (R84). -/
def selOf (w : Cmd) : Selector := w.extractLsb' 0 24

/-- The four fields of R81. -/
def rawOf (w : Cmd) : RawCmd :=
  { op := w.extractLsb' 29 3, z := w.extractLsb' 24 5, addr := addrOf w, data := dataOf w }

/-- The reserved words of R86, by that rule's own list (not by the table of R85). -/
def reserved (w : Cmd) : Bool := !(rawOf w).wf

/-- A row of the table of R85. -/
structure Row where
  mnemonic : String
  pattern : Cmd
  mask : Cmd
  deriving DecidableEq, Repr

def rowInit : Row := { mnemonic := "INIT", pattern := 0x20000000, mask := 0xFF000000 }
def rowShut : Row := { mnemonic := "SHUT", pattern := 0x40000000, mask := 0xFFFFFFFF }
def rowTick : Row := { mnemonic := "TICK", pattern := 0x60000000, mask := 0xFFFFFFFF }
def rowRd : Row := { mnemonic := "RD", pattern := 0x80000000, mask := 0xFF0000FF }
def rowWr : Row := { mnemonic := "WR", pattern := 0xA0000000, mask := 0xFF000000 }

/-- The five rows of R85. -/
def rows : List Row := [rowInit, rowShut, rowTick, rowRd, rowWr]

/-- "A word `w` selects an operation when `(w AND mask) = match`" (R85). -/
def Row.selects (r : Row) (w : Cmd) : Bool := (w &&& r.mask) == r.pattern

/-- The operation a command word requests (R85); none for a reserved word (R86). -/
def decode (w : Cmd) : Option Instr :=
  if rowInit.selects w then some (.init (selOf w))
  else if rowShut.selects w then some .shut
  else if rowTick.selects w then some .tick
  else if rowRd.selects w then some (.rd (addrOf w))
  else if rowWr.selects w then some (.wr (addrOf w) (dataOf w))
  else none

/-- A word from its fields, `op` in bits 31:29, `z = 0` in 28:24 (R81). -/
def wordOf (op : BitVec 3) (addr : BitVec 16) (data : BitVec 8) : Cmd :=
  op ++ (0#5) ++ addr ++ data

/-- The command word of an operation (R81 for the formats, R82 for the operation codes). -/
def encode : Instr → Cmd
  | .init sel => wordOf 0b001#3 (sel.extractLsb' 8 16) (sel.extractLsb' 0 8)
  | .shut => wordOf 0b010#3 0#16 0#8
  | .tick => wordOf 0b011#3 0#16 0#8
  | .rd a => wordOf 0b100#3 a 0#8
  | .wr a v => wordOf 0b101#3 a v

/-- The row of R85 that an operation's words belong to. -/
def rowOf : Instr → Row
  | .init _ => rowInit
  | .shut => rowShut
  | .tick => rowTick
  | .rd _ => rowRd
  | .wr _ _ => rowWr

/-- The command word whose low `nbits` bits are `w`, bits above them zero (log 23). -/
def tableWord (nbits w : Nat) : Cmd := BitVec.ofNat 32 (w % 2 ^ nbits)

/-- What the decoder reads from a word numbered as spec/opcode_table.json numbers it: every row is one 32-bit
word, and the command port takes the word whole (R80), so there is no byte order to undo. -/
def decodeTableWord (nbits w : Nat) : Option Instr := decode (tableWord nbits w)

end Sys2Proof
end

