-- ==== Sys2Proof/Machine/State.lean ====
section
/-! DEFINITION. The state of the block (R20), what happens at its boundary, and the ways a step can stop. -/

namespace Sys2Proof.Machine

/-- RAM as (index, byte) pairs, indexes strictly rising, no byte 0x00 listed: an index that is not listed reads
0x00, which is what INIT leaves in every byte (R35, R150). -/
abbrev Memory := List Host.Cell

/-- `life` (R23). -/
inductive Life where
  | off
  | ready
  deriving DecidableEq, Repr

/-- `ctx`, the in-flight context (R31). While the picture unit steps it holds the pre-increment counter `c` of the
TICK in progress, which R130 still needs after `PpuStep` has returned (R198: "latch `c <- mcc`"; log 11). -/
inductive Ctx where
  | host
  | inPpu (c : Nat)
  | inCpu
  deriving DecidableEq, Repr

/-- The status codes of R213 that are ever produced. -/
inductive Status where
  | ok
  | loadErr
  | unloadErr
  | illegal
  deriving DecidableEq, Repr

/-- The agents of R11 that can ask for something or be called. -/
inductive Agent where
  | host
  | pictureUnit
  | processor
  | cartridge
  deriving DecidableEq, Repr

/-- What the outside gives the block, in the order it comes (R11, R36, R195; log 1). -/
inductive Input where
  /-- The active agent offers a command word (R80). -/
  | command (w : Cmd)
  /-- The step of the stepping device returns (R175, R179, R180). -/
  | stepReturns
  /-- Power-on reset, the port `por` (R36, R240). -/
  | powerOn
  deriving DecidableEq, Repr

/-- What happened at the block's boundary: each call out of R10 with its answer, each accepted command, each
response (R89). An answer that is not used (`vc` of a passed READ, the result of a register write) is recorded all the
same (log 7). -/
inductive Event where
  | command (w : Cmd)
  | cartInsert (sel : Selector) (ok : Bool)
  | cartRemove (ok : Bool)
  | cartRead (a : Addr) (vc : Byte) (h : Bool)
  | cartWrite (a : Addr) (v : Byte) (h : Bool)
  | ppuStep
  | ppuReg (i : RegIndex) (isWrite : Bool) (v : Byte) (r : Byte)
  | cpuInit
  | cpuStep
  | returned
  | response (data : Byte) (st : Status)
  | powerOn
  deriving DecidableEq, Repr

/-- The answers the called devices are going to give, one list per call that has an answer (R170 to R176, R12: "the
answers of the three called devices"); true is `ok` for INSERT and REMOVE and `hijack` for READ and WRITE. A
device is any content of these lists; where a list has run out the answer is a free value (log 5). -/
structure Answers where
  cartInsert : List Bool
  cartRemove : List Bool
  cartRead : List (Byte × Bool)
  cartWrite : List Bool
  ppuReg : List Byte
  deriving DecidableEq, Repr

/-- No answer scripted. -/
def Answers.none : Answers :=
  { cartInsert := [], cartRemove := [], cartRead := [], cartWrite := [], ppuReg := [] }

/-- The state of the block: R20's elements, the open parameters of R7, and the model's own `inbox`, `answers`,
`draws` and `trace`. -/
structure State where
  /-- The parameters of R7; constant in a run (log 2). -/
  cfg : Config
  /-- The master clock counter, below `2 ^ CW` (R21; log 15). -/
  mcc : Nat
  /-- The system RAM (R22). -/
  ram : Memory
  /-- The lifecycle flag (R23). -/
  life : Life
  /-- The in-flight context (R31). -/
  ctx : Ctx
  /-- The cartridge reference is present (R24; log 14). -/
  cartRef : Bool
  /-- Model's own: inputs not yet taken, first to come first (log 1). -/
  inbox : List Input
  /-- Model's own: device answers not yet given (log 5). -/
  answers : Answers
  /-- Model's own: how many free values have been used (log 6). -/
  draws : Nat
  /-- Model's own: what has happened at the boundary, oldest first (log 12). -/
  trace : List Event
  deriving DecidableEq, Repr

/-- Why the machine stops where the spec says `stuck` or where a device breaks its contract. -/
inductive Fault where
  /-- Raised by `step` and only there: the picture unit or the processor has been stepped and nothing more comes from
  it (U11 `stuck`, R180, R244: "it is a device that has not returned"). Safe: the block makes no step there. -/
  | deviceNotReturned
  /-- Raised by `pinCycle` only: a device asserts its `*_done` while an access it issued (a RD or a WR, no reserved
  word) has no response, which R195 forbids (log 18). Safe: nothing is claimed of such a device. -/
  | doneDuringAccess
  deriving DecidableEq, Repr

/-- Where the spec gives no meaning and "a model must `refuse`" (R10, R153). All safe: nothing is claimed past them. -/
inductive Refusal where
  /-- Raised by an arm of `exec` for an operation with no meaning yet; no arm does so now. Safe. -/
  | notModelled (mnemonic : String)
  /-- Raised by RD, WR, TICK and SHUT while `life = OFF` (R110, R153, U3). Safe. -/
  | notReady
  /-- Raised by INIT while `life = READY` (R153, U4). Safe. -/
  | alreadyReady
  /-- Raised by TICK, INIT and SHUT while `ctx` is `IN_PPU` or `IN_CPU` (R135, R153, U5). Safe. -/
  | nestedOperation
  deriving DecidableEq, Repr

/-- Power-on (R35, R240): `life = OFF`, `ctx = HOST`, no cartridge. `ram` and `mcc` are unspecified there and
unobservable; the values here are the log's (3, 4), the parameters are R7's defaults (log 2). -/
def State.reset : State :=
  { cfg := Config.defaults, mcc := 0, ram := [], life := .off, ctx := .host, cartRef := false,
    inbox := [], answers := Answers.none, draws := 0, trace := [] }

end Sys2Proof.Machine
end

