-- ==== Sys2Proof/Machine/Flags.lean ====
section
/-! DEFINITION. The block stores no flag (R27). What stands here are the transient bit of TICK and the numbers of
the status codes; the other transient bit, the hijack flag, is the answer of the offer (Ops.lean). -/

namespace Sys2Proof.Machine

/-- The step enable `e = (c mod 3 = PHASE)` of the pre-increment counter (R27, R131). -/
def stepEnable (cfg : Config) (c : Nat) : Bool := decide (c % Config.div = cfg.phase.val)

/-- The 3-bit code of a status (R213). -/
def Status.code : Status → BitVec 3
  | .ok => 0
  | .loadErr => 1
  | .unloadErr => 2
  | .illegal => 3

end Sys2Proof.Machine
end

