-- ==== Sys2Proof/Machine/Operands.lean ====
section
/-! DEFINITION. The one addressing mode of the block: the fixed map `Region(a)` of R111, used by RD and WR alike
(R58). -/

namespace Sys2Proof.Machine

/-- The handler the fixed map gives an address (R52, R111). -/
inductive Handler where
  | ram (i : RamIndex)
  | ppu (i : RegIndex)
  | unmapped
  deriving DecidableEq, Repr

/-- `Region(a)` (R111): by `a[15:13]`; the RAM index is `a[10:0]`, the register index `a[2:0]`. -/
def region (a : Addr) : Handler :=
  if a.extractLsb' 13 3 = 0b000#3 then .ram (a.extractLsb' 0 11)
  else if a.extractLsb' 13 3 = 0b001#3 then .ppu (a.extractLsb' 0 3)
  else .unmapped

end Sys2Proof.Machine
end

