-- ==== Sys2Proof/Machine/Ops.lean ====
section
/-! DEFINITION. The named operations the meanings are written over: RAM, the response, the call outs of R10 with
their answers, the admission of an operation (R153). The block takes no exception and returns from none (R218,
R219): the one shared way an error leaves an operation is the status of its response. -/

namespace Sys2Proof.Machine

/-! ### RAM -/

/-- The byte at an index: 0x00 where none is listed. -/
def Memory.read : Memory → Nat → Byte
  | [], _ => 0#8
  | (j, b) :: m, i => if j = i then b else Memory.read m i

/-- Put a byte at an index, keeping the canonical form: 0x00 is not listed. -/
def Memory.write : Memory → Nat → Byte → Memory
  | [], i, v => if v = 0#8 then [] else [(i, v)]
  | (j, b) :: m, i, v =>
    if i < j then (if v = 0#8 then (j, b) :: m else (i, v) :: (j, b) :: m)
    else if i = j then (if v = 0#8 then m else (i, v) :: m)
    else (j, b) :: Memory.write m i v

/-- Every listed index is at least `lo` and inside `ram`, they rise strictly, and no listed byte is 0x00. -/
def Memory.wfFrom : Nat → Memory → Bool
  | _, [] => true
  | lo, (j, b) :: m =>
    decide (lo ≤ j) && decide (j < Config.ramSize) && b != 0#8 && Memory.wfFrom (j + 1) m

/-- The canonical form of RAM. -/
def Memory.wf (m : Memory) : Bool := Memory.wfFrom 0 m

/-- `ram[i]` (R10). -/
def State.readRam (i : RamIndex) (s : State) : Byte := Memory.read s.ram i.toNat

/-- `ram[i] <- v` (R10). -/
def State.writeRam (i : RamIndex) (v : Byte) (s : State) : State :=
  { s with ram := Memory.write s.ram i.toNat v }

/-- INIT's steps 1 and 1b: every `ram[i] <- 0x00`, `mcc <- MCC_INIT` (R150). -/
def State.clear (s : State) : State := { s with ram := [], mcc := s.cfg.mccInit }

/-! ### The boundary: record, response, input -/

/-- Record what happened at the boundary. -/
def State.emit (es : List Event) (s : State) : State := { s with trace := s.trace ++ es }

/-- Complete an operation with its one response (R89). -/
def State.respond (data : Byte) (st : Status) (s : State) : State := s.emit [.response data st]

/-- Take an input from the front of the inbox: `rest` is what stays. -/
def State.took (rest : List Input) (s : State) : State := { s with inbox := rest }

/-- Accept a command word (R80): it leaves the inbox and is recorded. -/
def State.accept (w : Cmd) (rest : List Input) (s : State) : State :=
  (s.took rest).emit [.command w]

/-- `life` and the cartridge reference, which is present iff `life = READY` (R20, R24). -/
def State.setLife (l : Life) (s : State) : State := { s with life := l, cartRef := decide (l = .ready) }

/-- `ctx <- c` (R31). -/
def State.setCtx (c : Ctx) (s : State) : State := { s with ctx := c }

/-! ### Free values -/

/-- `draw8()` (R10, D6): a byte nothing constrains. -/
def State.drawn (s : State) : Byte := Config.freeByte s.draws

/-- The next draw is another one. -/
def State.afterDraw (s : State) : State := { s with draws := s.draws + 1 }

/-- The draw counter after an answer was asked for: it moves where no answer was scripted. -/
def drawsAfter (scripted : Bool) (n : Nat) : Nat := if scripted then n else n + 1

/-! ### Call outs: for each call with an answer, that answer and the state after the call -/

/-- What `CartInsert` answers: true is `ok` (R170). -/
def State.insertAnswer (s : State) : Bool :=
  match s.answers.cartInsert with
  | x :: _ => x
  | [] => Config.freeFlag s.draws

/-- `CartInsert(sel)` (R170): the selector is passed through unchanged. -/
def State.afterInsert (sel : Selector) (s : State) : State :=
  { s with
    answers := { s.answers with cartInsert := s.answers.cartInsert.tail }
    draws := drawsAfter (!s.answers.cartInsert.isEmpty) s.draws
    trace := s.trace ++ [.cartInsert sel s.insertAnswer] }

/-- What `CartRemove` answers: true is `ok` (R171). -/
def State.removeAnswer (s : State) : Bool :=
  match s.answers.cartRemove with
  | x :: _ => x
  | [] => Config.freeFlag s.draws

/-- `CartRemove()` (R171). -/
def State.afterRemove (s : State) : State :=
  { s with
    answers := { s.answers with cartRemove := s.answers.cartRemove.tail }
    draws := drawsAfter (!s.answers.cartRemove.isEmpty) s.draws
    trace := s.trace ++ [.cartRemove s.removeAnswer] }

/-- What `CartRead` answers: `(vc, h)` (R172). -/
def State.readAnswer (s : State) : Byte × Bool :=
  match s.answers.cartRead with
  | x :: _ => x
  | [] => (Config.freeByte s.draws, Config.freeFlag s.draws)

/-- `CartRead(a)` (R172): the full 16-bit address. -/
def State.afterCartRead (a : Addr) (s : State) : State :=
  { s with
    answers := { s.answers with cartRead := s.answers.cartRead.tail }
    draws := drawsAfter (!s.answers.cartRead.isEmpty) s.draws
    trace := s.trace ++ [.cartRead a s.readAnswer.1 s.readAnswer.2] }

/-- What `CartWrite` answers: the hijack flag (R173). -/
def State.writeAnswer (s : State) : Bool :=
  match s.answers.cartWrite with
  | x :: _ => x
  | [] => Config.freeFlag s.draws

/-- `CartWrite(a, v)` (R173). -/
def State.afterCartWrite (a : Addr) (v : Byte) (s : State) : State :=
  { s with
    answers := { s.answers with cartWrite := s.answers.cartWrite.tail }
    draws := drawsAfter (!s.answers.cartWrite.isEmpty) s.draws
    trace := s.trace ++ [.cartWrite a v s.writeAnswer] }

/-- What `PpuReg` answers (R176); with no script this is the null picture unit's `draw8()` (R177). -/
def State.regAnswer (s : State) : Byte :=
  match s.answers.ppuReg with
  | x :: _ => x
  | [] => Config.freeByte s.draws

/-- `PpuReg(i, isWrite, v)` (R176). -/
def State.afterReg (i : RegIndex) (isWrite : Bool) (v : Byte) (s : State) : State :=
  { s with
    answers := { s.answers with ppuReg := s.answers.ppuReg.tail }
    draws := drawsAfter (!s.answers.ppuReg.isEmpty) s.draws
    trace := s.trace ++ [.ppuReg i isWrite v s.regAnswer] }

/-! ### Admission -/

/-- Why an operation is not admitted, none where it is: the table of R153. The place in a step is looked at before
`life` (log 8). -/
def admission (i : Instr) (s : State) : Option Refusal :=
  match i with
  | .rd _ | .wr _ _ => if s.life = .ready then none else some .notReady
  | .tick | .shut =>
    if s.ctx = .host then (if s.life = .ready then none else some .notReady) else some .nestedOperation
  | .init _ =>
    if s.ctx = .host then (if s.life = .off then none else some .alreadyReady) else some .nestedOperation

/-- The operation has its effect where it is admitted and is refused elsewhere. -/
def orRefuse (why : Option Refusal) (t : State) : Host.Outcome State Fault Refusal :=
  match why with
  | none => .next t
  | some r => .refused r

/-- The agent that is active, and so the issuer of the next command (R11, R31, R110). -/
def activeAgent (s : State) : Agent :=
  match s.ctx with
  | .host => .host
  | .inPpu _ => .pictureUnit
  | .inCpu => .processor

/-- The rights of the agents, the table of R221: which agent may issue which operation and when. -/
def mayIssue (g : Agent) (i : Instr) (s : State) : Bool :=
  match g, i with
  | .host, .init _ => decide (s.life = .off) && decide (s.ctx = .host)
  | .host, _ => decide (s.life = .ready) && decide (s.ctx = .host)
  | .pictureUnit, .rd _ | .pictureUnit, .wr _ _ => decide (s.life = .ready) && decide (activeAgent s = .pictureUnit)
  | .processor, .rd _ | .processor, .wr _ _ => decide (s.life = .ready) && decide (activeAgent s = .processor)
  | _, _ => false

/-! ### What the block does outside the five operations -/

/-- A reserved word (R86): no state change, no call out, status `ST_ILLEGAL`, whatever `life` and `ctx` are. -/
def State.reservedWord (s : State) : State := s.respond 0 .illegal

/-- Power-on (R36, R202, R240): `life <- OFF`, `ctx <- HOST`, the reference absent; `ram` and `mcc` not cleared. -/
def State.powerOn (s : State) : State := ((s.setLife .off).setCtx .host).emit [.powerOn]

/-- Nothing is offered. With `ctx = HOST` the block idles (R87, R244); inside a step the device has not returned
(R180, R244, U11). -/
def idle (s : State) : Host.Outcome State Fault Refusal :=
  if s.ctx = .host then .next s else .fault .deviceNotReturned

end Sys2Proof.Machine
end

