-- ==== Sys2Proof/Machine/Access.lean ====
section
/-! DEFINITION. RD and WR (spec/40_access.md). -/

namespace Sys2Proof.Machine

/-- What RD does after the offer, when the cartridge does not hijack: steps 2 to 4 of R112. -/
def readFixedMap (a : Addr) (s : State) : State :=
  match region a with
  | .ram i => s.respond (s.readRam i) .ok
  | .ppu i => (s.afterReg i false 0).respond s.regAnswer .ok
  | .unmapped => s.afterDraw.respond s.drawn .ok

/-- The effect of RD (R112). -/
def readEffect (a : Addr) (s : State) : State :=
  if s.readAnswer.2 then (s.afterCartRead a).respond s.readAnswer.1 .ok
  else readFixedMap a (s.afterCartRead a)

/-- What WR does after the offer, when the cartridge does not hijack: steps 2 to 4 of R113. -/
def writeFixedMap (a : Addr) (v : Byte) (s : State) : State :=
  match region a with
  | .ram i => s.writeRam i v
  | .ppu i => s.afterReg i true v
  | .unmapped => s

/-- The effect of WR (R113). -/
def writeEffect (a : Addr) (v : Byte) (s : State) : State :=
  (if s.writeAnswer then s.afterCartWrite a v
   else writeFixedMap a v (s.afterCartWrite a v)).respond 0 .ok

/-- RD (R112), admitted while `life = READY` in any `ctx` (R110, R153). -/
def execRd (a : Addr) (s : State) : Host.Outcome State Fault Refusal :=
  orRefuse (admission (.rd a) s) (readEffect a s)

/-- WR (R113), admitted while `life = READY` in any `ctx` (R110, R153). -/
def execWr (a : Addr) (v : Byte) (s : State) : Host.Outcome State Fault Refusal :=
  orRefuse (admission (.wr a v) s) (writeEffect a v s)

end Sys2Proof.Machine
end

