-- ==== Sys2Proof/Machine/Clock.lean ====
section
/-! DEFINITION. TICK (spec/41_clock.md), as the flat model R31 describes: TICK calls `PpuStep` and leaves
`ctx = IN_PPU`; the accesses of the step are operations of their own; the return of the step takes TICK on. -/

namespace Sys2Proof.Machine

/-- R130 up to the call of `PpuStep`: `c <- mcc`, `mcc <- (c + 1) mod 2^CW`, `ctx <- IN_PPU`. -/
def tickEffect (s : State) : State :=
  { s with mcc := (s.mcc + 1) % 2 ^ s.cfg.cw, ctx := .inPpu s.mcc }.emit [.ppuStep]

/-- TICK (R130), admitted with `life = READY` and `ctx = HOST` (R153). -/
def execTick (s : State) : Host.Outcome State Fault Refusal :=
  orRefuse (admission .tick s) (tickEffect s)

/-- R130 from the return of a step on. After `PpuStep`: `CpuStep` if `c mod 3 = PHASE`, else TICK completes. After
`CpuStep`: TICK completes. With no step outstanding the return is ignored (R195; log 10). -/
def stepReturned (s : State) : State :=
  match s.ctx with
  | .host => s
  | .inPpu c =>
    if stepEnable s.cfg c then (s.setCtx .inCpu).emit [.returned, .cpuStep]
    else ((s.setCtx .host).emit [.returned]).respond 0 .ok
  | .inCpu => ((s.setCtx .host).emit [.returned]).respond 0 .ok

end Sys2Proof.Machine
end

