-- ==== Sys2Proof/Machine/Lifecycle.lean ====
section
/-! DEFINITION. INIT and SHUT (spec/42_lifecycle.md). -/

namespace Sys2Proof.Machine

/-- INIT after `CartInsert` answered (R150): on ok `CpuInit()`, `life <- READY`, `ST_OK`; on fail `ST_LOAD_ERR` with
`life = OFF` and no `CpuInit` (R151, R211). -/
def finishInit (ok : Bool) (s : State) : State :=
  if ok then ((s.emit [.cpuInit]).setLife .ready).respond 0 .ok
  else (s.setLife .off).respond 0 .loadErr

/-- The effect of INIT (R150): zero-fill and counter reset come before `CartInsert`. -/
def initEffect (sel : Selector) (s : State) : State :=
  finishInit s.clear.insertAnswer (s.clear.afterInsert sel)

/-- The effect of SHUT (R152): `life <- OFF` whatever `CartRemove` answers (D9). -/
def shutEffect (s : State) : State :=
  (s.afterRemove.setLife .off).respond 0 (if s.removeAnswer then .ok else .unloadErr)

/-- INIT (R150), admitted with `life = OFF` and `ctx = HOST` (R153). -/
def execInit (sel : Selector) (s : State) : Host.Outcome State Fault Refusal :=
  orRefuse (admission (.init sel) s) (initEffect sel s)

/-- SHUT (R152), admitted with `life = READY` and `ctx = HOST` (R153). -/
def execShut (s : State) : Host.Outcome State Fault Refusal :=
  orRefuse (admission .shut s) (shutEffect s)

end Sys2Proof.Machine
end

