-- ==== Sys2Proof/Machine/Dispatch.lean ====
section
/-! DEFINITION. One arm per operation. -/

namespace Sys2Proof.Machine

/-- The meaning of each operation. -/
def exec (i : Instr) (s : State) : Host.Outcome State Fault Refusal :=
  match i with
  | .init sel => Sys2Proof.Machine.execInit sel s
  | .shut => Sys2Proof.Machine.execShut s
  | .tick => Sys2Proof.Machine.execTick s
  | .rd a => Sys2Proof.Machine.execRd a s
  | .wr a v => Sys2Proof.Machine.execWr a v s

end Sys2Proof.Machine
end

