-- ==== Sys2Proof/Machine/Fetch.lean ====
section
/-! DEFINITION. How the block takes what the outside offers: the first input of the inbox (log 1). The block has no
program counter and fetches nothing (R26): the next command is the one the active agent offers. -/

namespace Sys2Proof.Machine

/-- Run an accepted command word: the operation it decodes to, or the reserved-word response, which is given before
any precondition is looked at (R86, R217, D23). -/
def runWord (w : Cmd) (s : State) : Host.Outcome State Fault Refusal :=
  match decode w with
  | some i => exec i s
  | none => .next s.reservedWord

/-- Take the first input. -/
def takeInput (s : State) : Host.Outcome State Fault Refusal :=
  match s.inbox with
  | [] => idle s
  | .command w :: rest => runWord w (s.accept w rest)
  | .stepReturns :: rest => .next (stepReturned (s.took rest))
  | .powerOn :: rest => .next (s.took rest).powerOn

/-- Offer a command word, before anything else that is still to come. -/
def State.offer (w : Cmd) (s : State) : State := { s with inbox := .command w :: s.inbox }

end Sys2Proof.Machine
end

