-- ==== Sys2Proof/Machine/PinState.lean ====
section
/-! DEFINITION. The ports of R36 and the state of the pin-level binding (spec/45_signal_protocol.md). One `PinIn` is
what the block samples at one rising edge of `clk` (R190), so `clk` itself is the sequence of them. -/

namespace Sys2Proof.Machine

/-- The input ports of R36, as sampled at one rising edge, and the free choice `go`. -/
structure PinIn where
  por : Bool
  cmdValid : Bool
  cmd : Cmd
  cartAck : Bool
  cartRdata : Byte
  cartHijack : Bool
  cartFail : Bool
  ppuStepDone : Bool
  ppuRegAck : Bool
  ppuRegRdata : Byte
  cpuInitDone : Bool
  cpuStepDone : Bool
  /-- Not a port: whether the block moves on by itself at this edge. Cycle counts are not architectural (R190), so
  every pattern of it is allowed (log 16). -/
  go : Bool
  deriving DecidableEq, Repr

/-- The output ports of R36. -/
structure PinOut where
  cmdReady : Bool
  rspValid : Bool
  rspData : Byte
  rspStatus : BitVec 3
  cartReq : Bool
  cartOp : BitVec 2
  cartAddr : Addr
  cartWdata : Byte
  cartSel : Selector
  ppuStep : Bool
  ppuRegReq : Bool
  ppuRegWe : Bool
  ppuRegIdx : RegIndex
  ppuRegWdata : Byte
  cpuInit : Bool
  cpuStep : Bool
  deriving DecidableEq, Repr

/-- A call to the cartridge adapter (R90, R193). -/
inductive CartCall where
  | read (a : Addr)
  | write (a : Addr) (v : Byte)
  | insert (sel : Selector)
  | remove
  deriving DecidableEq, Repr

/-- A call that is a pulse (R195): not yet given; on the port in this cycle; given, and waiting for `*_done`. -/
inductive Pulse where
  | pend
  | pulse
  | wait
  deriving DecidableEq, Repr

/-- The step call of a TICK in progress (R195, R198): the three phases of a pulse, and `done`: the step's `*_done` has
been sampled and what comes next waits until the reserved-word response still in progress has been given (log 18). -/
inductive TickPhase where
  | pend
  | pulse
  | wait
  | done
  deriving DecidableEq, Repr

/-- What is in progress beside a TICK: an access, a lifecycle operation, a response (R191, R192). A flag `raised` or
`driven` says whether the request or the response is on the port in this cycle. -/
inductive Job where
  | none
  /-- INIT's zero-fill (R199). -/
  | fill (sel : Selector)
  /-- A cartridge call (R193). -/
  | cart (c : CartCall) (raised : Bool)
  /-- A picture-register call (R194). -/
  | reg (i : RegIndex) (isWrite : Bool) (v : Byte) (raised : Bool)
  /-- `CpuInit` (R195, R199). -/
  | cpuInit (p : Pulse)
  /-- A response (R192). -/
  | respond (data : Byte) (st : Status) (driven : Bool)
  deriving DecidableEq, Repr

/-- Whether the block works, is held in power-on, or has been given a refused command (R202). -/
inductive PinMode where
  | running
  | por
  | unspecified
  deriving DecidableEq, Repr

/-- The state of the block at pin level. -/
structure PinState where
  /-- The block's own state (R20); its `inbox` and `answers` are empty, since here inputs come from the ports. -/
  blk : State
  mode : PinMode
  job : Job
  /-- The step call of the TICK in progress: the picture unit's while `ctx = IN_PPU`, the processor's while
  `ctx = IN_CPU` (R198). None when no TICK is in progress or only its response is left. -/
  tick : Option TickPhase
  /-- Model's own: counts edges, so that the free values of undriven ports are fresh (log 19). -/
  cycle : Nat
  deriving DecidableEq, Repr

/-- Before the first edge: `por` is applied (R202). -/
def PinState.reset : PinState :=
  { blk := State.reset, mode := .por, job := .none, tick := none, cycle := 0 }

/-- Nothing in progress, and the block's state is `s`. -/
def PinState.quietAt (s : State) : PinState :=
  { blk := s, mode := .running, job := .none, tick := none, cycle := 0 }

end Sys2Proof.Machine
end

