-- ==== Sys2Proof/Machine/Pins.lean ====
section
/-! DEFINITION. The pin-level protocol (R190 to R202): the outputs of a state, and the state after one rising edge
of `clk`. -/

namespace Sys2Proof.Machine

/-! ### Outputs -/

/-- `cart_op` (R36, R90). -/
def CartCall.op : CartCall → BitVec 2
  | .read _ => 0
  | .write _ _ => 1
  | .insert _ => 2
  | .remove => 3

/-- `cart_addr`: 0 for a call that does not use it (R193). -/
def CartCall.addr : CartCall → Addr
  | .read a | .write a _ => a
  | .insert _ | .remove => 0

/-- `cart_wdata`: 0 for a call that does not use it (R193). -/
def CartCall.wdata : CartCall → Byte
  | .write _ v => v
  | .read _ | .insert _ | .remove => 0

/-- `cart_sel`: 0 for a call that does not use it (R193). -/
def CartCall.sel : CartCall → Selector
  | .insert sel => sel
  | .read _ | .write _ _ | .remove => 0

/-- `cmd_ready` (R191): no access, no lifecycle operation and no response in progress, and either no TICK in
progress or a TICK waiting for its step to return. R191 does not say whether an operation is still in progress in the
cycle of its own response: here it is, for every operation (DESIGN CHOICE, log 25). -/
def PinState.ready (p : PinState) : Bool :=
  decide (p.mode = .running) && decide (p.job = .none) && (p.tick.isNone || decide (p.tick = some .wait))

/-- The cartridge call on the port in this cycle. -/
def PinState.cartCall (p : PinState) : Option CartCall :=
  match p.job with
  | .cart c true => some c
  | _ => none

/-- The picture-register call on the port in this cycle. -/
def PinState.regCall (p : PinState) : Option (RegIndex × Bool × Byte) :=
  match p.job with
  | .reg i w v true => some (i, w, v)
  | _ => none

/-- The response on the port in this cycle. -/
def PinState.response (p : PinState) : Option (Byte × Status) :=
  match p.job with
  | .respond d st true => some (d, st)
  | _ => none

/-- A pulse of the TICK in progress is on the port in this cycle. -/
def PinState.pulsing (p : PinState) : Bool := decide (p.tick = some .pulse)

/-- The outputs while the block works. The operands of a call that is not outstanding are free values (log 19). -/
def PinState.runningOut (p : PinState) : PinOut :=
  { cmdReady := p.ready
    rspValid := p.response.isSome
    rspData := (p.response.map (·.1)).getD 0
    rspStatus := (p.response.map (·.2.code)).getD 0
    cartReq := p.cartCall.isSome
    cartOp := (p.cartCall.map CartCall.op).getD (BitVec.ofNat 2 (Config.freeNat p.cycle 0))
    cartAddr := (p.cartCall.map CartCall.addr).getD (BitVec.ofNat 16 (Config.freeNat p.cycle 1))
    cartWdata := (p.cartCall.map CartCall.wdata).getD (BitVec.ofNat 8 (Config.freeNat p.cycle 2))
    cartSel := (p.cartCall.map CartCall.sel).getD (BitVec.ofNat 24 (Config.freeNat p.cycle 3))
    ppuStep := p.pulsing && decide (activeAgent p.blk = .pictureUnit)
    ppuRegReq := p.regCall.isSome
    ppuRegWe := (p.regCall.map (·.2.1)).getD (decide (Config.freeNat p.cycle 4 = 0))
    ppuRegIdx := (p.regCall.map (·.1)).getD (BitVec.ofNat 3 (Config.freeNat p.cycle 5))
    ppuRegWdata := (p.regCall.map (·.2.2)).getD (BitVec.ofNat 8 (Config.freeNat p.cycle 6))
    cpuInit := decide (p.job = .cpuInit .pulse)
    cpuStep := p.pulsing && decide (activeAgent p.blk = .processor) }

/-- "While `por = 1` the block drives every output 0" (R202). -/
def PinOut.zero : PinOut :=
  { cmdReady := false, rspValid := false, rspData := 0, rspStatus := 0, cartReq := false, cartOp := 0,
    cartAddr := 0, cartWdata := 0, cartSel := 0, ppuStep := false, ppuRegReq := false, ppuRegWe := false,
    ppuRegIdx := 0, ppuRegWdata := 0, cpuInit := false, cpuStep := false }

/-- Outputs after a refused command: unspecified (R202, U12), so every one is a free value. -/
def PinOut.free (n : Nat) : PinOut :=
  { cmdReady := decide (Config.freeNat n 7 = 0), rspValid := decide (Config.freeNat n 8 = 0),
    rspData := BitVec.ofNat 8 (Config.freeNat n 9), rspStatus := BitVec.ofNat 3 (Config.freeNat n 10),
    cartReq := decide (Config.freeNat n 11 = 0), cartOp := BitVec.ofNat 2 (Config.freeNat n 0),
    cartAddr := BitVec.ofNat 16 (Config.freeNat n 1), cartWdata := BitVec.ofNat 8 (Config.freeNat n 2),
    cartSel := BitVec.ofNat 24 (Config.freeNat n 3), ppuStep := decide (Config.freeNat n 12 = 0),
    ppuRegReq := decide (Config.freeNat n 13 = 0), ppuRegWe := decide (Config.freeNat n 4 = 0),
    ppuRegIdx := BitVec.ofNat 3 (Config.freeNat n 5), ppuRegWdata := BitVec.ofNat 8 (Config.freeNat n 6),
    cpuInit := decide (Config.freeNat n 14 = 0), cpuStep := decide (Config.freeNat n 15 = 0) }

/-- The outputs driven in the cycle that `p` describes: a function of the state alone (log 22). -/
def pinOut (p : PinState) : PinOut :=
  match p.mode with
  | .running => p.runningOut
  | .por => PinOut.zero
  | .unspecified => PinOut.free p.cycle

/-! ### One rising edge -/

/-- RAM whose byte `k` is `f k`, in canonical form. -/
def Memory.ofFn (f : Nat → Byte) : Memory :=
  (List.range Config.ramSize).filterMap (fun k => if f k = 0#8 then none else some (k, f k))

/-- The block's state after a refused command is unspecified (R202, U12): `ram`, `mcc`, `life`, `ctx` and the
reference all become free values, others at each edge `n` (log 19). -/
def State.scrambled (n : Nat) (s : State) : State :=
  { s with
    mcc := Config.freeNat n 16 % 2 ^ s.cfg.cw
    ram := Memory.ofFn (fun k => BitVec.ofNat 8 (Config.freeNat n (17 + k)))
    life := if Config.freeNat n 3000 = 0 then .ready else .off
    ctx := if Config.freeNat n 3001 = 0 then .host else if Config.freeNat n 3001 = 1 then .inCpu
      else .inPpu (Config.freeNat n 3002)
    cartRef := decide (Config.freeNat n 3003 = 0) }

/-- Begin an admitted operation whose word was accepted (R196 to R200, first line of each). -/
def PinState.begin (i : Instr) (p : PinState) : PinState :=
  match i with
  | .rd a => { p with job := .cart (.read a) false }
  | .wr a v => { p with job := .cart (.write a v) false }
  | .init sel => { p with job := .fill sel }
  | .shut => { p with job := .cart .remove false }
  | .tick =>
    { p with
      blk := { p.blk with mcc := (p.blk.mcc + 1) % 2 ^ p.blk.cfg.cw, ctx := .inPpu p.blk.mcc }
      tick := some .pend }

/-- A command word is accepted (R191): a reserved word is answered (R201), an admitted operation begins, and after a
refused one nothing is specified (R202). -/
def PinState.accept (w : Cmd) (p : PinState) : PinState :=
  let q := { p with blk := p.blk.emit [.command w] }
  match decode w with
  | none => { q with job := .respond 0 .illegal false }
  | some i =>
    match admission i p.blk with
    | none => q.begin i
    | some _ => { q with mode := .unspecified, job := .none, tick := none, blk := q.blk.scrambled p.cycle }

/-- RD after `cart_ack` without hijack (R196, step 4). -/
def PinState.readMap (a : Addr) (p : PinState) : PinState :=
  match region a with
  | .ram i => { p with job := .respond (p.blk.readRam i) .ok false }
  | .ppu i => { p with job := .reg i false 0 false }
  | .unmapped => { p with blk := p.blk.afterDraw, job := .respond p.blk.drawn .ok false }

/-- WR after `cart_ack` without hijack (R197, step 4). -/
def PinState.writeMap (a : Addr) (v : Byte) (p : PinState) : PinState :=
  match region a with
  | .ram i => { p with blk := p.blk.writeRam i v, job := .respond 0 .ok false }
  | .ppu i => { p with job := .reg i true v false }
  | .unmapped => { p with job := .respond 0 .ok false }

/-- The adapter acknowledges a call (R193, R196, R197, R199, R200). -/
def PinState.acked (c : CartCall) (i : PinIn) (p : PinState) : PinState :=
  match c with
  | .read a =>
    let q := { p with blk := p.blk.emit [.cartRead a i.cartRdata i.cartHijack] }
    if i.cartHijack then { q with job := .respond i.cartRdata .ok false } else q.readMap a
  | .write a v =>
    let q := { p with blk := p.blk.emit [.cartWrite a v i.cartHijack] }
    if i.cartHijack then { q with job := .respond 0 .ok false } else q.writeMap a v
  | .insert sel =>
    let b := p.blk.emit [.cartInsert sel (!i.cartFail)]
    if i.cartFail then { p with blk := b.setLife .off, job := .respond 0 .loadErr false }
    else { p with blk := b, job := .cpuInit .pend }
  | .remove =>
    { p with
      blk := (p.blk.emit [.cartRemove (!i.cartFail)]).setLife .off
      job := .respond 0 (if i.cartFail then .unloadErr else .ok) false }

/-- What the sampled inputs do to the job. Acknowledgements with no call on the port are ignored (R193 to R195). -/
def PinState.advanceJob (i : PinIn) (p : PinState) : PinState :=
  match p.job with
  | .cart c true => if i.cartAck then p.acked c i else p
  | .reg k w v true =>
    if i.ppuRegAck then
      { p with
        blk := p.blk.emit [.ppuReg k w v i.ppuRegRdata]
        job := .respond (if w then 0 else i.ppuRegRdata) .ok false }
    else p
  | .cpuInit .pulse => { p with job := .cpuInit .wait }
  | .cpuInit .wait =>
    if i.cpuInitDone then { p with blk := p.blk.setLife .ready, job := .respond 0 .ok false } else p
  | .respond _ _ true => { p with job := .none }
  | _ => p

/-- `*_done` of the device that is stepping. -/
def PinState.stepDone (i : PinIn) (p : PinState) : Bool :=
  match p.blk.ctx with
  | .host => false
  | .inPpu _ => i.ppuStepDone
  | .inCpu => i.cpuStepDone

/-- The step of the stepping device has returned (R198, steps 3 and 4). -/
def PinState.returned (p : PinState) : PinState :=
  match p.blk.ctx with
  | .host => p
  | .inPpu c =>
    if stepEnable p.blk.cfg c then
      { p with blk := (p.blk.setCtx .inCpu).emit [.returned], tick := some .pend }
    else
      { p with blk := (p.blk.setCtx .host).emit [.returned], tick := none, job := .respond 0 .ok false }
  | .inCpu =>
    { p with blk := (p.blk.setCtx .host).emit [.returned], tick := none, job := .respond 0 .ok false }

/-- The step call the TICK in progress makes now: `PpuStep` or `CpuStep`. -/
def PinState.stepEvent (p : PinState) : Event :=
  match p.blk.ctx with
  | .inCpu => .cpuStep
  | .host | .inPpu _ => .ppuStep

/-- Put on its port what waits for it: INIT's fill and then INSERT, a request, the pulse of `CpuInit`, a response
(R192 to R195, R199). The fill is done at one edge (log 21). -/
def PinState.launchJob (p : PinState) : PinState :=
  match p.job with
  | .fill sel => { p with blk := p.blk.clear, job := .cart (.insert sel) true }
  | .cart c false => { p with job := .cart c true }
  | .reg k w v false => { p with job := .reg k w v true }
  | .cpuInit .pend => { p with blk := p.blk.emit [.cpuInit], job := .cpuInit .pulse }
  | .respond d st false => { p with blk := p.blk.respond d st, job := .respond d st true }
  | _ => p

/-- Pulse `ppu_step` or `cpu_step` (R195, R198). -/
def PinState.launchTick (p : PinState) : PinState :=
  match p.tick with
  | some .pend => { p with blk := p.blk.emit [p.stepEvent], tick := some .pulse }
  | _ => p

/-- The block moves on by itself, or not (R190; log 16). -/
def PinState.launch (i : PinIn) (p : PinState) : PinState :=
  if i.go then p.launchJob.launchTick else p

/-- A command is accepted at this edge (R191). -/
def PinState.accepts (i : PinIn) (p : PinState) : Bool := i.cmdValid && p.ready

/-- The job is an access that has not yet received its response. A reserved-word response, the only one with status
`ST_ILLEGAL` (R217), is no access (R191, R215). -/
def Job.accessOpen : Job → Bool
  | .cart _ _ => true
  | .reg _ _ _ _ => true
  | .respond _ st _ => decide (st ≠ .illegal)
  | .none | .fill _ | .cpuInit _ => false

/-- `*_done` of the stepping device has been sampled: the step returns, after the response still in progress if there
is one (R192: "Responses come in order of completion"; log 18). -/
def PinState.doneSeen (p : PinState) : PinState :=
  if p.job = .none then p.returned else { p with tick := some .done }

/-- The edge of a working block, before `launch`: accept a command or advance the job, then move the TICK on. `p` is
the state before the edge. A `*_done` in the cycle of the pulse itself is not looked at (log 17), and one with an access
unanswered breaks R195 and is a fault (log 18). -/
def PinState.edge (i : PinIn) (p : PinState) : Host.Outcome PinState Fault Refusal :=
  let q := if p.accepts i then p.accept i.cmd else p.advanceJob i
  match p.tick with
  | some .pulse => .next { q with tick := some .wait }
  | some .wait =>
    if p.stepDone i ∧ q.mode = .running then
      (if q.job.accessOpen then .fault .doneDuringAccess else .next q.doneSeen)
    else .next q
  | some .done => .next q.doneSeen
  | some .pend | none => .next q

/-- Power-on at pin level (R202): everything in progress is dropped, the block's `life` and `ctx` are set, `ram` and
`mcc` are not cleared (log 20). -/
def PinState.powerOn (p : PinState) : PinState :=
  { p with blk := p.blk.powerOn, mode := .por, job := .none, tick := none }

/-- Count the edge. -/
def PinState.counted (p : PinState) : PinState := { p with cycle := p.cycle + 1 }

/-- One rising edge of `clk` (R190). After a refused command every edge until `por` leaves another free state (R202;
log 19). -/
def pinCycle (p : PinState) (i : PinIn) : Host.Outcome PinState Fault Refusal :=
  if i.por then .next p.powerOn.counted
  else
    match p.mode with
    | .por => .next { p with mode := .running }.counted
    | .unspecified => .next { p with blk := p.blk.scrambled p.cycle }.counted
    | .running =>
      match p.edge i with
      | .next q => .next (if q.mode = .running then q.launch i else q).counted
      | .fault f => .fault f
      | .refused r => .refused r

/-- A run at pin level: one edge for each sample. -/
def pinRun (p : PinState) : List PinIn → Host.Outcome PinState Fault Refusal
  | [] => .next p
  | i :: is =>
    match pinCycle p i with
    | .next q => pinRun q is
    | .fault f => .fault f
    | .refused r => .refused r

/-! ### Reading a record as a run of the operation level (R203) -/

/-- The input of the operation level that an event records. -/
def Event.toInput : Event → Option Input
  | .command w => some (.command w)
  | .returned => some .stepReturns
  | .powerOn => some .powerOn
  | _ => none

/-- The answers a record holds, in the order they were given. -/
def answersOf (t : List Event) : Answers :=
  { cartInsert := t.filterMap (fun | .cartInsert _ ok => some ok | _ => none)
    cartRemove := t.filterMap (fun | .cartRemove ok => some ok | _ => none)
    cartRead := t.filterMap (fun | .cartRead _ vc h => some (vc, h) | _ => none)
    cartWrite := t.filterMap (fun | .cartWrite _ _ h => some h | _ => none)
    ppuReg := t.filterMap (fun | .ppuReg _ _ _ r => some r | _ => none) }

/-- The inputs a record holds, in the order they came. -/
def inputsOf (t : List Event) : List Input := t.filterMap Event.toInput

/-- Nothing is half done: no job, and a TICK, if there is one, waits for its step to return. -/
def PinState.quiet (p : PinState) : Bool :=
  decide (p.mode = .running) && decide (p.job = .none) && (p.tick.isNone || decide (p.tick = some .wait))

end Sys2Proof.Machine
end

