-- ==== Sys2Proof/Machine/BigStep.lean ====
section
/-! DEFINITION. TICK in one piece, as the pseudocode of R130 has it, with the accesses of the two steps given: the
model R31 calls "one big step with the nested accesses inside it". Statements compare the flat model with it. -/

namespace Sys2Proof.Machine

/-- An access a device makes during its step (R135). -/
inductive Access where
  | rd (a : Addr)
  | wr (a : Addr) (v : Byte)
  deriving DecidableEq, Repr

/-- The operation that the access is. -/
def Access.toInstr : Access → Instr
  | .rd a => .rd a
  | .wr a v => .wr a v

/-- The access as an input: its command word. -/
def Access.toInput (x : Access) : Input := .command (encode x.toInstr)

/-- The effect of the access (R112, R113), its command word recorded first. -/
def Access.serve (s : State) (x : Access) : State :=
  match x with
  | .rd a => readEffect a (s.emit [.command (encode x.toInstr)])
  | .wr a v => writeEffect a v (s.emit [.command (encode x.toInstr)])

/-- All accesses of one step, each complete before the next (R135). -/
def serveAll (xs : List Access) (s : State) : State := xs.foldl Access.serve s

/-- The pseudocode of R130: `ppu` are the accesses of `PpuStep`, `cpu` those of `CpuStep` if it is called. -/
def tickWhole (ppu cpu : List Access) (s : State) : State :=
  let c := s.mcc
  let s := { s with mcc := (c + 1) % 2 ^ s.cfg.cw }
  let s := (serveAll ppu (s.emit [.ppuStep])).emit [.returned]
  let s := if c % 3 = s.cfg.phase.val then (serveAll cpu (s.emit [.cpuStep])).emit [.returned] else s
  s.respond 0 .ok

/-- The inputs of one TICK at counter `c`: the word, the picture unit's accesses and its return, and on a
processor-clock edge the processor's accesses and its return. -/
def tickInputs (cfg : Config) (c : Nat) (ppu cpu : List Access) : List Input :=
  .command (encode .tick) :: (ppu.map Access.toInput ++ .stepReturns ::
    (if stepEnable cfg c then cpu.map Access.toInput ++ [.stepReturns] else []))

/-- `TICKN n` (R92): `n` TICK commands. Each is written with the returns of its two steps; the second return of a
tick that does not step the processor is ignored (log 10). -/
def tickNInputs : Nat → List Input
  | 0 => []
  | n + 1 => .command (encode .tick) :: .stepReturns :: .stepReturns :: tickNInputs n

end Sys2Proof.Machine
end

