-- ==== Sys2Proof/Machine/TraceSyntax.lean ====
section
/-! DEFINITION. The trace syntax of R91 and the pseudo-operation `TICKN` of R92: one line of a trace read into the
operation it stands for, and a list of lines made into the inputs and device answers of a run (log 24). -/

namespace Sys2Proof.Machine

/-! ### Tokens -/

/-- A token of a trace line: a word in lower case ("case is not significant", R91), a number, or a mark. -/
inductive Token where
  | word (cs : List Char)
  | num (n : Nat)
  | mark (c : Char)
  deriving DecidableEq, Repr

def isDigit (c : Char) : Bool := decide (48 ≤ c.toNat) && decide (c.toNat ≤ 57)

def isUpper (c : Char) : Bool := decide (65 ≤ c.toNat) && decide (c.toNat ≤ 90)

def isLower (c : Char) : Bool := decide (97 ≤ c.toNat) && decide (c.toNat ≤ 122)

def lower (c : Char) : Char := if isUpper c then Char.ofNat (c.toNat + 32) else c

/-- Letters, digits and `_` make words and numbers. -/
def isWordChar (c : Char) : Bool := isDigit c || isUpper c || isLower c || c == '_'

def isBlank (c : Char) : Bool := c == ' ' || c.toNat == 9

/-- The value of a digit of a base, the letters in lower case. -/
def digitValue (base : Nat) (c : Char) : Option Nat :=
  if isDigit c then (if c.toNat - 48 < base then some (c.toNat - 48) else none)
  else if isLower c then (if c.toNat - 87 < base then some (c.toNat - 87) else none)
  else none

def digitsValue (base acc : Nat) : List Char → Option Nat
  | [] => some acc
  | c :: cs => match digitValue base c with
    | some d => digitsValue base (acc * base + d) cs
    | none => none

/-- A word that begins with a digit is a number, hexadecimal after `0x`, else decimal (R91); none if it is neither. -/
def wordToken (cs : List Char) : Option Token :=
  match cs with
  | '0' :: 'x' :: d :: ds => (digitsValue 16 0 (d :: ds)).map .num
  | c :: _ => if isDigit c then (digitsValue 10 0 cs).map .num else some (.word cs)
  | [] => none

/-- Close the word read so far (`cur` is reversed). -/
def closeWord (cur : List Char) (ts : Option (List Token)) : Option (List Token) :=
  match cur with
  | [] => ts
  | _ => match wordToken cur.reverse, ts with
    | some t, some ts => some (t :: ts)
    | _, _ => none

/-- The tokens of a line; a `;` starts a comment (R91). -/
def tokens (cur : List Char) : List Char → Option (List Token)
  | [] => closeWord cur (some [])
  | c :: cs =>
    if isWordChar c then tokens (lower c :: cur) cs
    else if c == ';' then closeWord cur (some [])
    else if isBlank c then closeWord cur (tokens [] cs)
    else closeWord cur ((tokens [] cs).map (.mark c :: ·))

/-! ### Lines -/

/-- An operation of a trace line (R91), or the pseudo-operation of R92. -/
inductive TraceOp where
  | op (i : Instr)
  | tickN (n : Nat)
  deriving DecidableEq, Repr

/-- A result after `->` (R91). -/
inductive TraceResult where
  | value (v : Byte)
  | status (st : Status)
  deriving DecidableEq, Repr

/-- An annotation in braces (R91). -/
inductive Note where
  | cartPass
  | cartHijack (v : Option Byte)
  | ppu (i : RegIndex) (r : Byte)
  | insert (ok : Bool)
  | remove (ok : Bool)
  | draw (v : Byte)
  deriving DecidableEq, Repr

/-- One line: the issuing device, if the line is inside a step, the operation, its annotations, its result. -/
structure TraceLine where
  agent : Option Agent
  op : TraceOp
  notes : List Note
  result : Option TraceResult
  deriving DecidableEq, Repr

/-- A number that fits a width. -/
def fit (n : Nat) (w : Nat) : Option (BitVec w) := if n < 2 ^ w then some (BitVec.ofNat w n) else none

/-- The operation at the front of a line and what follows it. -/
def parseOp : List Token → Option (TraceOp × List Token)
  | .word ['i', 'n', 'i', 't'] :: .num n :: ts => (fit n 24).map (fun s => (.op (.init s), ts))
  | .word ['s', 'h', 'u', 't'] :: ts => some (.op .shut, ts)
  | .word ['t', 'i', 'c', 'k'] :: ts => some (.op .tick, ts)
  | .word ['t', 'i', 'c', 'k', 'n'] :: .num n :: ts => some (.tickN n, ts)
  | .word ['r', 'd'] :: .num a :: ts => (fit a 16).map (fun a => (.op (.rd a), ts))
  | .word ['w', 'r'] :: .num a :: .mark ',' :: .num v :: ts =>
    (fit a 16).bind (fun a => (fit v 8).map (fun v => (.op (.wr a v), ts)))
  | _ => none

/-- The agent prefix `cpu:` or `ppu:` of a line inside a step. -/
def parseAgent : List Token → Option Agent × List Token
  | .word ['c', 'p', 'u'] :: .mark ':' :: ts => (some .processor, ts)
  | .word ['p', 'p', 'u'] :: .mark ':' :: ts => (some .pictureUnit, ts)
  | ts => (none, ts)

/-- The inside of one pair of braces. -/
def parseNote : List Token → Option Note
  | [.word ['c', 'a', 'r', 't'], .mark ':', .word ['p', 'a', 's', 's']] => some .cartPass
  | [.word ['c', 'a', 'r', 't'], .mark ':', .word ['h', 'i', 'j', 'a', 'c', 'k']] => some (.cartHijack none)
  | [.word ['c', 'a', 'r', 't'], .mark ':', .word ['h', 'i', 'j', 'a', 'c', 'k'], .num v] =>
    (fit v 8).map (fun v => .cartHijack (some v))
  | [.word ['p', 'p', 'u'], .mark '[', .num i, .mark ']', .mark '-', .mark '>', .num r] =>
    (fit i 3).bind (fun i => (fit r 8).map (fun r => .ppu i r))
  | [.word ['i', 'n', 's', 'e', 'r', 't'], .mark ':', .word ['o', 'k']] => some (.insert true)
  | [.word ['i', 'n', 's', 'e', 'r', 't'], .mark ':', .word ['f', 'a', 'i', 'l']] => some (.insert false)
  | [.word ['r', 'e', 'm', 'o', 'v', 'e'], .mark ':', .word ['o', 'k']] => some (.remove true)
  | [.word ['r', 'e', 'm', 'o', 'v', 'e'], .mark ':', .word ['f', 'a', 'i', 'l']] => some (.remove false)
  | [.word ['d', 'r', 'a', 'w'], .num v] => (fit v 8).map .draw
  | _ => none

/-- A result: a byte, or the name of a status (R213). -/
def parseResult : List Token → Option TraceResult
  | [.num v] => (fit v 8).map .value
  | [.word ['s', 't', '_', 'o', 'k']] => some (.status .ok)
  | [.word ['s', 't', '_', 'l', 'o', 'a', 'd', '_', 'e', 'r', 'r']] => some (.status .loadErr)
  | [.word ['s', 't', '_', 'u', 'n', 'l', 'o', 'a', 'd', '_', 'e', 'r', 'r']] => some (.status .unloadErr)
  | [.word ['s', 't', '_', 'i', 'l', 'l', 'e', 'g', 'a', 'l']] => some (.status .illegal)
  | _ => none

/-- The braces and the result that follow an operation. `inside` holds the tokens since an open brace, reversed. -/
def parseTail (inside : Option (List Token)) : List Token → Option (List Note × Option TraceResult)
  | [] => match inside with
    | none => some ([], none)
    | some _ => none
  | t :: ts =>
    match inside with
    | some acc =>
      if t = .mark (Char.ofNat 0x7D) then
        (parseNote acc.reverse).bind (fun n => (parseTail none ts).map (fun (ns, r) => (n :: ns, r)))
      else parseTail (some (t :: acc)) ts
    | none =>
      if t = .mark (Char.ofNat 0x7B) then parseTail (some []) ts
      else match t, ts with
        | .mark '-', .mark '>' :: ts => (parseResult ts).map (fun r => ([], some r))
        | _, _ => none

/-- Read one line (R91). None for a line that is not of the syntax, and for one that holds no operation; `parseLines`
passes over a line that is blank or only a comment. -/
def parseLine (cs : List Char) : Option TraceLine :=
  (tokens [] cs).bind fun ts =>
    let (g, ts) := parseAgent ts
    (parseOp ts).bind fun (o, ts) =>
      (parseTail none ts).map fun (ns, r) => { agent := g, op := o, notes := ns, result := r }

/-- Read the lines of a trace. R91 does not say whether a line that holds only a comment, or nothing, is a line of the
trace: here it stands for no operation and is passed over (DESIGN CHOICE, log 24). None if another line is not of the
syntax. -/
def parseLines : List (List Char) → Option (List TraceLine)
  | [] => some []
  | cs :: css =>
    if tokens [] cs = some [] then parseLines css
    else (parseLine cs).bind fun l => (parseLines css).map (l :: ·)

/-! ### From lines to a run -/

/-- The command words of an operation; `TICKN n` is `n` TICKs (R92). -/
def TraceOp.inputs : TraceOp → List Input
  | .op i => [.command (encode i)]
  | .tickN n => tickNInputs n

/-- Whether a line leaves a step open for the device lines under it. -/
def TraceOp.opensStep : TraceOp → Bool
  | .op .tick => true
  | _ => false

/-- The returns that end an open step: the picture unit's and the processor's, or the processor's alone. A return
with no step outstanding is ignored (log 10). -/
def closing : Option Agent → List Input
  | some .processor => [.stepReturns]
  | some _ => [.stepReturns, .stepReturns]
  | none => []

/-- The inputs of a list of lines; `inStep` is the device whose step is open. -/
def inputsOfLines (inStep : Option Agent) : List TraceLine → List Input
  | [] => closing inStep
  | l :: ls =>
    match l.agent with
    | none =>
      closing inStep ++ l.op.inputs
        ++ inputsOfLines (if l.op.opensStep then some .pictureUnit else none) ls
    | some g =>
      (if g = .processor ∧ inStep = some .pictureUnit then [.stepReturns] else [])
        ++ l.op.inputs ++ inputsOfLines (some g) ls

/-- FREE VALUES. A byte and a yes-or-no answer that line `k` does not note. -/
def unnotedByte (k item : Nat) : Byte := BitVec.ofNat 8 (Config.freeNat k item)

def unnotedFlag (k item : Nat) : Bool := decide (Config.freeNat k item = 0)

/-- What line `k` says its offer is answered: `(vc, h)`. Where R91's notes give no value, the value is free: the whole
answer of a line with no `cart` note, the value of a READ that passes, and the value of a READ noted `hijack` without
one, a form R91 shows for a write only (DESIGN CHOICE, log 24). -/
def TraceLine.offerAnswer (k : Nat) (l : TraceLine) : Byte × Bool :=
  (l.notes.findSome? (fun
    | .cartPass => some (unnotedByte k 4000, false)
    | .cartHijack v => some (v.getD (unnotedByte k 4000), true)
    | _ => none)).getD (unnotedByte k 4000, unnotedFlag k 4001)

/-- The answer of the register call that line `k` makes, if it makes one: the note for that register, else free. -/
def TraceLine.regAnswers (k : Nat) (a : Addr) (hijacked : Bool) (l : TraceLine) : List Byte :=
  match hijacked, region a with
  | false, .ppu i =>
    [(l.notes.findSome? (fun
      | .ppu j r => if j = i then some r else none
      | _ => none)).getD (unnotedByte k 4002)]
  | _, _ => []

/-- What line `k` says `CartInsert` or `CartRemove` answers, free where it does not say. -/
def TraceLine.insertAnswer (k : Nat) (l : TraceLine) : Bool :=
  (l.notes.findSome? (fun
    | .insert ok => some ok
    | _ => none)).getD (unnotedFlag k 4003)

def TraceLine.removeAnswer (k : Nat) (l : TraceLine) : Bool :=
  (l.notes.findSome? (fun
    | .remove ok => some ok
    | _ => none)).getD (unnotedFlag k 4003)

/-- Add the answers of line `k`: one for each call out its operation makes, and no other, so that the notes of a line
answer its own calls only (R91; log 24). A note `draw` fixes no answer: an unmapped read stays free (R55). -/
def TraceLine.addAnswers (k : Nat) (l : TraceLine) (as : Answers) : Answers :=
  match l.op with
  | .op (.rd a) =>
    { as with
      cartRead := as.cartRead ++ [l.offerAnswer k]
      ppuReg := as.ppuReg ++ l.regAnswers k a (l.offerAnswer k).2 }
  | .op (.wr a _) =>
    { as with
      cartWrite := as.cartWrite ++ [(l.offerAnswer k).2]
      ppuReg := as.ppuReg ++ l.regAnswers k a (l.offerAnswer k).2 }
  | .op (.init _) => { as with cartInsert := as.cartInsert ++ [l.insertAnswer k] }
  | .op .shut => { as with cartRemove := as.cartRemove ++ [l.removeAnswer k] }
  | .op .tick | .tickN _ => as

/-- The answers of lines `k`, `k + 1` and so on, after those already in `as`. -/
def answersFrom (k : Nat) (as : Answers) : List TraceLine → Answers
  | [] => as
  | l :: ls => answersFrom (k + 1) (l.addAnswers k as) ls

/-- The answers of a list of lines, in order. -/
def answersOfLines (ls : List TraceLine) : Answers := answersFrom 0 Answers.none ls

/-- The state that is about to run the lines. -/
def State.withLines (ls : List TraceLine) (s : State) : State :=
  { s with inbox := inputsOfLines none ls, answers := answersOfLines ls }

end Sys2Proof.Machine
end

