-- ==== Sys2Proof/Safety.lean ====
section
/-! DEFINITION. What a sound state of the block is, and what can be said of a run, in the terms the statements
use. -/

namespace Sys2Proof.Machine

/-- What `ctx` says agrees with `life`, `mcc` and `PHASE`: a step is outstanding only in a session (R153); the `c` of
the TICK in progress is the counter before its increment (R130); the processor is stepped only on a
processor-clock edge (R131). -/
def State.ctxOk (s : State) : Bool :=
  match s.ctx with
  | .host => true
  | .inPpu c =>
    decide (s.life = .ready) && decide (c < 2 ^ s.cfg.cw) && decide (s.mcc = (c + 1) % 2 ^ s.cfg.cw)
  | .inCpu =>
    decide (s.life = .ready) && stepEnable s.cfg ((s.mcc + (2 ^ s.cfg.cw - 1)) % 2 ^ s.cfg.cw)

/-- A sound state (R20, R21, R24, R31): the parameters are in range, `ram` has its canonical form, `mcc` fits its
width, the cartridge reference is present iff `life = READY`, and `ctx` agrees with the rest. -/
def State.inv (s : State) : Bool :=
  s.cfg.wf && s.ram.wf && decide (s.mcc < 2 ^ s.cfg.cw)
    && decide (s.cartRef = decide (s.life = .ready)) && s.ctxOk

/-- A job runs only in the `life` that its operation is admitted in (R153), and a lifecycle operation only outside a
TICK (R192: "never more than one TICK, one lifecycle operation and one access outstanding"). -/
def PinState.jobOk (p : PinState) : Bool :=
  match p.job with
  | .none => true
  | .respond _ _ _ => true
  | .reg _ _ _ _ => decide (p.blk.life = .ready)
  | .cart (.read _) _ => decide (p.blk.life = .ready)
  | .cart (.write _ _) _ => decide (p.blk.life = .ready)
  | .cart .remove _ => decide (p.blk.life = .ready) && p.tick.isNone
  | .cart (.insert _) _ => decide (p.blk.life = .off) && p.tick.isNone
  | .fill _ => decide (p.blk.life = .off) && p.tick.isNone
  | .cpuInit _ => decide (p.blk.life = .off) && p.tick.isNone

/-- A reserved-word response is in progress (R191, R201). -/
def Job.isReservedResponse : Job → Bool
  | .respond _ .illegal _ => true
  | _ => false

/-- A TICK is in progress iff `ctx` is not HOST, while its step call is being made nothing else runs (R191), and a
return is put off only by a reserved-word response (log 18). -/
def PinState.tickOk (p : PinState) : Bool :=
  match p.tick with
  | none => decide (p.blk.ctx = .host)
  | some .wait => decide (p.blk.ctx ≠ .host)
  | some .done => decide (p.blk.ctx ≠ .host) && p.job.isReservedResponse
  | some .pend | some .pulse => decide (p.blk.ctx ≠ .host) && decide (p.job = .none)

/-- A sound state of the pin level. After a refused command (R202) only the bounds of the storage are left. -/
def PinState.inv (p : PinState) : Bool :=
  p.blk.cfg.wf && p.blk.ram.wf && decide (p.blk.mcc < 2 ^ p.blk.cfg.cw)
    && (decide (p.mode = .unspecified) || (p.blk.inv && p.jobOk && p.tickOk))

/-- `n` steps of the block, stopping at the first fault or refusal. -/
def runSteps : Nat → State → Host.Outcome State Fault Refusal
  | 0, s => .next s
  | n + 1, s =>
    match step s with
    | .next t => runSteps n t
    | .fault f => .fault f
    | .refused r => .refused r

/-- How often an event of a kind stands in a record. -/
def countEvents (p : Event → Bool) (t : List Event) : Nat := t.countP p

/-- The commands of a record that are TICK (R85). -/
@[simp] def Event.isTick : Event → Bool
  | .command w => decide (decode w = some .tick)
  | _ => false

/-- An accepted command (R191). -/
@[simp] def Event.isCommand : Event → Bool
  | .command _ => true
  | _ => false

/-- A response (R89). -/
@[simp] def Event.isResponse : Event → Bool
  | .response _ _ => true
  | _ => false

/-- An offer to the cartridge (R116). -/
@[simp] def Event.isOffer : Event → Bool
  | .cartRead _ _ _ => true
  | .cartWrite _ _ _ => true
  | _ => false

/-- A picture-register call (R176). -/
@[simp] def Event.isReg : Event → Bool
  | .ppuReg _ _ _ _ => true
  | _ => false

/-- A write that the cartridge passed and that reached `ram[i]`, or the zero-fill of INIT. -/
@[simp] def Event.writesRam (i : RamIndex) : Event → Bool
  | .cartInsert _ _ => true
  | .cartWrite a _ h => !h && decide (region a = .ram i)
  | _ => false

/-- A call of `PpuStep`. -/
@[simp] def Event.isPpuStep : Event → Bool
  | .ppuStep => true
  | _ => false

/-- A call of `CpuStep`. -/
@[simp] def Event.isCpuStep : Event → Bool
  | .cpuStep => true
  | _ => false

/-- `CpuStep` calls among the `n` ticks that start at pre-increment counter `c0`, by R130 and R131 alone. -/
def steppingTicks (cfg : Config) (c0 n : Nat) : Nat :=
  (List.range n).countP (fun j => stepEnable cfg ((c0 + j) % 2 ^ cfg.cw))

/-- What the record says `ram[i]` is (R65): 0x00 from the zero-fill of the latest INIT on, then the value of the
latest WR that the cartridge passed and that reached `ram[i]` through any alias. -/
@[simp] def Event.ramAfter (i : RamIndex) (b : Byte) : Event → Byte
  | .cartInsert _ _ => 0
  | .cartWrite a v h => if h = false ∧ region a = .ram i then v else b
  | _ => b

/-- `ram[i]` read off a record that begins with every byte `b`. -/
def ramOfTrace (i : RamIndex) (b : Byte) (t : List Event) : Byte := t.foldl (Event.ramAfter i) b

/-- What the record says `mcc` is: MCC_INIT from the latest INIT on, plus one for each TICK since. -/
@[simp] def Event.mccAfter (cfg : Config) (c : Nat) : Event → Nat
  | .cartInsert _ _ => cfg.mccInit
  | .ppuStep => (c + 1) % 2 ^ cfg.cw
  | .command _ | .cartRemove _ | .cartRead _ _ _ | .cartWrite _ _ _ | .ppuReg _ _ _ _ | .cpuInit | .cpuStep
  | .returned | .response _ _ | .powerOn => c

/-- `mcc` read off a record that begins with counter `c`. -/
def mccOfTrace (cfg : Config) (c : Nat) (t : List Event) : Nat := t.foldl (Event.mccAfter cfg) c

/-- An input that can end or begin a session or reset the counter: INIT, or power-on. -/
def Input.restarts : Input → Bool
  | .command w => match decode w with
    | some (.init _) => true
    | _ => false
  | .stepReturns => false
  | .powerOn => true

end Sys2Proof.Machine
end

