-- ==== Sys2Proof/Certificates/Slice0/Obligations.lean ====
section
/-! DEFINITION. The statements for the provers. Each docstring names the rule of spec/ it formalises. Where a device
answers, a statement holds for every scripted answer and for every value of the free answer. -/

open Sys2Proof Sys2Proof.Machine

/-! ### Encoding -/

/-- R85: a word selects an operation when `(w AND mask) = match`; operands are the fields of R84, here as numbers;
every other word selects none; the match sets are disjoint; the worked encodings. -/
def Obligations.DecoderFollowsTheMatchAndMaskTable : Prop :=
  (∀ w : Cmd,
    (w &&& 0xFF000000 = 0x20000000 → decode w = some (.init (BitVec.ofNat 24 w.toNat)))
    ∧ (w &&& 0xFFFFFFFF = 0x40000000 → decode w = some .shut)
    ∧ (w &&& 0xFFFFFFFF = 0x60000000 → decode w = some .tick)
    ∧ (w &&& 0xFF0000FF = 0x80000000 → decode w = some (.rd (BitVec.ofNat 16 (w.toNat / 2 ^ 8))))
    ∧ (w &&& 0xFF000000 = 0xA0000000 →
        decode w = some (.wr (BitVec.ofNat 16 (w.toNat / 2 ^ 8)) (BitVec.ofNat 8 w.toNat)))
    ∧ (w &&& 0xFF000000 ≠ 0x20000000 → w &&& 0xFFFFFFFF ≠ 0x40000000 → w &&& 0xFFFFFFFF ≠ 0x60000000 →
        w &&& 0xFF0000FF ≠ 0x80000000 → w &&& 0xFF000000 ≠ 0xA0000000 → decode w = none)
    ∧ (∀ r₁ ∈ rows, ∀ r₂ ∈ rows, r₁.selects w = true → r₂.selects w = true → r₁ = r₂))
  ∧ encode (.rd 0x8000) = 0x80800000 ∧ encode (.wr 0x0000 0x42) = 0xA0000042
  ∧ encode (.rd 0x2008) = 0x80200800 ∧ encode .tick = 0x60000000 ∧ encode .shut = 0x40000000
  ∧ encode (.init 0x000001) = 0x20000001

/-- R86: which words are reserved, by the rule's own list on the word as a number, and that a reserved word, whatever
`life` and `ctx` are, changes no block state, makes no call out and answers `ST_ILLEGAL` (3) with data 0x00. -/
def Obligations.ReservedWordsAnswerIllegalAndDoNothing : Prop :=
  Status.code .illegal = 3
  ∧ ∀ w : Cmd,
    let op := w.toNat / 2 ^ 29
    let isReserved : Prop :=
      op = 0b000 ∨ op = 0b110 ∨ op = 0b111
      ∨ w.toNat / 2 ^ 24 % 2 ^ 5 ≠ 0
      ∨ ((op = 0b011 ∨ op = 0b010) ∧ w.toNat % 2 ^ 24 ≠ 0)
      ∨ (op = 0b100 ∧ w.toNat % 2 ^ 8 ≠ 0)
    (isReserved ↔ decode w = none)
    ∧ ∀ (s : State) (rest : List Input), s.inbox = .command w :: rest → isReserved →
        step s = .next { s with inbox := rest, trace := s.trace ++ [.command w, .response 0x00 .illegal] }

/-- Decode and encode agree: for every operation, with every operand (R81, R82, R84, R85). -/
def Obligations.DecodeOfEncodeIsTheOperation : Prop :=
  ∀ i : Instr, decode (encode i) = some i

/-- Each word has one meaning: a word that decodes is the encoding of what it decodes to (R85, R86). -/
def Obligations.DecodedWordIsItsEncoding : Prop :=
  ∀ (w : Cmd) (i : Instr), decode w = some i → encode i = w

/-- The words of the vectors V60 to V73 (95_test_vectors.md), written out from the encoding of R81. -/
def Obligations.VectorWordsDecode : Prop :=
  decode 0x80800000 = some (.rd 0x8000) ∧ decode 0xA0000042 = some (.wr 0x0000 0x42)
  ∧ decode 0xA00123AB = some (.wr 0x0123 0xAB) ∧ decode 0x60000000 = some .tick
  ∧ decode 0x40000000 = some .shut ∧ decode 0x20000001 = some (.init 0x000001)
  ∧ decode 0x80FFFF00 = some (.rd 0xFFFF) ∧ decode 0xA0FFFFFF = some (.wr 0xFFFF 0xFF)
  ∧ decode 0x00000000 = none ∧ decode 0xC0000000 = none ∧ decode 0xE0000000 = none
  ∧ decode 0x61000000 = none ∧ decode 0x60000001 = none ∧ decode 0x40000100 = none
  ∧ decode 0x80000001 = none ∧ decode 0xA1000000 = none ∧ decode 0x30000000 = none
  ∧ decode 0x21000000 = none

/-! ### The step -/

/-- A step with a command first in the inbox takes it, records it and is `exec` of the operation it decodes to; and a
word placed by `withFetchWord` is run by the very next step (log 1). -/
def Obligations.StepRunsTheAcceptedCommand : Prop :=
  (∀ (s : State) (w : Cmd) (rest : List Input) (i : Instr), s.inbox = .command w :: rest → decode w = some i →
    step s = exec i { s with inbox := rest, trace := s.trace ++ [.command w] })
  ∧ (∀ (s : State) (w : Cmd) (i : Instr), decode w = some i →
    step (s.withFetchWord 32 w.toNat) = exec i { s with trace := s.trace ++ [.command w] })

/-- What a step does with no command: with nothing offered the block idles at `ctx = HOST` (R87) and is stuck on the
device inside a step (R180, U11; log 9); a return with no step outstanding is ignored (R195; log 10); power-on sets
`life` and `ctx` and clears neither `ram` nor `mcc` (R202; log 13). -/
def Obligations.StepWithoutACommand : Prop :=
  ∀ s : State,
    (s.inbox = [] → s.ctx = .host → step s = .next s)
    ∧ (s.inbox = [] → s.ctx ≠ .host → step s = .fault .deviceNotReturned)
    ∧ (∀ rest, s.inbox = .stepReturns :: rest → s.ctx = .host → step s = .next { s with inbox := rest })
    ∧ (∀ rest, s.inbox = .powerOn :: rest →
        step s = .next { s with
          inbox := rest, life := .off, ctx := .host, cartRef := false, trace := s.trace ++ [.powerOn] })

/-! ### RD and WR -/

/-- R112: RD of every address, in every `ctx`, for every answer of the devices. The offer comes first; the result is
the cartridge's value, `ram[a mod 0x0800]`, the picture register's value, or a free byte (the n-th, `n` the draw
counter, which moves on). No block state changes. While OFF it is refused (R110). -/
def Obligations.RdAnswersFromItsHandler : Prop :=
  ∀ (a : Addr) (s : State),
    (encode (.rd a)).toNat = 0x80000000 + a.toNat * 2 ^ 8
    ∧ (s.life = .off → exec (.rd a) s = .refused .notReady)
    ∧ (s.life = .ready → ∃ (vc : Byte) (h : Bool) (r : Byte) (t : State),
        exec (.rd a) s = .next t
        ∧ (∀ x xs, s.answers.cartRead = x :: xs → x = (vc, h))
        ∧ (∀ x xs, s.answers.ppuReg = x :: xs → x = r)
        ∧ t.cfg = s.cfg ∧ t.mcc = s.mcc ∧ t.ram = s.ram ∧ t.life = s.life ∧ t.ctx = s.ctx
        ∧ t.cartRef = s.cartRef ∧ t.inbox = s.inbox
        ∧ (h = true → t.trace = s.trace ++ [.cartRead a vc true, .response vc .ok])
        ∧ (h = false → a.toNat ≤ 0x1FFF →
            t.trace = s.trace
              ++ [.cartRead a vc false, .response (Memory.read s.ram (a.toNat % 0x0800)) .ok])
        ∧ (h = false → 0x2000 ≤ a.toNat → a.toNat ≤ 0x3FFF →
            t.trace = s.trace
              ++ [.cartRead a vc false, .ppuReg (BitVec.ofNat 3 (a.toNat % 8)) false 0x00 r, .response r .ok])
        ∧ (h = false → 0x4000 ≤ a.toNat → ∃ n, s.draws ≤ n ∧ t.draws = n + 1
            ∧ t.trace = s.trace ++ [.cartRead a vc false, .response (Config.freeByte n) .ok]))

/-- R113: WR of every address and value, in every `ctx`, for every answer of the devices. At most the one byte
`ram[a mod 0x0800]` is written, and only when the cartridge passes and the address is in the RAM window; every other
byte reads as before. While OFF it is refused (R110). -/
def Obligations.WrReachesItsHandlerOnly : Prop :=
  ∀ (a : Addr) (v : Byte) (s : State),
    (encode (.wr a v)).toNat = 0xA0000000 + a.toNat * 2 ^ 8 + v.toNat
    ∧ (s.life = .off → exec (.wr a v) s = .refused .notReady)
    ∧ (s.life = .ready → s.ram.wf = true → ∃ (h : Bool) (r : Byte) (t : State),
        exec (.wr a v) s = .next t
        ∧ (∀ x xs, s.answers.cartWrite = x :: xs → x = h)
        ∧ (∀ x xs, s.answers.ppuReg = x :: xs → x = r)
        ∧ t.cfg = s.cfg ∧ t.mcc = s.mcc ∧ t.life = s.life ∧ t.ctx = s.ctx ∧ t.cartRef = s.cartRef
        ∧ t.inbox = s.inbox
        ∧ (h = true → t.ram = s.ram ∧ t.trace = s.trace ++ [.cartWrite a v true, .response 0x00 .ok])
        ∧ (h = false → a.toNat ≤ 0x1FFF →
            (∀ k, Memory.read t.ram k = if k = a.toNat % 0x0800 then v else Memory.read s.ram k)
            ∧ t.trace = s.trace ++ [.cartWrite a v false, .response 0x00 .ok])
        ∧ (h = false → 0x2000 ≤ a.toNat → a.toNat ≤ 0x3FFF → t.ram = s.ram
            ∧ t.trace = s.trace
              ++ [.cartWrite a v false, .ppuReg (BitVec.ofNat 3 (a.toNat % 8)) true v r, .response 0x00 .ok])
        ∧ (h = false → 0x4000 ≤ a.toNat → t.ram = s.ram
            ∧ t.trace = s.trace ++ [.cartWrite a v false, .response 0x00 .ok]))

/-- R111: the fixed map by its ranges, total, and the mirrors: address bits 12 and 11 do not matter in the RAM window
(R53), bits 12 to 3 not in the register window (R54). RD and WR act by the handler it gives, the same for both (R58). -/
def Obligations.RegionIsTheFixedMap : Prop :=
  (∀ a : Addr,
    (a.toNat ≤ 0x1FFF → region a = .ram (BitVec.ofNat 11 (a.toNat % 0x0800)))
    ∧ (0x2000 ≤ a.toNat → a.toNat ≤ 0x3FFF → region a = .ppu (BitVec.ofNat 3 (a.toNat % 8)))
    ∧ (0x4000 ≤ a.toNat → region a = .unmapped))
  ∧ (∀ a b : Addr, a.toNat ≤ 0x1FFF → b.toNat ≤ 0x1FFF →
      (region a = region b ↔ a.toNat % 0x0800 = b.toNat % 0x0800))
  ∧ (∀ a b : Addr, 0x2000 ≤ a.toNat → a.toNat ≤ 0x3FFF → 0x2000 ≤ b.toNat → b.toNat ≤ 0x3FFF →
      (region a = region b ↔ a.toNat % 8 = b.toNat % 8))
  ∧ (∀ (a : Addr) (v : Byte) (s : State),
    (∀ k, region a = .ram k →
      readFixedMap a s = s.respond (s.readRam k) .ok ∧ writeFixedMap a v s = s.writeRam k v)
    ∧ (∀ k, region a = .ppu k →
      readFixedMap a s = (s.afterReg k false 0x00).respond s.regAnswer .ok
      ∧ writeFixedMap a v s = s.afterReg k true v)
    ∧ (region a = .unmapped →
      readFixedMap a s = s.afterDraw.respond s.drawn .ok ∧ writeFixedMap a v s = s))

/-- R114: where the cartridge hijacks, the fixed map does not run: RAM is not written, no register is called, and the
result of a read is the cartridge's value. -/
def Obligations.HijackStopsTheFixedMap : Prop :=
  ∀ (s t : State) (a : Addr) (v vc : Byte),
    (s.readAnswer = (vc, true) → exec (.rd a) s = .next t →
      t.ram = s.ram ∧ t.trace = s.trace ++ [.cartRead a vc true, .response vc .ok])
    ∧ (s.writeAnswer = true → exec (.wr a v) s = .next t →
      t.ram = s.ram ∧ t.trace = s.trace ++ [.cartWrite a v true, .response 0x00 .ok])

/-- R116: every access makes exactly one offer, first of all, with the full address and the value, whatever the
address and whatever the cartridge answered before. -/
def Obligations.EveryAccessIsOfferedOnce : Prop :=
  ∀ (s : State) (a : Addr) (v : Byte), s.life = .ready →
    (∃ t vc h es, exec (.rd a) s = .next t ∧ t.trace = s.trace ++ .cartRead a vc h :: es
      ∧ countEvents Event.isOffer es = 0 ∧ countEvents Event.isReg es ≤ 1)
    ∧ (∃ t h es, exec (.wr a v) s = .next t ∧ t.trace = s.trace ++ .cartWrite a v h :: es
      ∧ countEvents Event.isOffer es = 0 ∧ countEvents Event.isReg es ≤ 1)

/-- R117: for every address, value and answer of the devices RD and WR complete in a sound state. -/
def Obligations.AccessesAreTotal : Prop :=
  ∀ (s : State) (a : Addr) (v : Byte) (answers : Answers), s.inv = true → s.life = .ready →
    (∃ t, exec (.rd a) { s with answers := answers } = .next t ∧ t.inv = true)
    ∧ (∃ t, exec (.wr a v) { s with answers := answers } = .next t ∧ t.inv = true)

/-- R115: WR then RD through any alias gives the value written, if the cartridge passes both accesses and nothing
between them writes that RAM byte (no passed WR to its index, and, in another session, no zero-fill of INIT); other
operations may stand between. `a XOR 0x0800` is an alias. -/
def Obligations.WriteIsReadThroughEveryMirror : Prop :=
  (∀ a : Addr, a.toNat ≤ 0x1FFF →
    (a ^^^ 0x0800).toNat ≤ 0x1FFF ∧ (a ^^^ 0x0800).toNat % 0x0800 = a.toNat % 0x0800)
  ∧ ∀ (s s₁ s₂ : State) (a a' : Addr) (v : Byte) (n : Nat) (es : List Event),
    s.inv = true → a.toNat ≤ 0x1FFF → a'.toNat ≤ 0x1FFF → a.toNat % 0x0800 = a'.toNat % 0x0800 →
    s.writeAnswer = false → exec (.wr a v) s = .next s₁ →
    runSteps n s₁ = .next s₂ → s₂.trace = s₁.trace ++ es →
    (∀ e ∈ es, e.writesRam (BitVec.ofNat 11 (a.toNat % 0x0800)) = false) →
    s₂.life = .ready → s₂.readAnswer.2 = false →
    ∃ t vc, exec (.rd a') s₂ = .next t ∧ t.trace = s₂.trace ++ [.cartRead a' vc false, .response v .ok]

/-- R55: an unmapped read that the cartridge passes gives a free byte, fresh at each read: the next one is another
draw. -/
def Obligations.UnmappedReadsDrawFreshValues : Prop :=
  ∀ (s : State) (a b : Addr) (vc vc' : Byte) (xs : List (Byte × Bool)), s.life = .ready →
    0x4000 ≤ a.toNat → 0x4000 ≤ b.toNat → s.answers.cartRead = (vc, false) :: (vc', false) :: xs →
    ∃ t u, exec (.rd a) s = .next t ∧ exec (.rd b) t = .next u
      ∧ t.trace = s.trace ++ [.cartRead a vc false, .response (Config.freeByte s.draws) .ok]
      ∧ u.trace = t.trace ++ [.cartRead b vc' false, .response (Config.freeByte (s.draws + 1)) .ok]

/-! ### TICK -/

/-- TICK up to the call of `PpuStep` (R130): the counter goes on by one and wraps, `ctx` is IN_PPU, nothing else
changes. -/
def Obligations.TickCallsThePictureUnit : Prop :=
  ∀ s : State, s.life = .ready → s.ctx = .host →
    exec .tick s = .next { s with
      mcc := (s.mcc + 1) % 2 ^ s.cfg.cw, ctx := .inPpu s.mcc, trace := s.trace ++ [.ppuStep] }

/-- What the return of a step does (R130, R131): after `PpuStep`, `CpuStep` is called if and only if the
pre-increment counter mod 3 is PHASE, and otherwise TICK completes; after `CpuStep` TICK completes. -/
def Obligations.StepReturnsTakeTheTickOn : Prop :=
  ∀ (s : State) (rest : List Input), s.inbox = .stepReturns :: rest →
    (∀ c, s.ctx = .inPpu c → c % 3 = s.cfg.phase.val →
      step s = .next { s with inbox := rest, ctx := .inCpu, trace := s.trace ++ [.returned, .cpuStep] })
    ∧ (∀ c, s.ctx = .inPpu c → c % 3 ≠ s.cfg.phase.val →
      step s = .next { s with
        inbox := rest, ctx := .host, trace := s.trace ++ [.returned, .response 0x00 .ok] })
    ∧ (s.ctx = .inCpu →
      step s = .next { s with
        inbox := rest, ctx := .host, trace := s.trace ++ [.returned, .response 0x00 .ok] })

/-- R130, whole: the flat model, given a TICK and any accesses of the two steps, does what the pseudocode of R130
does with them; elsewhere TICK is refused; its word. -/
def Obligations.TickEqualsItsPseudocode : Prop :=
  encode .tick = 0x60000000
  ∧ (∀ s : State, s.life ≠ .ready ∨ s.ctx ≠ .host → ∃ r, exec .tick s = .refused r)
  ∧ ∀ (s : State) (ppu cpu : List Access) (rest : List Input), s.life = .ready → s.ctx = .host →
    s.inbox = tickInputs s.cfg s.mcc ppu cpu ++ rest →
    runSteps (tickInputs s.cfg s.mcc ppu cpu).length s
      = .next { tickWhole ppu cpu (s.emit [.command (encode .tick)]) with inbox := rest }

/-- In any run inside a session, whatever the devices do and however the counter wraps: one `PpuStep` for each TICK,
one `CpuStep` for each TICK whose pre-increment counter mod 3 is PHASE, and the counter moves by the TICKs (R130,
R131, R135). -/
def Obligations.ProcessorStepsFollowTheCounter : Prop :=
  ∀ (n : Nat) (s t : State), s.inv = true → s.ctx = .host → t.ctx = .host →
    (∀ x ∈ s.inbox, x.restarts = false) → runSteps n s = .next t →
    ∃ es, t.trace = s.trace ++ es
      ∧ countEvents Event.isPpuStep es = countEvents Event.isTick es
      ∧ countEvents Event.isCpuStep es = steppingTicks s.cfg s.mcc (countEvents Event.isTick es)
      ∧ t.mcc = (s.mcc + countEvents Event.isTick es) % 2 ^ s.cfg.cw

/-- R133: with no wrap inside the run, `n` TICKs give `floor((n + 2 - j0) / 3)` processor steps, `j0 = (PHASE - c0)
mod 3`, in the three cases the rule spells out; `3k` TICKs give `k`; 3000 give 1000. -/
def Obligations.CadenceIsOneStepInThree : Prop :=
  ∀ (n : Nat) (s t : State) (es : List Event), s.inv = true → s.ctx = .host → t.ctx = .host →
    (∀ x ∈ s.inbox, x.restarts = false) → runSteps n s = .next t → t.trace = s.trace ++ es →
    let ticks := countEvents Event.isTick es
    let j0 := (s.cfg.phase.val + 3 - s.mcc % 3) % 3
    s.mcc + ticks ≤ 2 ^ s.cfg.cw →
    countEvents Event.isCpuStep es = (ticks + 2 - j0) / 3
    ∧ (j0 = 0 → countEvents Event.isCpuStep es = (ticks + 2) / 3)
    ∧ (j0 = 1 → countEvents Event.isCpuStep es = (ticks + 1) / 3)
    ∧ (j0 = 2 → countEvents Event.isCpuStep es = ticks / 3)
    ∧ (∀ k, ticks = 3 * k →
        countEvents Event.isCpuStep es = k ∧ countEvents Event.isPpuStep es = 3 * k)
    ∧ (ticks = 3000 →
        countEvents Event.isCpuStep es = 1000 ∧ countEvents Event.isPpuStep es = 3000)

/-- R134: the residues slip at the wrap. `2^CW mod 3` is 1 for even `CW` and 2 for odd `CW`; the last stepping counter
before the wrap, the first after it, and the interval between them, as the rule's table has them. -/
def Obligations.WrapSlipsByTheTable : Prop :=
  (∀ cw : Nat, 2 ^ cw % 3 = if cw % 2 = 0 then 1 else 2)
  ∧ Config.defaults.cw = 32 ∧ Config.defaults.mccInit + 4294967296 = 2 ^ Config.defaults.cw
  ∧ ∀ cfg : Config, cfg.wf = true →
    let m := 2 ^ cfg.cw
    let phase := cfg.phase.val
    let last := if cfg.cw % 2 = 0
      then (if phase = 0 then m - 1 else if phase = 1 then m - 3 else m - 2)
      else (if phase = 0 then m - 2 else if phase = 1 then m - 1 else m - 3)
    let interval := if cfg.cw % 2 = 0
      then (if phase = 0 then 1 else 4)
      else (if phase = 2 then 5 else 2)
    last < m
    ∧ stepEnable cfg last = true ∧ (∀ c, last < c → c < m → stepEnable cfg c = false)
    ∧ stepEnable cfg phase = true ∧ (∀ c, c < phase → stepEnable cfg c = false)
    ∧ phase < m ∧ (last + interval) % m = phase

/-- R92, R130, R131: `TICKN n` runs to its end from every sound state of a session, makes `n` TICKs, and steps the
processor as often as the counter says. The `3 * n` steps rest on log 10 (DEDUCED): each TICK is written with two returns, and a
return that comes at `ctx = HOST` is taken and ignored. -/
def Obligations.TickNRunsToItsEnd : Prop :=
  ∀ (n : Nat) (s : State), s.inv = true → s.life = .ready → s.ctx = .host →
    s.inbox = TraceOp.inputs (.tickN n) →
    ∃ t es, runSteps (3 * n) s = .next t ∧ t.inbox = [] ∧ t.ctx = .host ∧ t.life = .ready ∧ t.ram = s.ram
      ∧ t.trace = s.trace ++ es
      ∧ countEvents Event.isCommand es = n ∧ countEvents Event.isTick es = n
      ∧ countEvents Event.isPpuStep es = n
      ∧ countEvents Event.isCpuStep es = steppingTicks s.cfg s.mcc n
      ∧ t.mcc = (s.mcc + n) % 2 ^ s.cfg.cw

/-- R137: only TICK calls `PpuStep` (and the return of a TICK's picture step calls `CpuStep`); no other operation and
no other input calls either. -/
def Obligations.OnlyTickDrivesTheSteps : Prop :=
  (∀ (i : Instr) (s t : State), exec i s = .next t → ∃ es, t.trace = s.trace ++ es
    ∧ countEvents Event.isCpuStep es = 0
    ∧ countEvents Event.isPpuStep es = if i = .tick then 1 else 0)
  ∧ (∀ s t : State, step s = .next t → ∃ es, t.trace = s.trace ++ es
    ∧ (.ppuStep ∈ es → ∃ w rest, s.inbox = .command w :: rest ∧ decode w = some .tick)
    ∧ (.cpuStep ∈ es → (∃ c, s.ctx = .inPpu c) ∧ ∃ rest, s.inbox = .stepReturns :: rest))

/-- R136: the counter never enters an access: with another counter value, RD and WR make the same calls, give the same
result and leave the same RAM. -/
def Obligations.CounterNeverReachesAnAccess : Prop :=
  ∀ (s t : State) (i : Instr) (m : Nat), ((∃ a, i = .rd a) ∨ (∃ a v, i = .wr a v)) →
    exec i s = .next t → exec i { s with mcc := m } = .next { t with mcc := m }

/-! ### INIT and SHUT -/

/-- R150: INIT in either outcome. RAM reads 0x00 everywhere, `mcc` is MCC_INIT, the selector goes to `CartInsert`
unchanged; on ok `CpuInit` is called, `life` is READY and the status `ST_OK`; on fail the status is `ST_LOAD_ERR` and
`life` stays OFF. Elsewhere INIT is refused. -/
def Obligations.InitClearsInsertsAndStarts : Prop :=
  ∀ (s : State) (sel : Selector),
    (encode (.init sel)).toNat = 0x20000000 + sel.toNat
    ∧ (s.life ≠ .off ∨ s.ctx ≠ .host → ∃ r, exec (.init sel) s = .refused r)
    ∧ (s.life = .off → s.ctx = .host → ∃ (ok : Bool) (t : State), exec (.init sel) s = .next t
        ∧ (∀ x xs, s.answers.cartInsert = x :: xs → x = ok)
        ∧ (∀ k, Memory.read t.ram k = 0x00) ∧ t.mcc = s.cfg.mccInit
        ∧ t.cfg = s.cfg ∧ t.ctx = .host ∧ t.inbox = s.inbox ∧ t.cartRef = ok
        ∧ (ok = true → t.life = .ready
            ∧ t.trace = s.trace ++ [.cartInsert sel true, .cpuInit, .response 0x00 .ok])
        ∧ (ok = false → t.life = .off
            ∧ t.trace = s.trace ++ [.cartInsert sel false, .response 0x00 .loadErr]))

/-- R151: after a failed INIT, RAM is all 0x00, `mcc` is MCC_INIT, `life` is OFF, `CpuInit` was not called; RD, WR, TICK
(and SHUT) are refused; a further INIT with any selector is admitted. -/
def Obligations.FailedInitLeavesOnlyInit : Prop :=
  ∀ (s t : State) (sel : Selector), exec (.init sel) s = .next t → s.insertAnswer = false →
    (∀ k, Memory.read t.ram k = 0x00) ∧ t.mcc = s.cfg.mccInit ∧ t.life = .off
    ∧ (∃ es, t.trace = s.trace ++ es ∧ .cpuInit ∉ es)
    ∧ (∀ a, exec (.rd a) t = .refused .notReady) ∧ (∀ a v, exec (.wr a v) t = .refused .notReady)
    ∧ exec .tick t = .refused .notReady ∧ exec .shut t = .refused .notReady
    ∧ (∀ sel', ∃ u, exec (.init sel') t = .next u)

/-- R152: SHUT calls `CartRemove`, makes `life` OFF with either answer, leaves `ram` and `mcc`, and answers `ST_OK` or
`ST_UNLOAD_ERR`; a second SHUT is refused; elsewhere SHUT is refused. -/
def Obligations.ShutEndsTheSessionOnce : Prop :=
  encode .shut = 0x40000000
  ∧ ∀ s : State,
    (s.life ≠ .ready ∨ s.ctx ≠ .host → ∃ r, exec .shut s = .refused r)
    ∧ (s.life = .ready → s.ctx = .host → ∃ (ok : Bool) (t : State), exec .shut s = .next t
        ∧ (∀ x xs, s.answers.cartRemove = x :: xs → x = ok)
        ∧ t.life = .off ∧ t.cartRef = false ∧ t.ram = s.ram ∧ t.mcc = s.mcc ∧ t.cfg = s.cfg
        ∧ t.ctx = .host ∧ t.inbox = s.inbox
        ∧ t.trace = s.trace ++ [.cartRemove ok, .response 0x00 (if ok = true then .ok else .unloadErr)]
        ∧ exec .shut t = .refused .notReady)

/-- R153: the operations admitted in each `life` and `ctx`, and everything else refused; a reserved word is answered in
all of them. -/
def Obligations.LifecycleAdmitsExactlyTheTable : Prop :=
  (∀ (i : Instr) (s : State),
    let admitted : Prop :=
      (s.life = .off ∧ s.ctx = .host ∧ ∃ sel, i = .init sel)
      ∨ (s.life = .ready ∧ s.ctx = .host ∧ ((∃ a, i = .rd a) ∨ (∃ a v, i = .wr a v) ∨ i = .tick ∨ i = .shut))
      ∨ (s.life = .ready ∧ s.ctx ≠ .host ∧ ((∃ a, i = .rd a) ∨ (∃ a v, i = .wr a v)))
    (admitted → ∃ t, exec i s = .next t) ∧ (¬ admitted → ∃ r, exec i s = .refused r))
  ∧ (∀ (s : State) (w : Cmd) (rest : List Input), decode w = none → s.inbox = .command w :: rest →
    ∃ t, step s = .next t ∧ t.trace = s.trace ++ [.command w, .response 0x00 .illegal])

/-- R221: an operation runs exactly when the table of rights lets the active agent issue it; the cartridge adapter may
issue nothing. -/
def Obligations.RightsDecideWhatRuns : Prop :=
  (∀ (i : Instr) (s : State), (∃ t, exec i s = .next t) ↔ mayIssue (activeAgent s) i s = true)
  ∧ ∀ (g : Agent) (i : Instr) (s : State), mayIssue g i s = true → g = activeAgent s ∧ g ≠ .cartridge

/-- R154: nothing of an earlier session survives a fresh INIT: after INIT two blocks that differed in `ram` and `mcc`
are the same; and after SHUT or a failed INIT a new INIT is admitted. -/
def Obligations.NothingSurvivesAFreshInit : Prop :=
  (∀ (s t : State) (sel : Selector) (ram : Memory) (mcc : Nat) (ref : Bool), exec (.init sel) s = .next t →
    exec (.init sel) { s with ram := ram, mcc := mcc, cartRef := ref } = .next t)
  ∧ (∀ (s t : State) (sel : Selector), exec .shut s = .next t → ∃ u, exec (.init sel) t = .next u)
  ∧ (∀ (s t : State) (sel sel' : Selector), exec (.init sel) s = .next t → t.life = .off →
    ∃ u, exec (.init sel') t = .next u)

/-! ### Whole-machine rules -/

/-- R34: what may change what. RAM changes only by INIT or by a WR in the RAM window, and then in one byte; the counter
only by TICK and INIT; `life` and the cartridge reference only by INIT, SHUT and power-on; `ctx` only by TICK, the
return of a step and power-on; the parameters never. RD changes none of them. -/
def Obligations.StateChangesOnlyByItsOwnOperations : Prop :=
  ∀ s t : State, step s = .next t →
    t.cfg = s.cfg
    ∧ (t.ram ≠ s.ram → ∃ w rest, s.inbox = .command w :: rest
        ∧ ((∃ sel, decode w = some (.init sel))
          ∨ ∃ a v, decode w = some (.wr a v) ∧ a.toNat ≤ 0x1FFF
            ∧ ∀ k, k ≠ a.toNat % 0x0800 → Memory.read t.ram k = Memory.read s.ram k))
    ∧ (t.mcc ≠ s.mcc → ∃ w rest, s.inbox = .command w :: rest
        ∧ (decode w = some .tick ∨ ∃ sel, decode w = some (.init sel)))
    ∧ (t.life ≠ s.life → (∃ rest, s.inbox = .powerOn :: rest) ∨ ∃ w rest, s.inbox = .command w :: rest
        ∧ (decode w = some .shut ∨ ∃ sel, decode w = some (.init sel)))
    ∧ (t.cartRef ≠ s.cartRef → (∃ rest, s.inbox = .powerOn :: rest) ∨ ∃ w rest, s.inbox = .command w :: rest
        ∧ (decode w = some .shut ∨ ∃ sel, decode w = some (.init sel)))
    ∧ (t.ctx ≠ s.ctx → (∃ rest, s.inbox = .powerOn :: rest) ∨ (∃ rest, s.inbox = .stepReturns :: rest)
        ∨ ∃ w rest, s.inbox = .command w :: rest ∧ decode w = some .tick)

/-- R65: in any run, every RAM byte is what the record says: 0x00 from the latest INIT on, then the latest WR that
reached it through any alias; and a RD that the cartridge passes returns it. -/
def Obligations.RamReadReturnsTheLatestWrite : Prop :=
  ∀ (n : Nat) (s t : State), s.inv = true → runSteps n s = .next t →
    ∃ es, t.trace = s.trace ++ es
      ∧ (∀ i, t.readRam i = ramOfTrace i (s.readRam i) es)
      ∧ (∀ a i, region a = .ram i → t.life = .ready → t.readAnswer.2 = false →
          ∃ u vc, exec (.rd a) t = .next u
            ∧ u.trace = t.trace ++ [.cartRead a vc false, .response (ramOfTrace i (s.readRam i) es) .ok])

/-- R21, R222: in any run the counter is what the record says: MCC_INIT from the latest INIT on, plus one for each
`PpuStep`, that is for each TICK, wrapping at `2^CW`. -/
def Obligations.CounterIsTheTicksSinceInit : Prop :=
  ∀ (n : Nat) (s t : State), runSteps n s = .next t →
    ∃ es, t.trace = s.trace ++ es ∧ t.mcc = mccOfTrace s.cfg s.mcc es

/-- R110: RD and WR are served alike whoever issues them: with another `ctx` the same operation makes the same calls
and gives the same result. -/
def Obligations.AccessesServeAllIssuersAlike : Prop :=
  ∀ (s t : State) (i : Instr) (c : Ctx), ((∃ a, i = .rd a) ∨ (∃ a v, i = .wr a v)) →
    exec i s = .next t → exec i { s with ctx := c } = .next { t with ctx := c }

/-- R240, R35: nothing of the power-on contents of `ram` and `mcc` can be observed: from any two OFF states that differ
only there, every run makes the same calls and gives the same responses, and stops alike. -/
def Obligations.PowerOnContentsAreUnobservable : Prop :=
  ∀ (n : Nat) (s : State) (ram : Memory) (mcc : Nat), s.life = .off → s.ctx = .host →
    (∀ f, runSteps n s = .fault f → runSteps n { s with ram := ram, mcc := mcc } = .fault f)
    ∧ (∀ r, runSteps n s = .refused r → runSteps n { s with ram := ram, mcc := mcc } = .refused r)
    ∧ (∀ t, runSteps n s = .next t → ∃ u, runSteps n { s with ram := ram, mcc := mcc } = .next u
        ∧ u.trace = t.trace ∧ u.life = t.life ∧ u.ctx = t.ctx
        ∧ (t.life = .ready → u = t))

/-- Every step keeps a sound state sound (R20, R21, R24, R31, R35): parameters in range, RAM in canonical form, the
counter in its width, the cartridge reference present iff READY, and `ctx` in agreement with `life`, the counter and
PHASE. -/
def Obligations.StepKeepsTheStateSound : Prop :=
  ∀ s t : State, s.inv = true → step s = .next t → t.inv = true

/-- R35, R240: power-on leaves `life = OFF`, `ctx = HOST` and no cartridge, and that state is sound. (`ram`, `mcc` and
the parameters there are the model's choice: log 2, 3, 4.) -/
def Obligations.PowerOnStateIsSound : Prop :=
  State.reset.life = .off ∧ State.reset.ctx = .host ∧ State.reset.cartRef = false ∧ State.reset.inv = true

/-- R213: the codes. Zero is success and every failure is non-zero; codes 4 to 7 are never produced. -/
def Obligations.StatusCodesAreTheTable : Prop :=
  Status.code .ok = 0 ∧ Status.code .loadErr = 1 ∧ Status.code .unloadErr = 2 ∧ Status.code .illegal = 3
  ∧ (∀ st : Status, st.code = 0 ↔ st = .ok) ∧ (∀ st : Status, st.code.toNat < 4)

/-- R214, R217: in any step, the statuses an operation can answer: INIT `ST_OK` or `ST_LOAD_ERR`, SHUT `ST_OK` or
`ST_UNLOAD_ERR`, RD, WR and TICK only `ST_OK`, a reserved word only `ST_ILLEGAL`; at most one response a step; data
other than 0x00 only from RD (R89). -/
def Obligations.ResponsesCarryTheirOwnStatuses : Prop :=
  ∀ s t : State, step s = .next t → ∃ es, t.trace = s.trace ++ es ∧ countEvents Event.isResponse es ≤ 1
    ∧ ∀ d st, Event.response d st ∈ es →
      (∃ rest, s.inbox = .stepReturns :: rest ∧ st = .ok ∧ d = 0x00)
      ∨ ∃ w rest, s.inbox = .command w :: rest
        ∧ ((decode w = none ∧ st = .illegal ∧ d = 0x00)
          ∨ (∃ sel, decode w = some (.init sel) ∧ (st = .ok ∨ st = .loadErr) ∧ d = 0x00)
          ∨ (decode w = some .shut ∧ (st = .ok ∨ st = .unloadErr) ∧ d = 0x00)
          ∨ (∃ a, decode w = some (.rd a) ∧ st = .ok)
          ∨ (∃ a v, decode w = some (.wr a v) ∧ st = .ok ∧ d = 0x00))

/-- R89, R192: every accepted command gets exactly one response: in any run without power-on, the commands outrun the
responses by one while a TICK is in progress, and by none otherwise. -/
def Obligations.EveryCommandGetsOneResponse : Prop :=
  ∀ (n : Nat) (s t : State), s.ctx = .host → .powerOn ∉ s.inbox → runSteps n s = .next t →
    ∃ es, t.trace = s.trace ++ es
      ∧ countEvents Event.isCommand es
        = countEvents Event.isResponse es + (if t.ctx = .host then 0 else 1)

/-! ### Pin level -/

/-- R203: a pin-level run from a quiet block, of any timing, with devices that keep their protocol (no fault) and no
refused command (the block still works at the end), is a run of the operation level: take the recorded commands and
returns in order as its inputs and the recorded answers as its answers, and it ends in the very same state, with the
same record. (A run between two power-ons: `por` is 0 throughout.) -/
def Obligations.PinRunIsARunOfTheOperationLevel : Prop :=
  ∀ (s : State) (ins : List PinIn) (p : PinState), s.ctx = .host → s.inbox = [] → s.answers = Answers.none →
    (∀ i ∈ ins, i.por = false) → pinRun (PinState.quietAt s) ins = .next p → p.quiet = true →
    ∃ es, p.blk.trace = s.trace ++ es
      ∧ runSteps (inputsOf es).length { s with inbox := inputsOf es, answers := answersOf es } = .next p.blk

/-- Every edge keeps the pin level sound, from power-on on: the block's own state is sound (R20, R24), a TICK is in
progress iff `ctx` is not HOST (R31, R198), no other job runs while a step call is being made (R191), and a job runs
only in the `life` its operation is admitted in (R153). After a refused command only the bounds are kept (R202). -/
def Obligations.PinCycleKeepsTheStateSound : Prop :=
  PinState.reset.inv = true
  ∧ ∀ (p q : PinState) (i : PinIn), p.inv = true → pinCycle p i = .next q → q.inv = true

/-- R191: `cmd_ready` is 1 exactly when nothing but a TICK waiting for its step is in progress; a command is accepted
exactly at an edge with `cmd_valid = 1` and `cmd_ready = 1`, and at most one is. (That an operation is still in progress
in the cycle of its own response is the model's choice: log 25.) -/
def Obligations.PinAcceptsWhenReady : Prop :=
  ∀ (p q : PinState) (i : PinIn), p.mode = .running → i.por = false → pinCycle p i = .next q →
    ((pinOut p).cmdReady = true ↔ p.job = .none ∧ (p.tick = none ∨ p.tick = some .wait))
    ∧ ∃ es, q.blk.trace = p.blk.trace ++ es
      ∧ (i.cmdValid = true → (pinOut p).cmdReady = true →
          ∃ rest, es = .command i.cmd :: rest ∧ countEvents Event.isCommand rest = 0)
      ∧ (i.cmdValid = false ∨ (pinOut p).cmdReady = false → countEvents Event.isCommand es = 0)

/-- R192: a response is on the port in the one cycle that follows the edge that records it, with its data and its
status, and in no other cycle; with `rsp_valid = 0` the other two are 0. -/
def Obligations.PinResponseLastsOneCycle : Prop :=
  ∀ (p q : PinState) (i : PinIn), p.mode = .running → i.por = false → pinCycle p i = .next q →
    q.mode = .running →
    ((pinOut q).rspValid = false → (pinOut q).rspData = 0 ∧ (pinOut q).rspStatus = 0)
    ∧ ((pinOut q).rspValid = true → ∃ es d st, q.blk.trace = p.blk.trace ++ es
        ∧ .response d st ∈ es ∧ countEvents Event.isResponse es = 1
        ∧ (pinOut q).rspData = d ∧ (pinOut q).rspStatus = st.code)
    ∧ ((pinOut q).rspValid = false → ∃ es, q.blk.trace = p.blk.trace ++ es
        ∧ countEvents Event.isResponse es = 0)

/-- R193: the cartridge call. Its operation code and operands, those it does not use 0; all held until the first edge
with `cart_ack = 1`; what is sampled there; `cart_req` is 0 in the next cycle; `cart_ack` without a request and inputs
the call does not use are ignored. -/
def Obligations.PinCartridgeHandshake : Prop :=
  ∀ (p : PinState) (i : PinIn), p.mode = .running → i.por = false →
    ((pinOut p).cartReq = false → ∀ b, pinCycle p { i with cartAck := b } = pinCycle p i)
    ∧ ∀ c, p.job = .cart c true →
      (pinOut p).cartReq = true
      ∧ (∀ a, c = .read a → (pinOut p).cartOp = 0 ∧ (pinOut p).cartAddr = a ∧ (pinOut p).cartWdata = 0
          ∧ (pinOut p).cartSel = 0 ∧ ∀ b, pinCycle p { i with cartFail := b } = pinCycle p i)
      ∧ (∀ a v, c = .write a v → (pinOut p).cartOp = 1 ∧ (pinOut p).cartAddr = a ∧ (pinOut p).cartWdata = v
          ∧ (pinOut p).cartSel = 0
          ∧ ∀ b d, pinCycle p { i with cartFail := b, cartRdata := d } = pinCycle p i)
      ∧ (∀ sel, c = .insert sel → (pinOut p).cartOp = 2 ∧ (pinOut p).cartAddr = 0 ∧ (pinOut p).cartWdata = 0
          ∧ (pinOut p).cartSel = sel
          ∧ ∀ b d, pinCycle p { i with cartHijack := b, cartRdata := d } = pinCycle p i)
      ∧ (c = .remove → (pinOut p).cartOp = 3 ∧ (pinOut p).cartAddr = 0 ∧ (pinOut p).cartWdata = 0
          ∧ (pinOut p).cartSel = 0
          ∧ ∀ b d, pinCycle p { i with cartHijack := b, cartRdata := d } = pinCycle p i)
      ∧ ∀ q, pinCycle p i = .next q →
        (i.cartAck = false →
          (pinOut q).cartReq = true ∧ (pinOut q).cartOp = (pinOut p).cartOp
          ∧ (pinOut q).cartAddr = (pinOut p).cartAddr ∧ (pinOut q).cartWdata = (pinOut p).cartWdata
          ∧ (pinOut q).cartSel = (pinOut p).cartSel)
        ∧ (i.cartAck = true →
          (pinOut q).cartReq = false
          ∧ ∃ es, q.blk.trace = p.blk.trace ++ (match c with
            | .read a => .cartRead a i.cartRdata i.cartHijack
            | .write a v => .cartWrite a v i.cartHijack
            | .insert sel => .cartInsert sel (!i.cartFail)
            | .remove => .cartRemove (!i.cartFail)) :: es)

/-- R194: the picture-register call. Its operands held until the first edge with `ppu_reg_ack = 1`; on a read the
sampled value is the response; `ppu_reg_req` is 0 in the next cycle; `ppu_reg_ack` without a request is ignored. The
write data of a read is 0x00. -/
def Obligations.PinRegisterHandshake : Prop :=
  ∀ (p : PinState) (i : PinIn), p.mode = .running → i.por = false →
    ((pinOut p).ppuRegReq = false → ∀ b, pinCycle p { i with ppuRegAck := b } = pinCycle p i)
    ∧ (∀ a k, region a = .ppu k → (p.readMap a).job = .reg k false 0x00 false)
    ∧ ∀ k w v, p.job = .reg k w v true →
      (pinOut p).ppuRegReq = true ∧ (pinOut p).ppuRegWe = w ∧ (pinOut p).ppuRegIdx = k
      ∧ (pinOut p).ppuRegWdata = v
      ∧ ∀ q, pinCycle p i = .next q →
        (i.ppuRegAck = false →
          (pinOut q).ppuRegReq = true ∧ (pinOut q).ppuRegWe = w ∧ (pinOut q).ppuRegIdx = k
          ∧ (pinOut q).ppuRegWdata = v)
        ∧ (i.ppuRegAck = true →
          (pinOut q).ppuRegReq = false
          ∧ (∃ b, q.job = .respond (if w = true then 0x00 else i.ppuRegRdata) .ok b))

/-- R195: `ppu_step`, `cpu_step` and `cpu_init` are pulses of one cycle; while `cpu_init_done` is awaited no command is
accepted; a device that asserts its `*_done` with an access of its own still unanswered breaks the protocol; one that
asserts it while a reserved-word response is in progress, or at the edge that accepts a reserved word, does not: the
`*_done` is taken, and the step returns at the edge that ends the response's cycle (that order is log 18). -/
def Obligations.PinPulsesLastOneCycle : Prop :=
  ∀ (p : PinState) (i : PinIn), p.mode = .running → i.por = false →
    (∀ q, pinCycle p i = .next q → q.mode = .running →
      ((pinOut p).ppuStep = true ∨ (pinOut p).cpuStep = true →
        (pinOut q).ppuStep = false ∧ (pinOut q).cpuStep = false)
      ∧ ((pinOut p).cpuInit = true → (pinOut q).cpuInit = false))
    ∧ (∀ u, p.job = .cpuInit u → (pinOut p).cmdReady = false)
    ∧ (p.tick = some .wait → p.stepDone i = true → (∃ c, p.job = .cart c true) → i.cartAck = false →
        pinCycle p i = .fault .doneDuringAccess)
    ∧ (p.tick = some .wait → p.stepDone i = true →
        (∃ d, p.job = .respond d .illegal false)
          ∨ ((pinOut p).cmdReady = true ∧ i.cmdValid = true ∧ decode i.cmd = none) →
        ∃ q, pinCycle p i = .next q ∧ q.tick = some .done ∧ (pinOut q).cmdReady = false)
    ∧ (p.tick = some .done → p.blk.ctx ≠ .host → (∃ d, p.job = .respond d .illegal true) →
        ∃ q es, pinCycle p i = .next q ∧ q.blk.trace = p.blk.trace ++ .returned :: es ∧ q.tick ≠ some .done)

/-- R202: an edge with `por = 1`, in any state, makes every output 0, `life` OFF and `ctx` HOST and drops what was in
progress, and clears neither `ram` nor `mcc`; after `por` the block takes commands. (That the outputs are 0
from the edge on that samples `por`, and that `cmd_ready` is 1 after the first edge with `por = 0`, is the model's
choice: log 20.) -/
def Obligations.PinPowerOnDrivesZero : Prop :=
  ∀ (p : PinState) (i j : PinIn), i.por = true → j.por = false → ∃ q r,
    pinCycle p i = .next q ∧ pinOut q = PinOut.zero
    ∧ q.blk.life = .off ∧ q.blk.ctx = .host ∧ q.blk.ram = p.blk.ram ∧ q.blk.mcc = p.blk.mcc
    ∧ pinCycle q j = .next r ∧ r.mode = .running ∧ (pinOut r).cmdReady = true ∧ r.blk = q.blk

/-- R202, U12: after a well-formed command outside its precondition the outputs and the block's state are unspecified
until `por`: free values (log 19), others in every cycle, however many edges with `por = 0` come, and no command is recorded. -/
def Obligations.PinRefusedCommandLeavesOutputsFree : Prop :=
  ∀ (p : PinState) (i : PinIn) (js : List PinIn) (op : Instr) (r : Refusal), p.mode = .running → i.por = false →
    (∀ j ∈ js, j.por = false) →
    i.cmdValid = true → (pinOut p).cmdReady = true → decode i.cmd = some op → exec op p.blk = .refused r →
    ∃ q u, pinCycle p i = .next q ∧ pinOut q = PinOut.free q.cycle
      ∧ q.blk = (p.blk.emit [.command i.cmd]).scrambled p.cycle
      ∧ pinRun q js = .next u ∧ u.mode = .unspecified
      ∧ u.blk = (p.blk.emit [.command i.cmd]).scrambled (p.cycle + js.length)
      ∧ u.cycle = q.cycle + js.length ∧ pinOut u = PinOut.free u.cycle

/-- R201: a reserved word at pin level is answered with data 0x00 and `ST_ILLEGAL`; no request and no pulse is driven,
and nothing of the block changes but the record. A `*_done` at the same edge is taken (R195; log 18). -/
def Obligations.PinReservedWordIsAnswered : Prop :=
  ∀ (p q : PinState) (i : PinIn), p.mode = .running → i.por = false → i.cmdValid = true →
    (pinOut p).cmdReady = true → decode i.cmd = none → pinCycle p i = .next q →
    (∃ b, q.job = .respond 0x00 .illegal b) 
    ∧ q.tick = (if p.tick = some .wait ∧ p.stepDone i = true then some .done else p.tick) ∧ q.mode = .running
    ∧ (pinOut q).cartReq = false ∧ (pinOut q).ppuRegReq = false ∧ (pinOut q).ppuStep = false
    ∧ (pinOut q).cpuStep = false ∧ (pinOut q).cpuInit = false
    ∧ (∃ tr, q.blk = { p.blk with trace := tr })

/-- R196, R197, R199, R200: with prompt devices and no stall, every admitted operation but TICK is answered within four
edges of its acceptance, exactly once, and leaves the block as the operation level does with the answers sampled. -/
def Obligations.PinOperationsComplete : Prop :=
  ∀ (p : PinState) (i₀ i₁ i₂ i₃ : PinIn) (op : Instr), p.mode = .running → (pinOut p).cmdReady = true →
    decode i₀.cmd = some op → op ≠ .tick → admission op p.blk = none → i₀.cmdValid = true →
    (∀ i ∈ [i₀, i₁, i₂, i₃], i.por = false ∧ i.go = true ∧ i.ppuStepDone = false ∧ i.cpuStepDone = false) →
    (∀ i ∈ [i₁, i₂, i₃], i.cmdValid = false ∧ i.cartAck = true ∧ i.ppuRegAck = true ∧ i.cpuInitDone = true) →
    ∃ q es, pinRun p [i₀, i₁, i₂, i₃] = .next q ∧ q.blk.trace = p.blk.trace ++ .command i₀.cmd :: es
      ∧ countEvents Event.isResponse es = 1
      ∧ exec op { p.blk with answers := answersOf es, trace := p.blk.trace ++ [.command i₀.cmd] }
        = .next { q.blk with answers := Answers.none }

/-- R198: TICK at pin level with prompt devices that make no access: `ppu_step` is pulsed, then, on a processor-clock
edge only and only after `ppu_step_done`, `cpu_step`; then the one response. -/
def Obligations.PinTickPulsesInOrder : Prop :=
  ∀ (p : PinState) (i₀ i₁ i₂ i₃ i₄ : PinIn), p.mode = .running → p.job = .none → p.tick = none →
    decode i₀.cmd = some .tick → admission .tick p.blk = none → i₀.cmdValid = true →
    (∀ i ∈ [i₀, i₁, i₂, i₃, i₄], i.por = false ∧ i.go = true ∧ i.ppuStepDone = true ∧ i.cpuStepDone = true) →
    (∀ i ∈ [i₁, i₂, i₃, i₄], i.cmdValid = false) →
    ∃ q₀ q₂, pinRun p [i₀] = .next q₀ ∧ (pinOut q₀).ppuStep = true ∧ (pinOut q₀).cpuStep = false
      ∧ q₀.blk.mcc = (p.blk.mcc + 1) % 2 ^ p.blk.cfg.cw
      ∧ pinRun p [i₀, i₁, i₂] = .next q₂
      ∧ (p.blk.mcc % 3 ≠ p.blk.cfg.phase.val →
          (pinOut q₂).cpuStep = false ∧ (pinOut q₂).rspValid = true ∧ q₂.blk.ctx = .host
          ∧ q₂.blk.trace = p.blk.trace ++ [.command i₀.cmd, .ppuStep, .returned, .response 0x00 .ok])
      ∧ (p.blk.mcc % 3 = p.blk.cfg.phase.val →
          (pinOut q₂).cpuStep = true ∧ (pinOut q₂).rspValid = false
          ∧ ∃ q₄, pinRun p [i₀, i₁, i₂, i₃, i₄] = .next q₄ ∧ (pinOut q₄).rspValid = true
            ∧ q₄.blk.ctx = .host
            ∧ q₄.blk.trace = p.blk.trace
              ++ [.command i₀.cmd, .ppuStep, .returned, .cpuStep, .returned, .response 0x00 .ok])
end

