-- ==== Sys2Proof/Laws/Memory.lean ====
section
/-! SUPPORT. The laws of RAM: read after write, the canonical form, and that it makes equal memories equal data. -/

namespace Sys2Proof.Machine

@[simp] theorem Memory.read_nil (i : Nat) : Memory.read [] i = 0#8 := rfl

@[simp] theorem Memory.wfFrom_nil (lo : Nat) : Memory.wfFrom lo [] = true := rfl

theorem Memory.wfFrom_cons {lo j : Nat} {b : Byte} {m : Memory} :
    Memory.wfFrom lo ((j, b) :: m) = true
      ↔ lo ≤ j ∧ j < Config.ramSize ∧ b ≠ 0#8 ∧ Memory.wfFrom (j + 1) m = true := by
  simp [Memory.wfFrom, and_assoc]

/-- A lower bound may be lowered. -/
theorem Memory.wfFrom_mono {lo lo' : Nat} {m : Memory} (hl : lo' ≤ lo) (h : Memory.wfFrom lo m = true) :
    Memory.wfFrom lo' m = true := by
  cases m with
  | nil => rfl
  | cons c m =>
    obtain ⟨j, b⟩ := c
    rw [Memory.wfFrom_cons] at h ⊢
    exact ⟨by omega, h.2⟩

/-- Nothing is listed below the lower bound. -/
theorem Memory.read_below {lo i : Nat} {m : Memory} (h : Memory.wfFrom lo m = true) (hi : i < lo) :
    Memory.read m i = 0#8 := by
  induction m generalizing lo with
  | nil => rfl
  | cons c m ih =>
    obtain ⟨j, b⟩ := c
    rw [Memory.wfFrom_cons] at h
    have hj : j ≠ i := by omega
    simp only [Memory.read, hj, if_false]
    exact ih h.2.2.2 (by omega)

/-- A write leaves every other byte alone. -/
theorem Memory.read_write_other {i k : Nat} (hik : i ≠ k) (v : Byte) (m : Memory) :
    Memory.read (Memory.write m i v) k = Memory.read m k := by
  induction m with
  | nil => by_cases hv : v = 0#8 <;> simp [Memory.write, Memory.read, hv, hik]
  | cons c m ih =>
    obtain ⟨j, b⟩ := c
    simp only [Memory.write]
    split
    · split <;> simp [Memory.read, hik]
    · split
      · subst_vars
        split <;> simp [Memory.read, hik]
      · simp only [Memory.read, ih]

/-- A read after a write to the same place gives the value written. -/
theorem Memory.read_write_same {lo i : Nat} (v : Byte) {m : Memory} (h : Memory.wfFrom lo m = true) :
    Memory.read (Memory.write m i v) i = v := by
  induction m generalizing lo with
  | nil =>
    by_cases hv : v = 0#8
    · subst hv; rfl
    · simp [Memory.write, Memory.read, hv]
  | cons c m ih =>
    obtain ⟨j, b⟩ := c
    rw [Memory.wfFrom_cons] at h
    simp only [Memory.write]
    split
    · split
      · subst_vars
        have hj : j ≠ i := by omega
        simp only [Memory.read, hj, if_false]
        exact Memory.read_below h.2.2.2 (by omega)
      · simp [Memory.read]
    · split
      · subst_vars
        split
        · subst_vars; exact Memory.read_below h.2.2.2 (by omega)
        · simp [Memory.read]
      · have hj : j ≠ i := by omega
        simp only [Memory.read, hj, if_false]
        exact ih h.2.2.2

/-- A write keeps the canonical form. -/
theorem Memory.write_wfFrom {lo i : Nat} (hi : lo ≤ i) (hs : i < Config.ramSize) (v : Byte) {m : Memory}
    (h : Memory.wfFrom lo m = true) : Memory.wfFrom lo (Memory.write m i v) = true := by
  induction m generalizing lo with
  | nil =>
    by_cases hv : v = 0#8
    · simp [Memory.write, hv]
    · simp [Memory.write, hv, Memory.wfFrom, hi, hs]
  | cons c m ih =>
    obtain ⟨j, b⟩ := c
    have h' := Memory.wfFrom_cons.mp h
    simp only [Memory.write]
    split
    · split
      · exact h
      · rw [Memory.wfFrom_cons]
        exact ⟨hi, hs, by assumption, Memory.wfFrom_cons.mpr ⟨by omega, h'.2⟩⟩
    · split
      · subst_vars
        split
        · exact Memory.wfFrom_mono (by omega) h'.2.2.2
        · exact Memory.wfFrom_cons.mpr ⟨hi, hs, by assumption, h'.2.2.2⟩
      · exact Memory.wfFrom_cons.mpr ⟨h'.1, h'.2.1, h'.2.2.1, ih (by omega) h'.2.2.2⟩

/-- A write inside `ram` keeps the canonical form. -/
theorem Memory.write_wf {i : Nat} (hs : i < Config.ramSize) (v : Byte) {m : Memory} (h : m.wf = true) :
    (Memory.write m i v).wf = true :=
  Memory.write_wfFrom (Nat.zero_le i) hs v h

/-- An index of 11 bits is inside `ram`. -/
theorem RamIndex.lt_ramSize (i : RamIndex) : i.toNat < Config.ramSize := i.isLt

/-- Two memories in canonical form that read alike from a bound on are the same list. -/
theorem Memory.ext_from {lo : Nat} {m m' : Memory} (h : Memory.wfFrom lo m = true)
    (h' : Memory.wfFrom lo m' = true) (hr : ∀ i, lo ≤ i → Memory.read m i = Memory.read m' i) : m = m' := by
  induction m generalizing lo m' with
  | nil =>
    cases m' with
    | nil => rfl
    | cons c m' =>
      obtain ⟨j, b⟩ := c
      rw [Memory.wfFrom_cons] at h'
      exact absurd (by simpa [Memory.read] using (hr j h'.1).symm) h'.2.2.1
  | cons c m ih =>
    obtain ⟨j, b⟩ := c
    have h1 := Memory.wfFrom_cons.mp h
    cases m' with
    | nil => exact absurd (by simpa [Memory.read] using hr j h1.1) h1.2.2.1
    | cons c' m' =>
      obtain ⟨j', b'⟩ := c'
      have h2 := Memory.wfFrom_cons.mp h'
      have hj : j = j' := by
        rcases Nat.lt_trichotomy j j' with hlt | heq | hgt
        · have hb := hr j h1.1
          rw [Memory.read_below (Memory.wfFrom_cons.mpr ⟨Nat.le_refl j', h2.2⟩) hlt] at hb
          exact absurd (by simpa [Memory.read] using hb) h1.2.2.1
        · exact heq
        · have hb := hr j' h2.1
          rw [Memory.read_below (Memory.wfFrom_cons.mpr ⟨Nat.le_refl j, h1.2⟩) hgt] at hb
          exact absurd (by simpa [Memory.read] using hb.symm) h2.2.2.1
      subst hj
      have hb : b = b' := by simpa [Memory.read] using hr j h1.1
      have hm : m = m' := by
        refine ih h1.2.2.2 h2.2.2.2 (fun i hi => ?_)
        have hne : j ≠ i := by omega
        simpa [Memory.read, hne] using hr i (by omega)
      rw [hb, hm]

/-- Equal memories are equal data. -/
theorem Memory.ext_of_wf {m m' : Memory} (h : m.wf = true) (h' : m'.wf = true)
    (hr : ∀ i, Memory.read m i = Memory.read m' i) : m = m' :=
  Memory.ext_from h h' (fun i _ => hr i)

/-- The zero-fill's RAM has the canonical form and reads 0x00 everywhere. -/
theorem Memory.zero_wf : Memory.wf [] = true := rfl

end Sys2Proof.Machine
end

