-- ==== Sys2Proof/Laws/State.lean ====
section
/-! SUPPORT. What each update of the state does to each field, one lemma per field per update, so that no proof
unfolds a record update. -/

namespace Sys2Proof.Machine

variable (s : State)

@[simp] theorem emit_cfg (es : List Event) : (s.emit es).cfg = s.cfg := rfl
@[simp] theorem emit_mcc (es : List Event) : (s.emit es).mcc = s.mcc := rfl
@[simp] theorem emit_ram (es : List Event) : (s.emit es).ram = s.ram := rfl
@[simp] theorem emit_life (es : List Event) : (s.emit es).life = s.life := rfl
@[simp] theorem emit_ctx (es : List Event) : (s.emit es).ctx = s.ctx := rfl
@[simp] theorem emit_cartRef (es : List Event) : (s.emit es).cartRef = s.cartRef := rfl
@[simp] theorem emit_inbox (es : List Event) : (s.emit es).inbox = s.inbox := rfl
@[simp] theorem emit_answers (es : List Event) : (s.emit es).answers = s.answers := rfl
@[simp] theorem emit_draws (es : List Event) : (s.emit es).draws = s.draws := rfl
@[simp] theorem emit_trace (es : List Event) : (s.emit es).trace = s.trace ++ es := rfl

@[simp] theorem respond_cfg (d : Byte) (st : Status) : (s.respond d st).cfg = s.cfg := rfl
@[simp] theorem respond_mcc (d : Byte) (st : Status) : (s.respond d st).mcc = s.mcc := rfl
@[simp] theorem respond_ram (d : Byte) (st : Status) : (s.respond d st).ram = s.ram := rfl
@[simp] theorem respond_life (d : Byte) (st : Status) : (s.respond d st).life = s.life := rfl
@[simp] theorem respond_ctx (d : Byte) (st : Status) : (s.respond d st).ctx = s.ctx := rfl
@[simp] theorem respond_cartRef (d : Byte) (st : Status) : (s.respond d st).cartRef = s.cartRef := rfl
@[simp] theorem respond_inbox (d : Byte) (st : Status) : (s.respond d st).inbox = s.inbox := rfl
@[simp] theorem respond_answers (d : Byte) (st : Status) : (s.respond d st).answers = s.answers := rfl
@[simp] theorem respond_draws (d : Byte) (st : Status) : (s.respond d st).draws = s.draws := rfl
@[simp] theorem respond_trace (d : Byte) (st : Status) : (s.respond d st).trace = s.trace ++ [.response d st] := rfl

@[simp] theorem took_cfg (rest : List Input) : (s.took rest).cfg = s.cfg := rfl
@[simp] theorem took_mcc (rest : List Input) : (s.took rest).mcc = s.mcc := rfl
@[simp] theorem took_ram (rest : List Input) : (s.took rest).ram = s.ram := rfl
@[simp] theorem took_life (rest : List Input) : (s.took rest).life = s.life := rfl
@[simp] theorem took_ctx (rest : List Input) : (s.took rest).ctx = s.ctx := rfl
@[simp] theorem took_cartRef (rest : List Input) : (s.took rest).cartRef = s.cartRef := rfl
@[simp] theorem took_inbox (rest : List Input) : (s.took rest).inbox = rest := rfl
@[simp] theorem took_answers (rest : List Input) : (s.took rest).answers = s.answers := rfl
@[simp] theorem took_draws (rest : List Input) : (s.took rest).draws = s.draws := rfl
@[simp] theorem took_trace (rest : List Input) : (s.took rest).trace = s.trace := rfl

@[simp] theorem accept_cfg (w : Cmd) (rest : List Input) : (s.accept w rest).cfg = s.cfg := rfl
@[simp] theorem accept_mcc (w : Cmd) (rest : List Input) : (s.accept w rest).mcc = s.mcc := rfl
@[simp] theorem accept_ram (w : Cmd) (rest : List Input) : (s.accept w rest).ram = s.ram := rfl
@[simp] theorem accept_life (w : Cmd) (rest : List Input) : (s.accept w rest).life = s.life := rfl
@[simp] theorem accept_ctx (w : Cmd) (rest : List Input) : (s.accept w rest).ctx = s.ctx := rfl
@[simp] theorem accept_cartRef (w : Cmd) (rest : List Input) : (s.accept w rest).cartRef = s.cartRef := rfl
@[simp] theorem accept_inbox (w : Cmd) (rest : List Input) : (s.accept w rest).inbox = rest := rfl
@[simp] theorem accept_answers (w : Cmd) (rest : List Input) : (s.accept w rest).answers = s.answers := rfl
@[simp] theorem accept_draws (w : Cmd) (rest : List Input) : (s.accept w rest).draws = s.draws := rfl
@[simp] theorem accept_trace (w : Cmd) (rest : List Input) : (s.accept w rest).trace = s.trace ++ [.command w] := rfl

@[simp] theorem setLife_cfg (l : Life) : (s.setLife l).cfg = s.cfg := rfl
@[simp] theorem setLife_mcc (l : Life) : (s.setLife l).mcc = s.mcc := rfl
@[simp] theorem setLife_ram (l : Life) : (s.setLife l).ram = s.ram := rfl
@[simp] theorem setLife_life (l : Life) : (s.setLife l).life = l := rfl
@[simp] theorem setLife_ctx (l : Life) : (s.setLife l).ctx = s.ctx := rfl
@[simp] theorem setLife_cartRef (l : Life) : (s.setLife l).cartRef = decide (l = .ready) := rfl
@[simp] theorem setLife_inbox (l : Life) : (s.setLife l).inbox = s.inbox := rfl
@[simp] theorem setLife_answers (l : Life) : (s.setLife l).answers = s.answers := rfl
@[simp] theorem setLife_draws (l : Life) : (s.setLife l).draws = s.draws := rfl
@[simp] theorem setLife_trace (l : Life) : (s.setLife l).trace = s.trace := rfl

@[simp] theorem setCtx_cfg (c : Ctx) : (s.setCtx c).cfg = s.cfg := rfl
@[simp] theorem setCtx_mcc (c : Ctx) : (s.setCtx c).mcc = s.mcc := rfl
@[simp] theorem setCtx_ram (c : Ctx) : (s.setCtx c).ram = s.ram := rfl
@[simp] theorem setCtx_life (c : Ctx) : (s.setCtx c).life = s.life := rfl
@[simp] theorem setCtx_ctx (c : Ctx) : (s.setCtx c).ctx = c := rfl
@[simp] theorem setCtx_cartRef (c : Ctx) : (s.setCtx c).cartRef = s.cartRef := rfl
@[simp] theorem setCtx_inbox (c : Ctx) : (s.setCtx c).inbox = s.inbox := rfl
@[simp] theorem setCtx_answers (c : Ctx) : (s.setCtx c).answers = s.answers := rfl
@[simp] theorem setCtx_draws (c : Ctx) : (s.setCtx c).draws = s.draws := rfl
@[simp] theorem setCtx_trace (c : Ctx) : (s.setCtx c).trace = s.trace := rfl

@[simp] theorem clear_cfg : s.clear.cfg = s.cfg := rfl
@[simp] theorem clear_mcc : s.clear.mcc = s.cfg.mccInit := rfl
@[simp] theorem clear_ram : s.clear.ram = [] := rfl
@[simp] theorem clear_life : s.clear.life = s.life := rfl
@[simp] theorem clear_ctx : s.clear.ctx = s.ctx := rfl
@[simp] theorem clear_cartRef : s.clear.cartRef = s.cartRef := rfl
@[simp] theorem clear_inbox : s.clear.inbox = s.inbox := rfl
@[simp] theorem clear_answers : s.clear.answers = s.answers := rfl
@[simp] theorem clear_draws : s.clear.draws = s.draws := rfl
@[simp] theorem clear_trace : s.clear.trace = s.trace := rfl

@[simp] theorem writeRam_cfg (i : RamIndex) (v : Byte) : (s.writeRam i v).cfg = s.cfg := rfl
@[simp] theorem writeRam_mcc (i : RamIndex) (v : Byte) : (s.writeRam i v).mcc = s.mcc := rfl
@[simp] theorem writeRam_ram (i : RamIndex) (v : Byte) : (s.writeRam i v).ram = Memory.write s.ram i.toNat v := rfl
@[simp] theorem writeRam_life (i : RamIndex) (v : Byte) : (s.writeRam i v).life = s.life := rfl
@[simp] theorem writeRam_ctx (i : RamIndex) (v : Byte) : (s.writeRam i v).ctx = s.ctx := rfl
@[simp] theorem writeRam_cartRef (i : RamIndex) (v : Byte) : (s.writeRam i v).cartRef = s.cartRef := rfl
@[simp] theorem writeRam_inbox (i : RamIndex) (v : Byte) : (s.writeRam i v).inbox = s.inbox := rfl
@[simp] theorem writeRam_answers (i : RamIndex) (v : Byte) : (s.writeRam i v).answers = s.answers := rfl
@[simp] theorem writeRam_draws (i : RamIndex) (v : Byte) : (s.writeRam i v).draws = s.draws := rfl
@[simp] theorem writeRam_trace (i : RamIndex) (v : Byte) : (s.writeRam i v).trace = s.trace := rfl

@[simp] theorem afterDraw_cfg : s.afterDraw.cfg = s.cfg := rfl
@[simp] theorem afterDraw_mcc : s.afterDraw.mcc = s.mcc := rfl
@[simp] theorem afterDraw_ram : s.afterDraw.ram = s.ram := rfl
@[simp] theorem afterDraw_life : s.afterDraw.life = s.life := rfl
@[simp] theorem afterDraw_ctx : s.afterDraw.ctx = s.ctx := rfl
@[simp] theorem afterDraw_cartRef : s.afterDraw.cartRef = s.cartRef := rfl
@[simp] theorem afterDraw_inbox : s.afterDraw.inbox = s.inbox := rfl
@[simp] theorem afterDraw_answers : s.afterDraw.answers = s.answers := rfl
@[simp] theorem afterDraw_draws : s.afterDraw.draws = s.draws + 1 := rfl
@[simp] theorem afterDraw_trace : s.afterDraw.trace = s.trace := rfl

@[simp] theorem powerOn_cfg : s.powerOn.cfg = s.cfg := rfl
@[simp] theorem powerOn_mcc : s.powerOn.mcc = s.mcc := rfl
@[simp] theorem powerOn_ram : s.powerOn.ram = s.ram := rfl
@[simp] theorem powerOn_life : s.powerOn.life = .off := rfl
@[simp] theorem powerOn_ctx : s.powerOn.ctx = .host := rfl
@[simp] theorem powerOn_cartRef : s.powerOn.cartRef = false := rfl
@[simp] theorem powerOn_inbox : s.powerOn.inbox = s.inbox := rfl
@[simp] theorem powerOn_answers : s.powerOn.answers = s.answers := rfl
@[simp] theorem powerOn_draws : s.powerOn.draws = s.draws := rfl
@[simp] theorem powerOn_trace : s.powerOn.trace = s.trace ++ [.powerOn] := rfl

@[simp] theorem afterInsert_cfg (sel : Selector) : (s.afterInsert sel).cfg = s.cfg := rfl
@[simp] theorem afterInsert_mcc (sel : Selector) : (s.afterInsert sel).mcc = s.mcc := rfl
@[simp] theorem afterInsert_ram (sel : Selector) : (s.afterInsert sel).ram = s.ram := rfl
@[simp] theorem afterInsert_life (sel : Selector) : (s.afterInsert sel).life = s.life := rfl
@[simp] theorem afterInsert_ctx (sel : Selector) : (s.afterInsert sel).ctx = s.ctx := rfl
@[simp] theorem afterInsert_cartRef (sel : Selector) : (s.afterInsert sel).cartRef = s.cartRef := rfl
@[simp] theorem afterInsert_inbox (sel : Selector) : (s.afterInsert sel).inbox = s.inbox := rfl
@[simp] theorem afterInsert_answers (sel : Selector)
    : (s.afterInsert sel).answers = { s.answers with cartInsert := s.answers.cartInsert.tail } := rfl
@[simp] theorem afterInsert_draws (sel : Selector)
    : (s.afterInsert sel).draws = drawsAfter (!s.answers.cartInsert.isEmpty) s.draws := rfl
@[simp] theorem afterInsert_trace (sel : Selector)
    : (s.afterInsert sel).trace = s.trace ++ [.cartInsert sel s.insertAnswer] := rfl

@[simp] theorem afterRemove_cfg : s.afterRemove.cfg = s.cfg := rfl
@[simp] theorem afterRemove_mcc : s.afterRemove.mcc = s.mcc := rfl
@[simp] theorem afterRemove_ram : s.afterRemove.ram = s.ram := rfl
@[simp] theorem afterRemove_life : s.afterRemove.life = s.life := rfl
@[simp] theorem afterRemove_ctx : s.afterRemove.ctx = s.ctx := rfl
@[simp] theorem afterRemove_cartRef : s.afterRemove.cartRef = s.cartRef := rfl
@[simp] theorem afterRemove_inbox : s.afterRemove.inbox = s.inbox := rfl
@[simp] theorem afterRemove_answers
    : s.afterRemove.answers = { s.answers with cartRemove := s.answers.cartRemove.tail } := rfl
@[simp] theorem afterRemove_draws : s.afterRemove.draws = drawsAfter (!s.answers.cartRemove.isEmpty) s.draws := rfl
@[simp] theorem afterRemove_trace : s.afterRemove.trace = s.trace ++ [.cartRemove s.removeAnswer] := rfl

@[simp] theorem afterCartRead_cfg (a : Addr) : (s.afterCartRead a).cfg = s.cfg := rfl
@[simp] theorem afterCartRead_mcc (a : Addr) : (s.afterCartRead a).mcc = s.mcc := rfl
@[simp] theorem afterCartRead_ram (a : Addr) : (s.afterCartRead a).ram = s.ram := rfl
@[simp] theorem afterCartRead_life (a : Addr) : (s.afterCartRead a).life = s.life := rfl
@[simp] theorem afterCartRead_ctx (a : Addr) : (s.afterCartRead a).ctx = s.ctx := rfl
@[simp] theorem afterCartRead_cartRef (a : Addr) : (s.afterCartRead a).cartRef = s.cartRef := rfl
@[simp] theorem afterCartRead_inbox (a : Addr) : (s.afterCartRead a).inbox = s.inbox := rfl
@[simp] theorem afterCartRead_answers (a : Addr)
    : (s.afterCartRead a).answers = { s.answers with cartRead := s.answers.cartRead.tail } := rfl
@[simp] theorem afterCartRead_draws (a : Addr)
    : (s.afterCartRead a).draws = drawsAfter (!s.answers.cartRead.isEmpty) s.draws := rfl
@[simp] theorem afterCartRead_trace (a : Addr)
    : (s.afterCartRead a).trace = s.trace ++ [.cartRead a s.readAnswer.1 s.readAnswer.2] := rfl

@[simp] theorem afterCartWrite_cfg (a : Addr) (v : Byte) : (s.afterCartWrite a v).cfg = s.cfg := rfl
@[simp] theorem afterCartWrite_mcc (a : Addr) (v : Byte) : (s.afterCartWrite a v).mcc = s.mcc := rfl
@[simp] theorem afterCartWrite_ram (a : Addr) (v : Byte) : (s.afterCartWrite a v).ram = s.ram := rfl
@[simp] theorem afterCartWrite_life (a : Addr) (v : Byte) : (s.afterCartWrite a v).life = s.life := rfl
@[simp] theorem afterCartWrite_ctx (a : Addr) (v : Byte) : (s.afterCartWrite a v).ctx = s.ctx := rfl
@[simp] theorem afterCartWrite_cartRef (a : Addr) (v : Byte) : (s.afterCartWrite a v).cartRef = s.cartRef := rfl
@[simp] theorem afterCartWrite_inbox (a : Addr) (v : Byte) : (s.afterCartWrite a v).inbox = s.inbox := rfl
@[simp] theorem afterCartWrite_answers (a : Addr) (v : Byte)
    : (s.afterCartWrite a v).answers = { s.answers with cartWrite := s.answers.cartWrite.tail } := rfl
@[simp] theorem afterCartWrite_draws (a : Addr) (v : Byte)
    : (s.afterCartWrite a v).draws = drawsAfter (!s.answers.cartWrite.isEmpty) s.draws := rfl
@[simp] theorem afterCartWrite_trace (a : Addr) (v : Byte)
    : (s.afterCartWrite a v).trace = s.trace ++ [.cartWrite a v s.writeAnswer] := rfl

@[simp] theorem afterReg_cfg (i : RegIndex) (w : Bool) (v : Byte) : (s.afterReg i w v).cfg = s.cfg := rfl
@[simp] theorem afterReg_mcc (i : RegIndex) (w : Bool) (v : Byte) : (s.afterReg i w v).mcc = s.mcc := rfl
@[simp] theorem afterReg_ram (i : RegIndex) (w : Bool) (v : Byte) : (s.afterReg i w v).ram = s.ram := rfl
@[simp] theorem afterReg_life (i : RegIndex) (w : Bool) (v : Byte) : (s.afterReg i w v).life = s.life := rfl
@[simp] theorem afterReg_ctx (i : RegIndex) (w : Bool) (v : Byte) : (s.afterReg i w v).ctx = s.ctx := rfl
@[simp] theorem afterReg_cartRef (i : RegIndex) (w : Bool) (v : Byte) : (s.afterReg i w v).cartRef = s.cartRef := rfl
@[simp] theorem afterReg_inbox (i : RegIndex) (w : Bool) (v : Byte) : (s.afterReg i w v).inbox = s.inbox := rfl
@[simp] theorem afterReg_answers (i : RegIndex) (w : Bool) (v : Byte)
    : (s.afterReg i w v).answers = { s.answers with ppuReg := s.answers.ppuReg.tail } := rfl
@[simp] theorem afterReg_draws (i : RegIndex) (w : Bool) (v : Byte)
    : (s.afterReg i w v).draws = drawsAfter (!s.answers.ppuReg.isEmpty) s.draws := rfl
@[simp] theorem afterReg_trace (i : RegIndex) (w : Bool) (v : Byte)
    : (s.afterReg i w v).trace = s.trace ++ [.ppuReg i w v s.regAnswer] := rfl

end Sys2Proof.Machine
end

