-- ==== Sys2Proof/Laws/Ops.lean ====
section
/-! SUPPORT. What the shared operations can do, each said once: admission, the answers of the call outs, and the
fields the accesses leave alone. -/

namespace Sys2Proof.Machine

variable {s t : State}

/-! ### Admission -/

/-- An operation that is admitted has its effect, and only that. -/
theorem orRefuse_next_iff {why : Option Refusal} {e : State} :
    orRefuse why e = .next t ↔ why = none ∧ t = e := by
  cases why <;> simp [orRefuse, eq_comm]

/-- An operation never faults. -/
theorem orRefuse_ne_fault {why : Option Refusal} {e : State} {f : Fault} : orRefuse why e ≠ .fault f := by
  cases why <;> simp [orRefuse]

theorem admission_rd_none {a : Addr} : admission (.rd a) s = none ↔ s.life = .ready := by
  simp [admission]

theorem admission_wr_none {a : Addr} {v : Byte} : admission (.wr a v) s = none ↔ s.life = .ready := by
  simp [admission]

theorem admission_tick_none : admission .tick s = none ↔ s.ctx = .host ∧ s.life = .ready := by
  by_cases hc : s.ctx = .host <;> simp [admission, hc]

theorem admission_shut_none : admission .shut s = none ↔ s.ctx = .host ∧ s.life = .ready := by
  by_cases hc : s.ctx = .host <;> simp [admission, hc]

theorem admission_init_none {sel : Selector} : admission (.init sel) s = none ↔ s.ctx = .host ∧ s.life = .off := by
  by_cases hc : s.ctx = .host <;> simp [admission, hc]

/-! ### Answers: the first of the script where there is one -/

theorem insertAnswer_cons {x : Bool} {xs : List Bool} (h : s.answers.cartInsert = x :: xs) : s.insertAnswer = x := by
  simp [State.insertAnswer, h]

theorem removeAnswer_cons {x : Bool} {xs : List Bool} (h : s.answers.cartRemove = x :: xs) : s.removeAnswer = x := by
  simp [State.removeAnswer, h]

theorem readAnswer_cons {x : Byte × Bool} {xs : List (Byte × Bool)} (h : s.answers.cartRead = x :: xs) :
    s.readAnswer = x := by
  simp [State.readAnswer, h]

theorem writeAnswer_cons {x : Bool} {xs : List Bool} (h : s.answers.cartWrite = x :: xs) : s.writeAnswer = x := by
  simp [State.writeAnswer, h]

theorem regAnswer_cons {x : Byte} {xs : List Byte} (h : s.answers.ppuReg = x :: xs) : s.regAnswer = x := by
  simp [State.regAnswer, h]

/-! ### What the accesses leave alone -/

/-- What two states of one session have in common whatever an access does: all of the block but `ram`, and the
pending inputs. -/
def SameSession (s t : State) : Prop :=
  t.cfg = s.cfg ∧ t.mcc = s.mcc ∧ t.life = s.life ∧ t.ctx = s.ctx ∧ t.cartRef = s.cartRef ∧ t.inbox = s.inbox

theorem SameSession.refl (s : State) : SameSession s s := ⟨rfl, rfl, rfl, rfl, rfl, rfl⟩

theorem readFixedMap_session (a : Addr) (s : State) :
    SameSession s (readFixedMap a s) ∧ (readFixedMap a s).ram = s.ram := by
  unfold readFixedMap
  split <;> exact ⟨SameSession.refl s, rfl⟩

/-- RD leaves the whole block alone (R112). -/
theorem readEffect_session (a : Addr) (s : State) :
    SameSession s (readEffect a s) ∧ (readEffect a s).ram = s.ram := by
  unfold readEffect
  split
  · exact ⟨SameSession.refl s, rfl⟩
  · exact readFixedMap_session a (s.afterCartRead a)

theorem writeFixedMap_session (a : Addr) (v : Byte) (s : State) : SameSession s (writeFixedMap a v s) := by
  unfold writeFixedMap
  split <;> exact SameSession.refl s

/-- WR leaves all of the block but `ram` alone (R113). -/
theorem writeEffect_session (a : Addr) (v : Byte) (s : State) : SameSession s (writeEffect a v s) := by
  unfold writeEffect
  split
  · exact SameSession.refl s
  · exact writeFixedMap_session a v (s.afterCartWrite a v)

/-- The RAM after WR: one byte written in the un-hijacked RAM case, else the same (R113). -/
theorem writeEffect_ram (a : Addr) (v : Byte) (s : State) :
    (writeEffect a v s).ram
      = if s.writeAnswer then s.ram
        else match region a with
          | .ram i => Memory.write s.ram i.toNat v
          | .ppu _ => s.ram
          | .unmapped => s.ram := by
  unfold writeEffect writeFixedMap
  cases s.writeAnswer
  · cases region a <;> rfl
  · rfl

end Sys2Proof.Machine
end

