-- ==== Sys2Proof/Laws/Exec.lean ====
section
/-! SUPPORT. Inversion of `exec` and `step`: everything an operation or a step can do, said once. -/

namespace Sys2Proof.Machine

variable {s t : State}

/-! ### Operations -/

theorem exec_rd_next {a : Addr} : exec (.rd a) s = .next t ↔ s.life = .ready ∧ t = readEffect a s := by
  rw [exec, execRd, orRefuse_next_iff, admission_rd_none]

theorem exec_wr_next {a : Addr} {v : Byte} :
    exec (.wr a v) s = .next t ↔ s.life = .ready ∧ t = writeEffect a v s := by
  rw [exec, execWr, orRefuse_next_iff, admission_wr_none]

theorem exec_tick_next :
    exec .tick s = .next t ↔ (s.ctx = .host ∧ s.life = .ready) ∧ t = tickEffect s := by
  rw [exec, execTick, orRefuse_next_iff, admission_tick_none]

theorem exec_shut_next :
    exec .shut s = .next t ↔ (s.ctx = .host ∧ s.life = .ready) ∧ t = shutEffect s := by
  rw [exec, execShut, orRefuse_next_iff, admission_shut_none]

theorem exec_init_next {sel : Selector} :
    exec (.init sel) s = .next t ↔ (s.ctx = .host ∧ s.life = .off) ∧ t = initEffect sel s := by
  rw [exec, execInit, orRefuse_next_iff, admission_init_none]

/-- No operation faults. -/
theorem exec_ne_fault {i : Instr} {f : Fault} : exec i s ≠ .fault f := by
  cases i <;> exact orRefuse_ne_fault

/-- What INIT leaves in each field (R150, R35). -/
theorem initEffect_fields (sel : Selector) (s : State) :
    (initEffect sel s).cfg = s.cfg ∧ (initEffect sel s).ram = [] ∧ (initEffect sel s).mcc = s.cfg.mccInit
      ∧ (initEffect sel s).ctx = s.ctx ∧ (initEffect sel s).inbox = s.inbox
      ∧ (initEffect sel s).life = (if s.insertAnswer then .ready else .off)
      ∧ (initEffect sel s).cartRef = s.insertAnswer := by
  have h : s.clear.insertAnswer = s.insertAnswer := rfl
  unfold initEffect finishInit
  rw [h]
  cases s.insertAnswer <;> exact ⟨rfl, rfl, rfl, rfl, rfl, rfl, rfl⟩

/-- What SHUT leaves in each field (R152, R35). -/
theorem shutEffect_fields (s : State) :
    (shutEffect s).cfg = s.cfg ∧ (shutEffect s).ram = s.ram ∧ (shutEffect s).mcc = s.mcc
      ∧ (shutEffect s).ctx = s.ctx ∧ (shutEffect s).inbox = s.inbox ∧ (shutEffect s).life = .off
      ∧ (shutEffect s).cartRef = false :=
  ⟨rfl, rfl, rfl, rfl, rfl, rfl, rfl⟩

/-- What TICK leaves in each field (R130). -/
theorem tickEffect_fields (s : State) :
    (tickEffect s).cfg = s.cfg ∧ (tickEffect s).ram = s.ram ∧ (tickEffect s).mcc = (s.mcc + 1) % 2 ^ s.cfg.cw
      ∧ (tickEffect s).ctx = .inPpu s.mcc ∧ (tickEffect s).inbox = s.inbox ∧ (tickEffect s).life = s.life
      ∧ (tickEffect s).cartRef = s.cartRef ∧ (tickEffect s).trace = s.trace ++ [.ppuStep] :=
  ⟨rfl, rfl, rfl, rfl, rfl, rfl, rfl, rfl⟩

/-- What the return of a step can do: nothing with no step outstanding; call `CpuStep`; complete the TICK. -/
theorem stepReturned_cases (s : State) :
    (s.ctx = .host ∧ stepReturned s = s)
    ∨ (∃ c, s.ctx = .inPpu c ∧ stepEnable s.cfg c = true
        ∧ stepReturned s = (s.setCtx .inCpu).emit [.returned, .cpuStep])
    ∨ (((∃ c, s.ctx = .inPpu c ∧ stepEnable s.cfg c = false) ∨ s.ctx = .inCpu)
        ∧ stepReturned s = ((s.setCtx .host).emit [.returned]).respond 0 .ok) := by
  unfold stepReturned
  cases hc : s.ctx with
  | host => exact .inl ⟨rfl, rfl⟩
  | inPpu c =>
    cases he : stepEnable s.cfg c with
    | true => exact .inr (.inl ⟨c, rfl, he, by simp [he]⟩)
    | false => exact .inr (.inr ⟨.inl ⟨c, rfl, he⟩, by simp [he]⟩)
  | inCpu => exact .inr (.inr ⟨.inr rfl, rfl⟩)

/-! ### Steps -/

theorem idle_next : idle s = .next t ↔ s.ctx = .host ∧ t = s := by
  by_cases h : s.ctx = .host <;> simp [idle, h, eq_comm]

/-- The steps, one for each kind of first input. -/
theorem step_idle (h : s.inbox = []) : step s = idle s := by
  rw [step, takeInput, h]

theorem step_command {w : Cmd} {rest : List Input} (h : s.inbox = .command w :: rest) :
    step s = runWord w (s.accept w rest) := by
  rw [step, takeInput, h]

theorem step_stepReturns {rest : List Input} (h : s.inbox = .stepReturns :: rest) :
    step s = .next (stepReturned (s.took rest)) := by
  rw [step, takeInput, h]

theorem step_powerOn {rest : List Input} (h : s.inbox = .powerOn :: rest) :
    step s = .next (s.took rest).powerOn := by
  rw [step, takeInput, h]

theorem runWord_decoded {w : Cmd} {i : Instr} (h : decode w = some i) : runWord w s = exec i s := by
  rw [runWord, h]

theorem runWord_reserved {w : Cmd} (h : decode w = none) : runWord w s = .next s.reservedWord := by
  rw [runWord, h]

/-- Everything a step that goes on can have done. -/
theorem step_cases (h : step s = .next t) :
    (s.inbox = [] ∧ s.ctx = .host ∧ t = s)
    ∨ (∃ w i rest, s.inbox = .command w :: rest ∧ decode w = some i ∧ exec i (s.accept w rest) = .next t)
    ∨ (∃ w rest, s.inbox = .command w :: rest ∧ decode w = none ∧ t = (s.accept w rest).reservedWord)
    ∨ (∃ rest, s.inbox = .stepReturns :: rest ∧ t = stepReturned (s.took rest))
    ∨ (∃ rest, s.inbox = .powerOn :: rest ∧ t = (s.took rest).powerOn) := by
  unfold step takeInput at h
  split at h
  · exact .inl ⟨by assumption, idle_next.mp h⟩
  · next w rest hb =>
    unfold runWord at h
    split at h
    · next i hd => exact .inr (.inl ⟨w, i, rest, hb, hd, h⟩)
    · next hd => exact .inr (.inr (.inl ⟨w, rest, hb, hd, by cases h; rfl⟩))
  · next rest hb => exact .inr (.inr (.inr (.inl ⟨rest, hb, by cases h; rfl⟩)))
  · next rest hb => exact .inr (.inr (.inr (.inr ⟨rest, hb, by cases h; rfl⟩)))

end Sys2Proof.Machine
end

