-- ==== Sys2Proof/Laws/PerInstr.lean ====
section
/-! SUPPORT. The bits and fields of a word put together from fields (R81), and the family `Encodable`: the encoder
makes no reserved word (R86). -/

namespace Sys2Proof

/-- The bits of a word put together from fields (R81). -/
theorem wordOf_getLsbD (op : BitVec 3) (a : BitVec 16) (d : BitVec 8) (j : Nat) :
    (wordOf op a d).getLsbD j
      = if j < 8 then d.getLsbD j
        else if j - 8 < 16 then a.getLsbD (j - 8)
        else if j - 8 - 16 < 5 then false
        else op.getLsbD (j - 8 - 16 - 5) := by
  have h : (wordOf op a d).getLsbD j = (op ++ 0#5 ++ a ++ d).getLsbD j := rfl
  rw [h, BitVec.getLsbD_append, BitVec.getLsbD_append, BitVec.getLsbD_append]
  by_cases h1 : j < 8 <;> by_cases h2 : j - 8 < 16 <;> by_cases h3 : j - 8 - 16 < 5 <;> simp [h1, h2, h3]

/-- A word put together from fields, as a number (R81). -/
theorem wordOf_toNat (op : BitVec 3) (a : BitVec 16) (d : BitVec 8) :
    (wordOf op a d).toNat = op.toNat * 2 ^ 29 + a.toNat * 2 ^ 8 + d.toNat := by
  have ho := op.isLt
  have ha := a.isLt
  have hd := d.isLt
  simp only [wordOf, BitVec.toNat_append, BitVec.toNat_ofNat]
  rw [← Nat.shiftLeft_add_eq_or_of_lt hd, ← Nat.shiftLeft_add_eq_or_of_lt ha,
    ← Nat.shiftLeft_add_eq_or_of_lt (by decide)]
  simp only [Nat.shiftLeft_eq]
  omega

/-- The fields of a word are those it was put together from, with `z = 0` (R81). -/
theorem rawOf_wordOf (op : BitVec 3) (a : BitVec 16) (d : BitVec 8) :
    rawOf (wordOf op a d) = { op := op, z := 0, addr := a, data := d } := by
  have hop : (wordOf op a d).extractLsb' 29 3 = op := by
    refine BitVec.eq_of_getLsbD_eq fun i hi => ?_
    rw [BitVec.getLsbD_extractLsb', wordOf_getLsbD]
    simp [hi, show ¬ 29 + i < 8 by omega, show ¬ 29 + i - 8 < 16 by omega, show ¬ 29 + i - 8 - 16 < 5 by omega,
      show 29 + i - 8 - 16 - 5 = i by omega]
  have hz : (wordOf op a d).extractLsb' 24 5 = 0#5 := by
    refine BitVec.eq_of_getLsbD_eq fun i hi => ?_
    rw [BitVec.getLsbD_extractLsb', wordOf_getLsbD]
    simp [show ¬ 24 + i < 8 by omega, show ¬ 24 + i - 8 < 16 by omega, show 24 + i - 8 - 16 < 5 by omega]
  have ha : addrOf (wordOf op a d) = a := by
    refine BitVec.eq_of_getLsbD_eq fun i hi => ?_
    rw [addrOf, BitVec.getLsbD_extractLsb', wordOf_getLsbD]
    simp [hi, show ¬ 8 + i < 8 by omega]
  have hd : dataOf (wordOf op a d) = d := by
    refine BitVec.eq_of_getLsbD_eq fun i hi => ?_
    rw [dataOf, BitVec.getLsbD_extractLsb', wordOf_getLsbD]
    simp [hi]
  simp [rawOf, hop, hz, ha, hd]

end Sys2Proof

namespace Sys2Proof.Laws.Encodable

/-- The encoder's word for `i` is not reserved. -/
def Statement (i : Instr) : Prop := reserved (encode i) = false

theorem init (sel : Selector) : Statement (.init sel) := by
  simp [Statement, reserved, encode, rawOf_wordOf, RawCmd.wf]

theorem shut : Statement .shut := by
  simp [Statement, reserved, encode, rawOf_wordOf, RawCmd.wf]

theorem tick : Statement .tick := by
  simp [Statement, reserved, encode, rawOf_wordOf, RawCmd.wf]

theorem rd (a : Addr) : Statement (.rd a) := by
  simp [Statement, reserved, encode, rawOf_wordOf, RawCmd.wf]

theorem wr (a : Addr) (v : Byte) : Statement (.wr a v) := by
  simp [Statement, reserved, encode, rawOf_wordOf, RawCmd.wf]

end Sys2Proof.Laws.Encodable
end

