-- ==== Sys2Proof/Laws/Pins.lean ====
section
/-! SUPPORT. One edge at pin level, said once for each mode, and what the end of a step does to the TICK in
progress. -/

namespace Sys2Proof.Machine

variable {p q : PinState} {i : PinIn}

/-- An edge with `por = 1`, from any mode (R202). -/
theorem pinCycle_por (h : i.por = true) : pinCycle p i = .next p.powerOn.counted := by
  simp [pinCycle, h]

/-- The first edge with `por = 0` after power-on. -/
theorem pinCycle_afterPor (h : i.por = false) (hm : p.mode = .por) :
    pinCycle p i = .next { p with mode := .running }.counted := by
  simp [pinCycle, h, hm]

/-- After a refused command an edge with `por = 0` leaves another free state (R202, U12). -/
theorem pinCycle_unspecified (h : i.por = false) (hm : p.mode = .unspecified) :
    pinCycle p i = .next { p with blk := p.blk.scrambled p.cycle }.counted := by
  simp [pinCycle, h, hm]

/-- An edge of a working block goes on where its `edge` does. -/
theorem pinCycle_running (h : i.por = false) (hm : p.mode = .running) :
    pinCycle p i = .next q ↔
      ∃ r, p.edge i = .next r ∧ q = (if r.mode = .running then r.launch i else r).counted := by
  cases he : p.edge i <;> simp [pinCycle, h, hm, he, eq_comm]

/-- A run begins with one edge. -/
theorem pinRun_cons {is : List PinIn} :
    pinRun p (i :: is) = .next q ↔ ∃ r, pinCycle p i = .next r ∧ pinRun r is = .next q := by
  rw [pinRun]
  cases pinCycle p i <;> simp

/-- A free state keeps nothing of the one before it but the parameters and the model's own fields. -/
@[simp] theorem scrambled_scrambled (m n : Nat) (s : State) : (s.scrambled m).scrambled n = s.scrambled n := rfl

@[simp] theorem scrambled_cfg (n : Nat) (s : State) : (s.scrambled n).cfg = s.cfg := rfl
@[simp] theorem scrambled_trace (n : Nat) (s : State) : (s.scrambled n).trace = s.trace := rfl

@[simp] theorem counted_blk : p.counted.blk = p.blk := rfl
@[simp] theorem counted_mode : p.counted.mode = p.mode := rfl
@[simp] theorem counted_job : p.counted.job = p.job := rfl
@[simp] theorem counted_tick : p.counted.tick = p.tick := rfl
@[simp] theorem counted_cycle : p.counted.cycle = p.cycle + 1 := rfl

/-- With nothing else in progress the step returns at once. -/
theorem doneSeen_idle (h : p.job = .none) : p.doneSeen = p.returned := by
  simp [PinState.doneSeen, h]

/-- With a response in progress the return waits for it (log 18). -/
theorem doneSeen_busy (h : p.job ≠ .none) : p.doneSeen = { p with tick := some .done } := by
  simp [PinState.doneSeen, h]

/-- A reserved-word response is no open access (R191, R215). -/
@[simp] theorem accessOpen_reserved (d : Byte) (b : Bool) : (Job.respond d .illegal b).accessOpen = false := rfl

@[simp] theorem accessOpen_cart (c : CartCall) (b : Bool) : (Job.cart c b).accessOpen = true := rfl

@[simp] theorem accessOpen_reg (k : RegIndex) (w : Bool) (v : Byte) (b : Bool) :
    (Job.reg k w v b).accessOpen = true := rfl

end Sys2Proof.Machine
end

