-- ==== Sys2Proof/Laws/Run.lean ====
section
/-! SUPPORT. What each operation and each step records, and the one induction over runs. -/

namespace Sys2Proof.Machine

variable {s t : State}

/-! ### Records -/

/-- What RD records: the offer, a register call if there is one, the response (R112). -/
def readEvents (a : Addr) (s : State) : List Event :=
  .cartRead a s.readAnswer.1 s.readAnswer.2 ::
    (if s.readAnswer.2 then [.response s.readAnswer.1 .ok]
     else match region a with
      | .ram i => [.response (s.readRam i) .ok]
      | .ppu i => [.ppuReg i false 0 (s.afterCartRead a).regAnswer, .response (s.afterCartRead a).regAnswer .ok]
      | .unmapped => [.response (s.afterCartRead a).drawn .ok])

theorem readEffect_trace (a : Addr) (s : State) : (readEffect a s).trace = s.trace ++ readEvents a s := by
  unfold readEffect readFixedMap readEvents
  cases h : s.readAnswer.2
  · cases region a <;> simp [State.readRam, h]
  · simp [h]

/-- What WR records (R113). -/
def writeEvents (a : Addr) (v : Byte) (s : State) : List Event :=
  .cartWrite a v s.writeAnswer ::
    (if s.writeAnswer then [.response 0 .ok]
     else match region a with
      | .ram _ => [.response 0 .ok]
      | .ppu i => [.ppuReg i true v (s.afterCartWrite a v).regAnswer, .response 0 .ok]
      | .unmapped => [.response 0 .ok])

theorem writeEffect_trace (a : Addr) (v : Byte) (s : State) :
    (writeEffect a v s).trace = s.trace ++ writeEvents a v s := by
  unfold writeEffect writeFixedMap writeEvents
  cases h : s.writeAnswer
  · cases region a <;> simp [h]
  · simp [h]

/-- What INIT records (R150). -/
def initEvents (sel : Selector) (s : State) : List Event :=
  .cartInsert sel s.insertAnswer ::
    (if s.insertAnswer then [.cpuInit, .response 0 .ok] else [.response 0 .loadErr])

theorem initEffect_trace (sel : Selector) (s : State) :
    (initEffect sel s).trace = s.trace ++ initEvents sel s := by
  have h : s.clear.insertAnswer = s.insertAnswer := rfl
  unfold initEffect finishInit initEvents
  rw [h]
  cases hi : s.insertAnswer <;> simp [h, hi]

/-- What SHUT records (R152). -/
theorem shutEffect_trace (s : State) :
    (shutEffect s).trace
      = s.trace ++ [.cartRemove s.removeAnswer, .response 0 (if s.removeAnswer then .ok else .unloadErr)] := by
  simp [shutEffect]

/-- What an admitted operation records. -/
def instrEvents (i : Instr) (s : State) : List Event :=
  match i with
  | .init sel => initEvents sel s
  | .shut => [.cartRemove s.removeAnswer, .response 0 (if s.removeAnswer then .ok else .unloadErr)]
  | .tick => [.ppuStep]
  | .rd a => readEvents a s
  | .wr a v => writeEvents a v s

theorem exec_trace {i : Instr} (h : exec i s = .next t) : t.trace = s.trace ++ instrEvents i s := by
  cases i with
  | init sel => rw [(exec_init_next.mp h).2]; exact initEffect_trace sel s
  | shut => rw [(exec_shut_next.mp h).2]; exact shutEffect_trace s
  | tick => rw [(exec_tick_next.mp h).2]; rfl
  | rd a => rw [(exec_rd_next.mp h).2]; exact readEffect_trace a s
  | wr a v => rw [(exec_wr_next.mp h).2]; exact writeEffect_trace a v s

/-- No operation takes a pending input. -/
theorem exec_inbox {i : Instr} (h : exec i s = .next t) : t.inbox = s.inbox := by
  cases i with
  | init sel => rw [(exec_init_next.mp h).2]; exact (initEffect_fields sel s).2.2.2.2.1
  | shut => rw [(exec_shut_next.mp h).2]; rfl
  | tick => rw [(exec_tick_next.mp h).2]; rfl
  | rd a => rw [(exec_rd_next.mp h).2]; exact (readEffect_session a s).1.2.2.2.2.2
  | wr a v => rw [(exec_wr_next.mp h).2]; exact (writeEffect_session a v s).2.2.2.2.2

/-- No operation changes the parameters. -/
theorem exec_cfg {i : Instr} (h : exec i s = .next t) : t.cfg = s.cfg := by
  cases i with
  | init sel => rw [(exec_init_next.mp h).2]; exact (initEffect_fields sel s).1
  | shut => rw [(exec_shut_next.mp h).2]; rfl
  | tick => rw [(exec_tick_next.mp h).2]; rfl
  | rd a => rw [(exec_rd_next.mp h).2]; exact (readEffect_session a s).1.1
  | wr a v => rw [(exec_wr_next.mp h).2]; exact (writeEffect_session a v s).1

/-! ### Runs -/

@[simp] theorem runSteps_zero (s : State) : runSteps 0 s = .next s := rfl

/-- A step first, then the rest of the run. -/
theorem runSteps_of_step {n : Nat} {u : State} (h : step s = .next u) : runSteps (n + 1) s = runSteps n u := by
  rw [runSteps, h]

/-- A run that goes on is a step that goes on and a run from there. -/
theorem runSteps_succ {n : Nat} : runSteps (n + 1) s = .next t ↔ ∃ u, step s = .next u ∧ runSteps n u = .next t := by
  rw [runSteps]
  cases step s <;> simp

/-- One more step of the host's run, for any machine. -/
theorem coreRun_succ (M : Host.Core) (n : Nat) (u : M.State) :
    M.run (n + 1) u = (match M.step u with
      | .next v => M.run n v
      | .fault r => .fault r
      | .refused r => .refused r) := by
  cases h : M.step u <;> simp only [Host.Core.run, h]

/-- `runSteps` is the host's `Core.run` on this machine. -/
theorem runSteps_eq_coreRun (n : Nat) (u : State) : runSteps n u = core.run n u := by
  induction n generalizing u with
  | zero => rfl
  | succ n ih =>
    refine Eq.trans ?_ (coreRun_succ core n u).symm
    have hc : core.step u = step u := rfl
    rw [runSteps]
    cases hs : step u with
    | next v => simp only [hc.trans hs]; exact ih v
    | fault f => simp only [hc.trans hs]; rfl
    | refused r => simp only [hc.trans hs]; rfl

/-- A run of `m` steps, then a run of `n`. -/
theorem runSteps_add {m n : Nat} {u : State} (h : runSteps m s = .next u) : runSteps (m + n) s = runSteps n u := by
  induction m generalizing s with
  | zero => rw [runSteps_zero] at h; cases h; rw [Nat.zero_add]
  | succ m ih =>
    obtain ⟨w, hs, hr⟩ := runSteps_succ.mp h
    rw [Nat.add_right_comm, runSteps_of_step hs]
    exact ih hr

/-- The induction over runs: a relation that every state has to itself and that a step may be put in front of. -/
theorem runSteps_induction {R : State → State → Prop} (refl : ∀ u, R u u)
    (cons : ∀ u v w, step u = .next v → R v w → R u w) {n : Nat} (h : runSteps n s = .next t) : R s t := by
  induction n generalizing s with
  | zero => rw [runSteps_zero] at h; cases h; exact refl _
  | succ n ih =>
    obtain ⟨u, hs, hr⟩ := runSteps_succ.mp h
    exact cons _ u _ hs (ih hr)

end Sys2Proof.Machine
end

