-- ==== Sys2Proof/Tests/Slice0.lean ====
section
/-! SUPPORT. Small tests, with expected results from the vectors of spec/95_test_vectors.md (named V1 to V73) or worked
out by hand from the rule named; and, for every obligation with hypotheses, a witness that meets them. -/

namespace Sys2Proof.Tests

open Sys2Proof Sys2Proof.Machine

/-! ### Helpers: small states -/

/-- The next state, if there is one. -/
def nextOf (o : Host.Outcome State Fault Refusal) : Option State :=
  match o with
  | .next t => some t
  | .fault _ | .refused _ => none

/-- Why an operation is refused, if it is. -/
def refusalOf (o : Host.Outcome State Fault Refusal) : Option Refusal :=
  match o with
  | .refused r => some r
  | .next _ | .fault _ => none

/-- The fault, if there is one. -/
def faultOf (o : Host.Outcome State Fault Refusal) : Option Fault :=
  match o with
  | .fault f => some f
  | .next _ | .refused _ => none

/-- What a step or an operation records, from an empty record. -/
def recordOf (o : Host.Outcome State Fault Refusal) : Option (List Event) := (nextOf o).map (·.trace)

/-- A session just begun, with default parameters (R35, "after successful INIT"). -/
def session : State := { State.reset with life := .ready, cartRef := true }

/-- A session with the given READ, WRITE and register answers. -/
def sessionWith (cr : List (Byte × Bool)) (cw : List Bool) (pr : List Byte) : State :=
  { session with answers := { Answers.none with cartRead := cr, cartWrite := cw, ppuReg := pr } }

/-- A session whose inputs are still to come. -/
def sessionRuns (inbox : List Input) : State := { session with inbox := inbox }

/-- Inside the picture unit's step of the tick that began at counter 4 (no processor step with PHASE 0). -/
def inPictureStep : State := { session with mcc := 5, ctx := .inPpu 4 }

/-- Inside the picture unit's step of the tick that began at counter 3 (a processor step follows with PHASE 0). -/
def inSteppingTick : State := { session with mcc := 4, ctx := .inPpu 3 }

/-- Inside the processor's step of the tick that began at counter 3. -/
def inProcessorStep : State := { session with mcc := 4, ctx := .inCpu }

/-! ### Well-formedness: one ill-formed term for each check -/

/-- R86: `op` 0, 6, 7; `z` not zero; TICK and SHUT with operand bits; RD with data bits. -/
theorem test_wf_refuses_reserved_words :
    RawCmd.wf ⟨0b000#3, 0#5, 0#16, 0#8⟩ = false ∧ RawCmd.wf ⟨0b110#3, 0#5, 0#16, 0#8⟩ = false
    ∧ RawCmd.wf ⟨0b111#3, 0#5, 0#16, 0#8⟩ = false ∧ RawCmd.wf ⟨0b101#3, 1#5, 0#16, 0#8⟩ = false
    ∧ RawCmd.wf ⟨0b011#3, 0#5, 1#16, 0#8⟩ = false ∧ RawCmd.wf ⟨0b011#3, 0#5, 0#16, 1#8⟩ = false
    ∧ RawCmd.wf ⟨0b010#3, 0#5, 1#16, 0#8⟩ = false ∧ RawCmd.wf ⟨0b010#3, 0#5, 0#16, 1#8⟩ = false
    ∧ RawCmd.wf ⟨0b100#3, 0#5, 0x8000#16, 1#8⟩ = false := by decide

/-- R86: the words that are not reserved. -/
theorem test_wf_accepts_operations :
    RawCmd.wf ⟨0b001#3, 0#5, 0xFFFF#16, 0xFF#8⟩ = true ∧ RawCmd.wf ⟨0b010#3, 0#5, 0#16, 0#8⟩ = true
    ∧ RawCmd.wf ⟨0b011#3, 0#5, 0#16, 0#8⟩ = true ∧ RawCmd.wf ⟨0b100#3, 0#5, 0xFFFF#16, 0#8⟩ = true
    ∧ RawCmd.wf ⟨0b101#3, 0#5, 0xFFFF#16, 0xFF#8⟩ = true := by decide

/-- R7: `CW` at least 2; `MCC_INIT` below `2 ^ CW`. -/
theorem test_wf_refuses_parameters :
    Config.wf { cw := 1, phase := 0, mccInit := 0 } = false
    ∧ Config.wf { cw := 2, phase := 0, mccInit := 4 } = false
    ∧ Config.wf { cw := 2, phase := 2, mccInit := 3 } = true ∧ Config.defaults.wf = true := by decide

/-! ### Decoding: words written out from R81 and R82, and the words of V60 to V73 -/

/-- `op` in bits 31:29, zeros in 28:24, `sel` in 23:0. -/
theorem test_decode_init : decode 0b00100000000000000000000000000001#32 = some (.init 0x000001)
    ∧ decode 0b00100000111111111111111111111111#32 = some (.init 0xFFFFFF)
    ∧ decode 0b00100000100000000000000000000000#32 = some (.init 0x800000) := by decide

theorem test_decode_shut : decode 0b01000000000000000000000000000000#32 = some .shut := by decide

theorem test_decode_tick : decode 0b01100000000000000000000000000000#32 = some .tick := by decide

/-- The address in 23:8. -/
theorem test_decode_rd : decode 0b10000000100000000000000000000000#32 = some (.rd 0x8000)
    ∧ decode 0b10000000000000000000000100000000#32 = some (.rd 0x0001) := by decide

/-- The address in 23:8, the value in 7:0. -/
theorem test_decode_wr : decode 0b10100000000000010010001110101011#32 = some (.wr 0x0123 0xAB) := by decide

/-- V66 to V71 by R86's own list and by the decoder. -/
theorem test_reserved_words :
    ([0x00000000#32, 0xC0000000#32, 0xE0000000#32, 0x61000000#32, 0x60000001#32, 0x40000100#32, 0x80000001#32,
      0xA1000000#32, 0x30000000#32, 0x21000000#32].all fun w => reserved w && (decode w).isNone) = true := by decide

/-- The host's numbering: the table's word as the command port carries it. -/
theorem test_decode_table_word : decodeTableWord 32 0x80800000 = some (.rd 0x8000)
    ∧ decodeTableWord 32 0xA00123AB = some (.wr 0x0123 0xAB) ∧ decodeTableWord 32 0xC0000000 = none := by decide

/-! ### The fixed map: V1 to V15 and the extra points -/

theorem test_region_ram :
    [0x0000#16, 0x0800#16, 0x1000#16, 0x1800#16].map region = List.replicate 4 (.ram 0x000) := by decide

theorem test_region_ram_top :
    [0x07FF#16, 0x0FFF#16, 0x17FF#16, 0x1FFF#16].map region = List.replicate 4 (.ram 0x7FF) := by decide

theorem test_region_picture : region 0x2000 = .ppu 0 ∧ region 0x2007 = .ppu 7 ∧ region 0x2008 = .ppu 0
    ∧ region 0x3FFF = .ppu 7 ∧ region 0x2ABC = .ppu 4 ∧ region 0x3456 = .ppu 6 ∧ region 0x1234 = .ram 0x234 := by decide

theorem test_region_unmapped :
    [0x4000#16, 0x7FFF#16, 0x8000#16, 0xFFFF#16].map region = List.replicate 4 .unmapped := by decide

/-! ### RD and WR, one step each -/

/-- V16: the cartridge hijacks 0x2002 with 0x80; no register call. V21: `RD 0x3FFF` reads register 7, argument 0x00. -/
theorem test_rd_calls :
    recordOf (exec (.rd 0x2002) (sessionWith [(0x80, true)] [] [])) =
      some [.cartRead 0x2002 0x80 true, .response 0x80 .ok]
    ∧ recordOf (exec (.rd 0x3FFF) (sessionWith [(0x99, false)] [] [0x5C])) =
      some [.cartRead 0x3FFF 0x99 false, .ppuReg 7 false 0x00 0x5C, .response 0x5C .ok] := by decide

/-- V26 (0x0800 aliases `ram[0]`) and V27 (0x1FFF aliases `ram[0x7FF]`), V28 (a byte never written). -/
theorem test_rd_ram :
    recordOf (exec (.rd 0x0800) { sessionWith [(0x99, false)] [] [] with ram := [(0, 0x42), (0x7FF, 0x55)] }) =
      some [.cartRead 0x0800 0x99 false, .response 0x42 .ok]
    ∧ recordOf (exec (.rd 0x1FFF) { sessionWith [(0x99, false)] [] [] with ram := [(0, 0x42), (0x7FF, 0x55)] }) =
      some [.cartRead 0x1FFF 0x99 false, .response 0x55 .ok]
    ∧ recordOf (exec (.rd 0x0005) { sessionWith [(0x99, false)] [] [] with ram := [(0, 0x42), (0x7FF, 0x55)] }) =
      some [.cartRead 0x0005 0x99 false, .response 0x00 .ok] := by decide

/-- V17 (hijacked: no register call), V20 (`WR 0x3FFF` writes register 7), V23 (unmapped: the offer only). -/
theorem test_wr_calls :
    recordOf (exec (.wr 0x2000 0x80) (sessionWith [] [true] [])) =
      some [.cartWrite 0x2000 0x80 true, .response 0x00 .ok]
    ∧ recordOf (exec (.wr 0x3FFF 0x01) (sessionWith [] [false] [0xEE])) =
      some [.cartWrite 0x3FFF 0x01 false, .ppuReg 7 true 0x01 0xEE, .response 0x00 .ok]
    ∧ recordOf (exec (.wr 0x4000 0x12) (sessionWith [] [false] [])) =
      some [.cartWrite 0x4000 0x12 false, .response 0x00 .ok] := by decide

/-- `WR 0x1FFF, v` writes `ram[0x7FF]`; a hijacked one does not; 0x00 leaves the canonical form (P2, P4). -/
theorem test_wr_ram :
    (nextOf (exec (.wr 0x1FFF 0x55) (sessionWith [] [false] []))).map (·.ram) = some [(0x7FF, 0x55)]
    ∧ (nextOf (exec (.wr 0x0010 0x77) (sessionWith [] [true] []))).map (·.ram) = some []
    ∧ (nextOf (exec (.wr 0x1803 0x00) { sessionWith [] [false] [] with ram := [(3, 0x77), (4, 1)] })).map (·.ram)
      = some [(4, 1)] := by decide

/-! ### TICK, one step each -/

/-- V30 and the corner case of R130: at `mcc = 2^CW - 1` the counter wraps to 0. -/
theorem test_tick_counts :
    (nextOf (exec .tick session)).map (fun t => (t.mcc, t.ctx, t.trace)) = some (1, .inPpu 0, [.ppuStep])
    ∧ (nextOf (exec .tick { session with mcc := 0xFFFFFFFF })).map (fun t => (t.mcc, t.ctx))
      = some (0, .inPpu 0xFFFFFFFF) := by decide

/-- V31: the tick at counter 3 steps the processor, the tick at 4 does not; V45: the tick at 0xFFFFFFFF does. -/
theorem test_tick_step_returns :
    recordOf (step { inSteppingTick with inbox := [.stepReturns] }) = some [.returned, .cpuStep]
    ∧ recordOf (step { inPictureStep with inbox := [.stepReturns] }) = some [.returned, .response 0x00 .ok]
    ∧ recordOf (step { inProcessorStep with inbox := [.stepReturns] }) = some [.returned, .response 0x00 .ok]
    ∧ recordOf (step { session with mcc := 0, ctx := .inPpu 0xFFFFFFFF, inbox := [.stepReturns] })
      = some [.returned, .cpuStep] := by decide

/-- The counts of V34 to V36, V39 to V45. -/
theorem test_tick_vectors :
    steppingTicks ⟨32, 1, 0⟩ 0 7 = 2 ∧ steppingTicks ⟨32, 2, 0⟩ 0 7 = 2 ∧ steppingTicks ⟨32, 0, 5⟩ 5 4 = 1
    ∧ steppingTicks ⟨4, 0, 0⟩ 0 18 = 7 ∧ steppingTicks ⟨4, 1, 0⟩ 0 20 = 6 ∧ steppingTicks ⟨4, 2, 0⟩ 0 20 = 6
    ∧ steppingTicks ⟨3, 0, 0⟩ 0 12 = 5 ∧ steppingTicks ⟨3, 1, 0⟩ 0 12 = 4 ∧ steppingTicks ⟨3, 2, 0⟩ 0 12 = 3
    ∧ steppingTicks ⟨32, 0, 0xFFFFFFFE⟩ 0xFFFFFFFE 3 = 2 := by decide

/-! ### INIT and SHUT, one step each -/

/-- V50, from a power-on whose contents are not zero, and V51. -/
theorem test_init :
    nextOf (exec (.init 1) { State.reset with
        ram := [(3, 0x77)], mcc := 10, answers := { Answers.none with cartInsert := [true] } }) =
      some { State.reset with
        life := .ready, cartRef := true, trace := [.cartInsert 1 true, .cpuInit, .response 0x00 .ok] }
    ∧ nextOf (exec (.init 9) { State.reset with
        ram := [(3, 0x77)], mcc := 10, answers := { Answers.none with cartInsert := [false] } }) =
      some { State.reset with trace := [.cartInsert 9 false, .response 0x00 .loadErr] } := by decide

/-- V54 and V55. -/
theorem test_shut :
    nextOf (exec .shut { session with
        ram := [(3, 0x77)], mcc := 10, answers := { Answers.none with cartRemove := [true] } }) =
      some { State.reset with ram := [(3, 0x77)], mcc := 10, trace := [.cartRemove true, .response 0x00 .ok] }
    ∧ recordOf (exec .shut { session with answers := { Answers.none with cartRemove := [false] } }) =
      some [.cartRemove false, .response 0x00 .unloadErr] := by decide

/-! ### Stops (V53, V56, V58, U3 to U5, U11) -/

theorem test_refusals :
    refusalOf (exec .tick State.reset) = some .notReady ∧ refusalOf (exec .shut State.reset) = some .notReady
    ∧ refusalOf (exec (.rd 0) State.reset) = some .notReady ∧ refusalOf (exec (.wr 0 0) State.reset) = some .notReady
    ∧ refusalOf (exec (.init 1) session) = some .alreadyReady
    ∧ refusalOf (exec .tick inPictureStep) = some .nestedOperation
    ∧ refusalOf (exec .shut inProcessorStep) = some .nestedOperation
    ∧ refusalOf (exec (.init 1) inProcessorStep) = some .nestedOperation
    ∧ faultOf (step inPictureStep) = some .deviceNotReturned := by decide

/-! ### Trace syntax (R91, R92): lines of the programs P1 to P3 -/

def line (s : String) : Option TraceLine := parseLine s.toList

theorem test_trace_lines :
    line "INIT 0x000001 -> ST_OK   ; a comment" = some ⟨none, .op (.init 1), [], some (.status .ok)⟩
    ∧ line "  cpu: RD 0x8000 -> 0xA9" = some ⟨some .processor, .op (.rd 0x8000), [], some (.value 0xA9)⟩
    ∧ line "  ppu: WR 0x0000, 0x01" = some ⟨some .pictureUnit, .op (.wr 0 1), [], none⟩
    ∧ line "tickn 7" = some ⟨none, .tickN 7, [], none⟩
    ∧ line "RD 0x10000" = none ∧ line "WR 0, 256" = none := by decide

/-- Braces are written by their codes. -/
def braced (a b c : String) : Option TraceLine :=
  parseLine (a.toList ++ Char.ofNat 0x7B :: b.toList ++ Char.ofNat 0x7D :: c.toList)

/-- A WR to register 0 without a `ppu` note, then a RD of it with one, then a hijacked RD and a RD noted for another
register: each note answers its own line's call, and the answers not noted are free. -/
theorem test_trace_answers :
    answersOfLines [⟨none, .op (.wr 0x2000 1), [.cartPass], none⟩, ⟨none, .op (.rd 0x2000), [.cartPass, .ppu 0 5], none⟩,
      ⟨none, .op (.rd 0x2001), [.cartHijack (some 0xA9), .ppu 1 6], none⟩,
      ⟨none, .op (.rd 0x2002), [.cartHijack none], none⟩, ⟨none, .op (.rd 0x2003), [.cartPass, .ppu 7 8], none⟩,
      ⟨none, .op .shut, [.remove false], none⟩] =
    { cartInsert := [], cartRemove := [false], cartWrite := [false]
      cartRead := [(unnotedByte 1 4000, false), (0xA9, true), (unnotedByte 3 4000, true), (unnotedByte 4 4000, false)]
      ppuReg := [unnotedByte 0 4002, 5, unnotedByte 4 4002] } := rfl

/-- P4 has a line that holds only a comment; it and a blank line stand for no operation. -/
theorem test_trace_comment_line :
    parseLines ["TICK".toList, "   ; now: ram all 0x00".toList, [], "SHUT".toList] =
      some [⟨none, .op .tick, [], none⟩, ⟨none, .op .shut, [], none⟩]
    ∧ parseLines ["TICK".toList, "POKE 1".toList] = none := by decide

theorem test_trace_notes :
    braced "RD 0x8000 " "cart: hijack 0xA9" " -> 0xA9"
      = some ⟨none, .op (.rd 0x8000), [.cartHijack (some 0xA9)], some (.value 0xA9)⟩
    ∧ braced "RD 0x2000 " "ppu[0] -> 0x80" "" = some ⟨none, .op (.rd 0x2000), [.ppu 0 0x80], none⟩
    ∧ braced "INIT 9 " "insert: fail" " -> ST_LOAD_ERR"
      = some ⟨none, .op (.init 9), [.insert false], some (.status .loadErr)⟩
    ∧ braced "RD 0x4000 " "draw 0x5A" "" = some ⟨none, .op (.rd 0x4000), [.draw 0x5A], none⟩ := by decide

/-! ### Witnesses: concrete states and operands that meet the hypotheses of an obligation, clause by clause -/

theorem witness_DecoderFollowsTheMatchAndMaskTable :
    (0x20FFFFFF#32 &&& 0xFF000000 = 0x20000000) ∧ (0x40000000#32 &&& 0xFFFFFFFF = 0x40000000)
    ∧ (0x60000000#32 &&& 0xFFFFFFFF = 0x60000000) ∧ (0x80FFFF00#32 &&& 0xFF0000FF = 0x80000000)
    ∧ (0xA0FFFFFF#32 &&& 0xFF000000 = 0xA0000000)
    ∧ (0x80000001#32 &&& 0xFF000000 ≠ 0x20000000 ∧ 0x80000001#32 &&& 0xFFFFFFFF ≠ 0x40000000
      ∧ 0x80000001#32 &&& 0xFFFFFFFF ≠ 0x60000000 ∧ 0x80000001#32 &&& 0xFF0000FF ≠ 0x80000000
      ∧ 0x80000001#32 &&& 0xFF000000 ≠ 0xA0000000)
    ∧ rowRd ∈ rows ∧ rowRd.selects 0x80FFFF00 = true := by decide

/-- One word for each clause of the list of R86, offered in each `life` and `ctx`. -/
theorem witness_ReservedWordsAnswerIllegalAndDoNothing :
    (0x1FFFFFFF#32).toNat / 2 ^ 29 = 0b000 ∧ (0xC0000000#32).toNat / 2 ^ 29 = 0b110
    ∧ (0xFFFFFFFF#32).toNat / 2 ^ 29 = 0b111 ∧ (0xA1000000#32).toNat / 2 ^ 24 % 2 ^ 5 ≠ 0
    ∧ ((0x60000001#32).toNat / 2 ^ 29 = 0b011 ∧ (0x60000001#32).toNat % 2 ^ 24 ≠ 0)
    ∧ ((0x40800000#32).toNat / 2 ^ 29 = 0b010 ∧ (0x40800000#32).toNat % 2 ^ 24 ≠ 0)
    ∧ ((0x80000001#32).toNat / 2 ^ 29 = 0b100 ∧ (0x80000001#32).toNat % 2 ^ 8 ≠ 0)
    ∧ [State.reset, session, inPictureStep, inProcessorStep].map
        (fun s => recordOf (step { s with inbox := [.command 0xC0000000, .powerOn] }))
      = List.replicate 4 (some [.command 0xC0000000, .response 0x00 .illegal]) := by decide

theorem witness_DecodedWordIsItsEncoding :
    decode 0x80FFFF00 = some (.rd 0xFFFF) ∧ encode (.rd 0xFFFF) = 0x80FFFF00 := by decide

theorem witness_StepRunsTheAcceptedCommand :
    (sessionRuns [.command 0x60000000, .powerOn]).inbox = .command 0x60000000 :: [.powerOn]
    ∧ decode 0x60000000 = some .tick := by decide

theorem witness_StepWithoutACommand :
    (session.inbox = [] ∧ session.ctx = .host) ∧ (inPictureStep.inbox = [] ∧ inPictureStep.ctx ≠ .host)
    ∧ ((sessionRuns [.stepReturns]).inbox = .stepReturns :: [] ∧ (sessionRuns [.stepReturns]).ctx = .host)
    ∧ { inProcessorStep with inbox := [.powerOn] }.inbox = .powerOn :: [] := by decide

/-- Each clause at the ends of its range, with scripted answers, and OFF. -/
theorem witness_RdAnswersFromItsHandler :
    State.reset.life = .off ∧ (sessionWith [(0x99, false)] [] [0x5C]).life = .ready
    ∧ (sessionWith [(0x99, false)] [] [0x5C]).answers.cartRead = [(0x99, false)]
    ∧ (sessionWith [(0x99, false)] [] [0x5C]).answers.ppuReg = [0x5C]
    ∧ recordOf (exec (.rd 0xFFFF) (sessionWith [(0x80, true)] [] [])) =
      some [.cartRead 0xFFFF 0x80 true, .response 0x80 .ok]
    ∧ [0x0000#16, 0x1FFF#16].map (fun a => recordOf (exec (.rd a) (sessionWith [(0x99, false)] [] [0x5C]))) =
      [some [.cartRead 0x0000 0x99 false, .response 0x00 .ok], some [.cartRead 0x1FFF 0x99 false, .response 0x00 .ok]]
    ∧ [0x2000#16, 0x3FFF#16].map (fun a => recordOf (exec (.rd a) (sessionWith [(0x99, false)] [] [0x5C]))) =
      [some [.cartRead 0x2000 0x99 false, .ppuReg 0 false 0 0x5C, .response 0x5C .ok],
        some [.cartRead 0x3FFF 0x99 false, .ppuReg 7 false 0 0x5C, .response 0x5C .ok]] := by decide

/-- The unmapped clause at both ends: the result is the free byte, whatever it is (V13, V15). -/
theorem witness_RdAnswersFromItsHandler_unmapped :
    recordOf (exec (.rd 0x4000) (sessionWith [(0x99, false)] [] [])) =
      some [.cartRead 0x4000 0x99 false, .response (Config.freeByte 0) .ok]
    ∧ recordOf (exec (.rd 0xFFFF) (sessionWith [(0x99, false)] [] [])) =
      some [.cartRead 0xFFFF 0x99 false, .response (Config.freeByte 0) .ok] := ⟨rfl, rfl⟩

theorem witness_WrReachesItsHandlerOnly :
    State.reset.life = .off ∧ (sessionWith [] [false] [0xEE]).life = .ready
    ∧ (sessionWith [] [false] [0xEE]).ram.wf = true
    ∧ recordOf (exec (.wr 0x0000 1) (sessionWith [] [true] [])) =
      some [.cartWrite 0x0000 1 true, .response 0x00 .ok]
    ∧ [0x0000#16, 0x1FFF#16].map
        (fun a => (nextOf (exec (.wr a 1) (sessionWith [] [false] []))).map (·.ram)) =
      [some [(0, 1)], some [(0x7FF, 1)]]
    ∧ [0x2000#16, 0x3FFF#16].map (fun a => recordOf (exec (.wr a 1) (sessionWith [] [false] [0xEE]))) =
      [some [.cartWrite 0x2000 1 false, .ppuReg 0 true 1 0xEE, .response 0x00 .ok],
        some [.cartWrite 0x3FFF 1 false, .ppuReg 7 true 1 0xEE, .response 0x00 .ok]]
    ∧ [0x4000#16, 0xFFFF#16].map (fun a => recordOf (exec (.wr a 1) (sessionWith [] [false] []))) =
      [some [.cartWrite 0x4000 1 false, .response 0x00 .ok],
        some [.cartWrite 0xFFFF 1 false, .response 0x00 .ok]] := by decide

theorem witness_RegionIsTheFixedMap :
    (0x1FFF#16).toNat ≤ 0x1FFF ∧ (0x2000 ≤ (0x2000#16).toNat ∧ (0x3FFF#16).toNat ≤ 0x3FFF)
    ∧ 0x4000 ≤ (0x4000#16).toNat
    ∧ (region 0x1FFF = region 0x07FF ∧ region 0x1FFF ≠ region 0x1FFE)
    ∧ (region 0x3FFF = region 0x2007 ∧ region 0x3FFF ≠ region 0x3FFE) := by decide

theorem witness_HijackStopsTheFixedMap :
    (sessionWith [(0x77, true)] [true] []).readAnswer = (0x77, true)
    ∧ (sessionWith [(0x77, true)] [true] []).writeAnswer = true
    ∧ (nextOf (exec (.rd 0x0010) (sessionWith [(0x77, true)] [true] []))).isSome = true
    ∧ (nextOf (exec (.wr 0x0010 1) (sessionWith [(0x77, true)] [true] []))).isSome = true := by decide

theorem witness_EveryAccessIsOfferedOnce : session.life = .ready ∧ inProcessorStep.life = .ready := by decide

theorem witness_AccessesAreTotal : session.inv = true ∧ session.life = .ready
    ∧ inProcessorStep.inv = true ∧ inProcessorStep.life = .ready := by decide

/-- S1 and S2: `WR 0x0123, 0xAB`, then a WR to another byte, then a RD through the alias 0x1923. -/
def mirrorStart : State :=
  { sessionRuns [.command 0xA0012400] with
    answers := { Answers.none with cartWrite := [false, false], cartRead := [(0, false)] } }

def mirrorMiddle : State :=
  { session with
    inbox := [.command 0xA0012400]
    ram := [(0x123, 0xAB)]
    answers := { Answers.none with cartWrite := [false], cartRead := [(0, false)] }
    trace := [.cartWrite 0x0123 0xAB false, .response 0x00 .ok] }

def mirrorEnd : State :=
  { session with
    ram := [(0x123, 0xAB)]
    answers := { Answers.none with cartRead := [(0, false)] }
    trace := [.cartWrite 0x0123 0xAB false, .response 0x00 .ok, .command 0xA0012400,
      .cartWrite 0x0124 0x00 false, .response 0x00 .ok] }

theorem witness_WriteIsReadThroughEveryMirror :
    mirrorStart.inv = true ∧ (0x0123#16).toNat ≤ 0x1FFF ∧ (0x1923#16).toNat ≤ 0x1FFF
    ∧ (0x0123#16).toNat % 0x0800 = (0x1923#16).toNat % 0x0800 ∧ mirrorStart.writeAnswer = false
    ∧ nextOf (exec (.wr 0x0123 0xAB) mirrorStart) = some mirrorMiddle
    ∧ nextOf (runSteps 1 mirrorMiddle) = some mirrorEnd
    ∧ mirrorEnd.trace = mirrorMiddle.trace
      ++ [.command 0xA0012400, .cartWrite 0x0124 0x00 false, .response 0x00 .ok]
    ∧ ([Event.command 0xA0012400, .cartWrite 0x0124 0x00 false, .response 0x00 .ok].all
        fun e => !e.writesRam 0x123) = true
    ∧ mirrorEnd.life = .ready ∧ mirrorEnd.readAnswer.2 = false
    ∧ recordOf (exec (.rd 0x1923) mirrorEnd) =
      some (mirrorEnd.trace ++ [.cartRead 0x1923 0 false, .response 0xAB .ok]) := by decide

/-- V22 at the ends of the unmapped range. -/
theorem witness_UnmappedReadsDrawFreshValues :
    session.life = .ready ∧ 0x4000 ≤ (0x4000#16).toNat ∧ 0x4000 ≤ (0xFFFF#16).toNat
    ∧ (sessionWith [(1, false), (2, false)] [] []).answers.cartRead = (1, false) :: (2, false) :: [] := by decide

theorem witness_TickCallsThePictureUnit : session.life = .ready ∧ session.ctx = .host := by decide

theorem witness_StepReturnsTakeTheTickOn :
    { inSteppingTick with inbox := [.stepReturns] }.inbox = .stepReturns :: []
    ∧ (inSteppingTick.ctx = .inPpu 3 ∧ 3 % 3 = inSteppingTick.cfg.phase.val)
    ∧ (inPictureStep.ctx = .inPpu 4 ∧ 4 % 3 ≠ inPictureStep.cfg.phase.val)
    ∧ inProcessorStep.ctx = .inCpu := by decide

/-- P3, its first tick: the processor reads the cartridge and writes RAM. -/
theorem witness_TickEqualsItsPseudocode :
    (inPictureStep.life ≠ .ready ∨ inPictureStep.ctx ≠ .host) ∧ (State.reset.life ≠ .ready ∨ State.reset.ctx ≠ .host)
    ∧ (sessionRuns (tickInputs Config.defaults 0 [.wr 1 2] [.rd 0x8000, .wr 0 0xA9] ++ [.powerOn])).inbox =
      tickInputs session.cfg session.mcc [.wr 1 2] [.rd 0x8000, .wr 0 0xA9] ++ [.powerOn]
    ∧ session.life = .ready ∧ session.ctx = .host := by decide

/-- Four ticks, as V32. -/
theorem witness_ProcessorStepsFollowTheCounter :
    (sessionRuns (tickNInputs 4)).inv = true ∧ (sessionRuns (tickNInputs 4)).ctx = .host
    ∧ ((sessionRuns (tickNInputs 4)).inbox.all fun x => !x.restarts) = true
    ∧ (nextOf (runSteps 12 (sessionRuns (tickNInputs 4)))).map (fun t => (t.ctx, t.mcc)) = some (.host, 4)
    ∧ (nextOf (runSteps 12 (sessionRuns (tickNInputs 4)))).map
        (fun t => (countEvents Event.isPpuStep t.trace, countEvents Event.isCpuStep t.trace)) = some (4, 2) := by decide

/-- Three ticks from counter `c`. -/
def threeTicks (c : Nat) : State := { sessionRuns (tickNInputs 3) with mcc := c }

/-- The cases `j0 = 0, 1, 2` of R133, each with `3k` ticks for `k = 1`. -/
theorem witness_CadenceIsOneStepInThree :
    [0, 2, 1].map (fun c => ((threeTicks c).inv, (threeTicks c).ctx, (threeTicks c).inbox.all (fun x => !x.restarts))) =
      List.replicate 3 (true, .host, true)
    ∧ [0, 2, 1].map (fun c => ((threeTicks c).cfg.phase.val + 3 - (threeTicks c).mcc % 3) % 3) = [0, 1, 2]
    ∧ [0, 2, 1].map (fun c => (nextOf (runSteps 9 (threeTicks c))).map
        (fun t => (t.ctx, countEvents Event.isTick t.trace, countEvents Event.isCpuStep t.trace))) =
      List.replicate 3 (some (.host, 3, 1))
    ∧ 2 + 3 ≤ 2 ^ Config.defaults.cw := by decide

/-- One TICK and the returns of its steps, the second return ignored where the processor is not stepped. -/
theorem tick_runs (s : State) (rest : List Input) (hl : s.life = .ready) (hc : s.ctx = .host)
    (hi : s.inbox = .command (encode .tick) :: .stepReturns :: .stepReturns :: rest) :
    ∃ t es, runSteps 3 s = .next t ∧ t.life = .ready ∧ t.ctx = .host ∧ t.inbox = rest
      ∧ t.trace = s.trace ++ es ∧ countEvents Event.isTick es = 1 := by
  have hd : decode (encode .tick) = some .tick := by decide
  cases he : stepEnable s.cfg s.mcc <;>
    simp [runSteps, step, takeInput, hi, runWord, hd, exec, execTick, orRefuse, admission, hl, hc, State.accept, State.took,
      State.emit, tickEffect, stepReturned, he, State.setCtx, State.respond, countEvents]

/-- Any number of ticks can run. -/
theorem ticks_run (n : Nat) : ∀ s : State, s.life = .ready → s.ctx = .host → s.inbox = tickNInputs n →
    ∃ t es, runSteps (3 * n) s = .next t ∧ t.ctx = .host ∧ t.trace = s.trace ++ es
      ∧ countEvents Event.isTick es = n := by
  induction n with
  | zero => exact fun s _ hc _ => ⟨s, [], rfl, hc, (List.append_nil _).symm, rfl⟩
  | succ n ih =>
    intro s hl hc hi
    obtain ⟨u, es, hr, hl', hc', hi', ht, hn⟩ := tick_runs s _ hl hc hi
    obtain ⟨t, es', hr', hc'', ht', hn'⟩ := ih u hl' hc' hi'
    refine ⟨t, es ++ es', ?_, hc'', by rw [ht', ht, List.append_assoc], ?_⟩
    · rw [Nat.mul_succ, Nat.add_comm, runSteps_add hr, hr']
    · rw [countEvents, List.countP_append, ← countEvents, ← countEvents, hn, hn', Nat.add_comm]

/-- `TICKN` neither begins nor ends a session. -/
theorem tickNInputs_restarts (n : Nat) : ∀ x ∈ tickNInputs n, x.restarts = false := by
  induction n with
  | zero => simp [tickNInputs]
  | succ n ih =>
    have h₁ : (Input.command (encode .tick)).restarts = false := by decide
    have h₂ : Input.stepReturns.restarts = false := rfl
    simpa [tickNInputs, h₁, h₂] using ih

/-- S3 and V37: 3000 ticks. -/
theorem witness_CadenceIsOneStepInThree_3000 :
    (sessionRuns (tickNInputs 3000)).inv = true
    ∧ (∀ x ∈ (sessionRuns (tickNInputs 3000)).inbox, x.restarts = false)
    ∧ (sessionRuns (tickNInputs 3000)).mcc + 3000 ≤ 2 ^ (sessionRuns (tickNInputs 3000)).cfg.cw
    ∧ ∃ t es, runSteps (3 * 3000) (sessionRuns (tickNInputs 3000)) = .next t ∧ t.ctx = .host
      ∧ t.trace = (sessionRuns (tickNInputs 3000)).trace ++ es ∧ countEvents Event.isTick es = 3000 :=
  ⟨rfl, tickNInputs_restarts 3000, by simp [sessionRuns, session, State.reset, Config.defaults],
    ticks_run 3000 _ rfl rfl rfl⟩

theorem witness_WrapSlipsByTheTable :
    Config.wf ⟨4, 0, 0⟩ = true ∧ Config.wf ⟨4, 1, 0⟩ = true ∧ Config.wf ⟨4, 2, 0⟩ = true ∧ Config.wf ⟨3, 0, 0⟩ = true
    ∧ Config.wf ⟨3, 1, 0⟩ = true ∧ Config.wf ⟨3, 2, 0⟩ = true
    ∧ (2 ^ 3 - 3 < 6 ∧ 6 < 2 ^ 3 ∧ stepEnable ⟨3, 2, 0⟩ 6 = false)
    ∧ (0 < (2 : Fin 3).val ∧ stepEnable ⟨3, 2, 0⟩ 0 = false) := by decide

theorem witness_TickNRunsToItsEnd :
    (sessionRuns (TraceOp.inputs (.tickN 0))).inv = true ∧ (sessionRuns (TraceOp.inputs (.tickN 7))).inv = true
    ∧ (sessionRuns (TraceOp.inputs (.tickN 7))).life = .ready ∧ (sessionRuns (TraceOp.inputs (.tickN 7))).ctx = .host
    ∧ (sessionRuns (TraceOp.inputs (.tickN 7))).inbox = TraceOp.inputs (.tickN 7) := by decide

theorem witness_OnlyTickDrivesTheSteps :
    recordOf (exec .tick session) = some [.ppuStep] ∧ (nextOf (exec .shut session)).isSome = true
    ∧ recordOf (step (sessionRuns [.command 0x60000000])) = some [.command 0x60000000, .ppuStep]
    ∧ recordOf (step { inSteppingTick with inbox := [.stepReturns] }) = some [.returned, .cpuStep] := by decide

/-- RD and WR in a session: next states, for the statements that take one as their premise. -/
theorem witness_CounterNeverReachesAnAccess :
    (nextOf (exec (.rd 0x0800) (sessionWith [(0, false)] [] []))).isSome = true
    ∧ (nextOf (exec (.wr 0x0800 1) (sessionWith [] [false] []))).isSome = true := by decide

theorem witness_AccessesServeAllIssuersAlike :
    (nextOf (exec (.rd 0x2000) { sessionWith [(0, false)] [] [7] with ctx := .inCpu })).isSome = true
    ∧ (nextOf (exec (.wr 0x2000 1) { sessionWith [] [false] [7] with ctx := .inPpu 4 })).isSome = true := by decide

/-- OFF with the given answer of `CartInsert`. -/
def offWith (ok : Bool) : State := { State.reset with answers := { Answers.none with cartInsert := [ok] } }

theorem witness_InitClearsInsertsAndStarts :
    session.life ≠ .off ∧ inProcessorStep.ctx ≠ .host ∧ (offWith true).life = .off ∧ (offWith true).ctx = .host
    ∧ recordOf (exec (.init 0xFFFFFF) (offWith true)) =
      some [.cartInsert 0xFFFFFF true, .cpuInit, .response 0x00 .ok]
    ∧ recordOf (exec (.init 0) (offWith false)) = some [.cartInsert 0 false, .response 0x00 .loadErr] := by decide

theorem witness_FailedInitLeavesOnlyInit :
    (nextOf (exec (.init 9) (offWith false))).isSome = true ∧ (offWith false).insertAnswer = false := by decide

theorem witness_ShutEndsTheSessionOnce :
    State.reset.life ≠ .ready ∧ inPictureStep.ctx ≠ .host ∧ session.life = .ready ∧ session.ctx = .host
    ∧ { session with answers := { Answers.none with cartRemove := [false] } }.answers.cartRemove = false :: [] := by
  decide

theorem witness_LifecycleAdmitsExactlyTheTable :
    (State.reset.life = .off ∧ State.reset.ctx = .host) ∧ (session.life = .ready ∧ session.ctx = .host)
    ∧ (inPictureStep.life = .ready ∧ inPictureStep.ctx ≠ .host)
    ∧ decode 0xC0000000 = none ∧ (sessionRuns [.command 0xC0000000]).inbox = .command 0xC0000000 :: [] := by decide

theorem witness_RightsDecideWhatRuns :
    mayIssue .host (.init 1) State.reset = true ∧ mayIssue .host .shut session = true
    ∧ mayIssue .pictureUnit (.rd 0) inPictureStep = true ∧ mayIssue .processor (.wr 0 0) inProcessorStep = true
    ∧ mayIssue .cartridge (.rd 0) session = false := by decide

theorem witness_NothingSurvivesAFreshInit :
    (nextOf (exec (.init 1) (offWith true))).isSome = true ∧ (nextOf (exec .shut session)).isSome = true
    ∧ (nextOf (exec (.init 9) (offWith false))).map (·.life) = some .off := ⟨rfl, rfl, rfl⟩

/-- Each kind of change happens: RAM by WR and by INIT, the counter, `life`, `ctx`. -/
theorem witness_StateChangesOnlyByItsOwnOperations :
    (nextOf (step { sessionWith [] [false] [] with inbox := [.command 0xA0000042] })).map (·.ram) = some [(0, 0x42)]
    ∧ (nextOf (step { offWith true with ram := [(0, 1)], mcc := 5, inbox := [.command 0x20000001] })).map
        (fun t => (t.ram, t.mcc, t.life, t.cartRef)) = some ([], 0, .ready, true)
    ∧ (nextOf (step (sessionRuns [.command 0x60000000]))).map (fun t => (t.mcc, t.ctx)) = some (1, .inPpu 0)
    ∧ (nextOf (step { inProcessorStep with inbox := [.powerOn] })).map (fun t => (t.life, t.ctx, t.cartRef)) =
      some (.off, .host, false)
    ∧ (nextOf (step { inProcessorStep with inbox := [.stepReturns] })).map (·.ctx) = some .host := by decide

/-- A run with INIT, a WR and a TICK (P2); a RD of the byte would be passed. -/
def shortRun : State :=
  { offWith true with
    answers := { Answers.none with cartInsert := [true], cartWrite := [false], cartRead := [(0, false)] }
    inbox := [.command 0x20000001, .command 0xA0080122, .command 0x60000000, .stepReturns, .stepReturns] }

theorem witness_RamReadReturnsTheLatestWrite :
    shortRun.inv = true ∧ region 0x0801 = .ram 1
    ∧ (nextOf (runSteps 5 shortRun)).map (fun t => (t.life, t.readAnswer.2, t.readRam 1)) =
      some (.ready, false, 0x22) := by decide

theorem witness_CounterIsTheTicksSinceInit :
    (nextOf (runSteps 5 shortRun)).map (·.mcc) = some 1 := by decide

/-- From an OFF state with contents: a run that goes on, one that is refused, one that is stuck. -/
theorem witness_PowerOnContentsAreUnobservable :
    State.reset.life = .off ∧ State.reset.ctx = .host
    ∧ (nextOf (runSteps 5 { shortRun with ram := [(7, 7)], mcc := 9 })).map (·.life) = some .ready
    ∧ refusalOf (runSteps 1 { State.reset with inbox := [.command 0x60000000] }) = some .notReady
    ∧ faultOf (runSteps 3 { offWith true with inbox := [.command 0x20000001, .command 0x60000000] })
      = some .deviceNotReturned := by decide

theorem witness_StepKeepsTheStateSound :
    inSteppingTick.inv = true ∧ inProcessorStep.inv = true ∧ shortRun.inv = true
    ∧ (nextOf (step shortRun)).isSome = true := by decide

/-- Each way a response comes. -/
theorem witness_ResponsesCarryTheirOwnStatuses :
    [.stepReturns, .command 0xC0000000].map (fun x => recordOf (step { inProcessorStep with inbox := [x] })) =
      [some [.returned, .response 0 .ok], some [.command 0xC0000000, .response 0 .illegal]]
    ∧ recordOf (step { offWith false with inbox := [.command 0x20000001] }) =
      some [.command 0x20000001, .cartInsert 1 false, .response 0 .loadErr]
    ∧ recordOf (step { session with
        answers := { Answers.none with cartRemove := [false] }, inbox := [.command 0x40000000] }) =
      some [.command 0x40000000, .cartRemove false, .response 0 .unloadErr]
    ∧ recordOf (step { sessionWith [(3, true)] [true] [] with inbox := [.command 0x80000000] }) =
      some [.command 0x80000000, .cartRead 0 3 true, .response 3 .ok]
    ∧ recordOf (step { sessionWith [] [true] [] with inbox := [.command 0xA0000042] }) =
      some [.command 0xA0000042, .cartWrite 0 0x42 true, .response 0 .ok] := by decide

/-- A run that ends outside a TICK and one that ends inside. -/
theorem witness_EveryCommandGetsOneResponse :
    shortRun.ctx = .host ∧ .powerOn ∉ shortRun.inbox
    ∧ (nextOf (runSteps 5 shortRun)).map (·.ctx) = some .host
    ∧ (nextOf (runSteps 3 shortRun)).map (·.ctx) = some (.inPpu 0) := by decide

/-! ### Witnesses at pin level -/

/-- The next pin state, if there is one. -/
def pinNextOf (o : Host.Outcome PinState Fault Refusal) : Option PinState :=
  match o with
  | .next t => some t
  | .fault _ | .refused _ => none

/-- The fault of an edge, if there is one. -/
def pinFaultOf (o : Host.Outcome PinState Fault Refusal) : Option Fault :=
  match o with
  | .fault f => some f
  | .next _ | .refused _ => none

/-- Every input at 0, the block free to move on. -/
def calm : PinIn :=
  { por := false, cmdValid := false, cmd := 0, cartAck := false, cartRdata := 0, cartHijack := false, cartFail := false,
    ppuStepDone := false, ppuRegAck := false, ppuRegRdata := 0, cpuInitDone := false, cpuStepDone := false, go := true }

/-- A command word is offered. -/
def offer (w : Cmd) : PinIn := { calm with cmdValid := true, cmd := w }

/-- Every device answers at once. -/
def prompt : PinIn := { calm with cartAck := true, ppuRegAck := true, cpuInitDone := true }

/-- A session at pin level, with nothing in progress. -/
def pinSession : PinState := PinState.quietAt session

/-- The same with a job in progress. -/
def pinWith (j : Job) : PinState := { pinSession with job := j }

/-- Waiting for the picture unit's step to return. -/
def pinInStep : PinState := { PinState.quietAt inPictureStep with tick := some .wait }

/-- A TICK with a RD inside its step, and a cycle in which nothing happens. -/
theorem witness_PinRunIsARunOfTheOperationLevel :
    session.ctx = .host ∧ session.inbox = [] ∧ session.answers = Answers.none
    ∧ ([offer 0x60000000, calm, offer 0x80000100, { calm with go := false }, { prompt with cartHijack := true },
        calm, { calm with ppuStepDone := true }, calm].all fun i => !i.por) = true
    ∧ (pinNextOf (pinRun pinSession [offer 0x60000000, calm, offer 0x80000100, { calm with go := false },
        { prompt with cartHijack := true }, calm, { calm with ppuStepDone := true }, calm])).map
          (fun p => (p.quiet, p.blk.ctx, p.blk.trace)) =
      some (true, .inCpu, [.command 0x60000000, .ppuStep, .command 0x80000100, .cartRead 1 0 true,
        .response 0 .ok, .returned, .cpuStep]) := by decide

theorem witness_PinCycleKeepsTheStateSound :
    PinState.reset.inv = true ∧ pinSession.inv = true ∧ pinInStep.inv = true
    ∧ (pinNextOf (pinCycle pinSession (offer 0x60000000))).isSome = true
    ∧ (pinNextOf (pinCycle PinState.reset calm)).isSome = true := by decide

theorem witness_PinAcceptsWhenReady :
    pinInStep.mode = .running ∧ (offer 0x80000100).por = false ∧ (offer 0x80000100).cmdValid = true
    ∧ (pinOut pinInStep).cmdReady = true ∧ (pinNextOf (pinCycle pinInStep (offer 0x80000100))).isSome = true
    ∧ calm.cmdValid = false ∧ (pinNextOf (pinCycle pinInStep calm)).isSome = true
    ∧ (pinOut (pinWith (.cart .remove true))).cmdReady = false
    ∧ (pinNextOf (pinCycle (pinWith (.cart .remove true)) (offer 0x80000100))).isSome = true := by decide

/-- The response is driven in the cycle after the edge with `go`, and withdrawn at the next. -/
theorem witness_PinResponseLastsOneCycle :
    (pinWith (.respond 7 .ok false)).mode = .running
    ∧ (pinNextOf (pinCycle (pinWith (.respond 7 .ok false)) calm)).map
        (fun q => (q.mode, (pinOut q).rspValid, (pinOut q).rspData)) = some (.running, true, 7)
    ∧ (pinNextOf (pinCycle (pinWith (.respond 7 .ok true)) calm)).map
        (fun q => (q.mode, (pinOut q).rspValid, (pinOut q).rspData)) = some (.running, false, 0) := by decide

theorem witness_PinCartridgeHandshake :
    (pinOut pinSession).cartReq = false
    ∧ [CartCall.read 0xFFFF, .write 0x0001 0x11, .insert 0xFFFFFF, .remove].map (fun c =>
        ((pinWith (.cart c true)).mode, (pinOut (pinWith (.cart c true))).cartReq,
          (pinOut (pinWith (.cart c true))).cartOp,
          (pinNextOf (pinCycle (pinWith (.cart c true)) calm)).map (fun q => (pinOut q).cartReq),
          (pinNextOf (pinCycle (pinWith (.cart c true)) prompt)).map (fun q => (pinOut q).cartReq))) =
      [(.running, true, 0, some true, some false), (.running, true, 1, some true, some false),
        (.running, true, 2, some true, some false), (.running, true, 3, some true, some false)] := by decide

theorem witness_PinRegisterHandshake :
    (pinOut pinSession).ppuRegReq = false ∧ region 0x3FFF = .ppu 7
    ∧ [true, false].map (fun w =>
        ((pinNextOf (pinCycle (pinWith (.reg 7 w 0 true)) calm)).map (fun q => (pinOut q).ppuRegReq),
          (pinNextOf (pinCycle (pinWith (.reg 7 w 0 true)) prompt)).map (fun q => (pinOut q).ppuRegReq))) =
      [(some true, some false), (some true, some false)] := by decide

theorem witness_PinPulsesLastOneCycle :
    (pinOut { pinInStep with tick := some .pulse }).ppuStep = true
    ∧ (pinOut { PinState.quietAt inProcessorStep with tick := some .pulse }).cpuStep = true
    ∧ (pinOut (pinWith (.cpuInit .pulse))).cpuInit = true
    ∧ [{ pinInStep with tick := some .pulse }, { PinState.quietAt inProcessorStep with tick := some .pulse },
        pinWith (.cpuInit .pulse)].map (fun p => (pinNextOf (pinCycle p calm)).map (·.mode)) =
      List.replicate 3 (some .running)
    ∧ (let p := { pinInStep with job := .cart (.read 1) true }
      let i := { calm with ppuStepDone := true }
      p.tick = some .wait ∧ p.stepDone i = true ∧ i.cartAck = false ∧ p.job = .cart (.read 1) true
        ∧ pinFaultOf (pinCycle p i) = some .doneDuringAccess) := by decide

/-- `ppu_step_done` while a reserved-word response is held back, and at the edge that accepts a reserved word, is taken;
the step returns when the response's cycle ends (R192, R195). -/
theorem witness_PinPulsesLastOneCycle_reserved :
    (let p := { pinInStep with job := .respond 0 .illegal false }
      let i := { calm with ppuStepDone := true, go := false }
      p.mode = .running ∧ i.por = false ∧ p.tick = some .wait ∧ p.stepDone i = true
        ∧ (pinNextOf (pinCycle p i)).map (·.tick) = some (some .done))
    ∧ (let i := { offer 0xC0000000 with ppuStepDone := true }
      (pinOut pinInStep).cmdReady = true ∧ i.cmdValid = true ∧ decode i.cmd = none ∧ pinInStep.stepDone i = true
        ∧ (pinNextOf (pinCycle pinInStep i)).map (·.tick) = some (some .done))
    ∧ (let p := { pinInStep with job := .respond 0 .illegal true, tick := some .done }
      p.blk.ctx ≠ .host ∧ (pinNextOf (pinCycle p calm)).map (fun q => (q.tick, q.blk.ctx, q.blk.trace)) =
        some (none, .host, [.returned, .response 0 .ok])) := by decide

theorem witness_PinPowerOnDrivesZero : { calm with por := true }.por = true ∧ calm.por = false := by decide

theorem witness_PinRefusedCommandLeavesOutputsFree :
    pinSession.mode = .running ∧ (offer 0x20000001).por = false
    ∧ ([calm, { calm with go := false }, offer 0x60000000].all fun j => !j.por) = true
    ∧ (offer 0x20000001).cmdValid = true ∧ (pinOut pinSession).cmdReady = true
    ∧ decode (offer 0x20000001).cmd = some (.init 1)
    ∧ refusalOf (exec (.init 1) pinSession.blk) = some .alreadyReady := by decide

theorem witness_PinReservedWordIsAnswered :
    (offer 0xC0000000).cmdValid = true ∧ (pinOut pinInStep).cmdReady = true
    ∧ decode (offer 0xC0000000).cmd = none
    ∧ (pinNextOf (pinCycle pinInStep (offer 0xC0000000))).map (fun q => (q.mode, q.job)) =
      some (.running, .respond 0 .illegal true) := by decide

/-- Each operation but TICK, and a RD inside a step. -/
theorem witness_PinOperationsComplete :
    [(pinSession, 0x80200000, Instr.rd 0x2000), (pinSession, 0xA0000042, .wr 0 0x42), (pinSession, 0x40000000, .shut),
      (PinState.quietAt State.reset, 0x20000001, .init 1), (pinInStep, 0x80200000, .rd 0x2000)].map
        (fun (p, w, i) => decide (p.mode = .running ∧ (pinOut p).cmdReady = true ∧ decode w = some i ∧ i ≠ .tick
          ∧ admission i p.blk = none
          ∧ ((pinNextOf (pinRun p [offer w, prompt, prompt, prompt])).isSome = true))) =
      List.replicate 5 true
    ∧ (prompt.por = false ∧ prompt.go = true ∧ prompt.ppuStepDone = false ∧ prompt.cpuStepDone = false
      ∧ prompt.cmdValid = false ∧ prompt.cartAck = true ∧ prompt.ppuRegAck = true ∧ prompt.cpuInitDone = true) := by
  decide

/-- A tick that steps the processor and one that does not. -/
theorem witness_PinTickPulsesInOrder :
    pinSession.mode = .running ∧ pinSession.job = .none ∧ pinSession.tick = none
    ∧ decode (offer 0x60000000).cmd = some .tick ∧ admission .tick pinSession.blk = none
    ∧ pinSession.blk.mcc % 3 = pinSession.blk.cfg.phase.val
    ∧ (let i := { offer 0x60000000 with ppuStepDone := true, cpuStepDone := true }
      i.por = false ∧ i.go = true ∧ i.cmdValid = true)
    ∧ (PinState.quietAt { session with mcc := 1 }).blk.mcc % 3 ≠ session.cfg.phase.val := by decide

end Sys2Proof.Tests
end

section
/-! The state family: the two-run relation of power-on contents, the invariant of a step, what may change what, and
the counter as a fold of the record. -/

namespace Sys2Proof.Machine

variable {s t : State}

/-! ### The power-on contents of `ram` and `mcc` -/

/-- The same state with other contents of `ram` and `mcc`. -/
def State.withContents (ram : Memory) (mcc : Nat) (s : State) : State := { s with ram := ram, mcc := mcc }

/-- INIT forgets what `ram` and `mcc` held (R150). -/
theorem initEffect_withContents (ram : Memory) (mcc : Nat) (sel : Selector) (s : State) :
    initEffect sel (s.withContents ram mcc) = initEffect sel s := rfl

/-- While OFF no operation depends on the contents of `ram` and `mcc`: INIT overwrites both, all others are refused. -/
theorem exec_withContents_of_off (hl : s.life = .off) (ram : Memory) (mcc : Nat) (i : Instr) :
    exec i (s.withContents ram mcc) = exec i s := by
  have hlife : (s.withContents ram mcc).life = .off := hl
  have hctx : (s.withContents ram mcc).ctx = s.ctx := rfl
  cases i with
  | init sel => simp only [exec, execInit, admission, hctx, hlife, hl, initEffect_withContents]
  | shut => by_cases hc : s.ctx = .host <;> simp [exec, execShut, admission, hctx, hlife, hl, hc, orRefuse]
  | tick => by_cases hc : s.ctx = .host <;> simp [exec, execTick, admission, hctx, hlife, hl, hc, orRefuse]
  | rd a => simp [exec, execRd, admission, hlife, hl, orRefuse]
  | wr a v => simp [exec, execWr, admission, hlife, hl, orRefuse]

/-- With no step outstanding the return of a step is ignored (R195; log 10). -/
theorem stepReturned_of_host (h : s.ctx = .host) : stepReturned s = s := by
  rw [stepReturned, h]

/-- Two OFF states at HOST with different contents of `ram` and `mcc` take the very same step, or both go on, still OFF
at HOST, and still differ only there. -/
theorem step_withContents (hl : s.life = .off) (hc : s.ctx = .host) (ram : Memory) (mcc : Nat) :
    step (s.withContents ram mcc) = step s
    ∨ ∃ t, step s = .next t ∧ step (s.withContents ram mcc) = .next (t.withContents ram mcc)
        ∧ t.life = .off ∧ t.ctx = .host := by
  have hctx : (s.withContents ram mcc).ctx = .host := hc
  match hb : s.inbox with
  | [] =>
    refine .inr ⟨s, ?_, ?_, hl, hc⟩
    · rw [step_idle hb, idle_next.mpr ⟨hc, rfl⟩]
    · rw [step_idle (s := s.withContents ram mcc) hb, idle_next.mpr ⟨hctx, rfl⟩]
  | .command w :: rest =>
    rw [step_command hb, step_command (s := s.withContents ram mcc) hb]
    cases hd : decode w with
    | some i =>
      rw [runWord_decoded hd, runWord_decoded hd]
      exact .inl (exec_withContents_of_off (s := s.accept w rest) hl ram mcc i)
    | none =>
      rw [runWord_reserved hd, runWord_reserved hd]
      exact .inr ⟨_, rfl, rfl, hl, hc⟩
  | .stepReturns :: rest =>
    rw [step_stepReturns hb, step_stepReturns (s := s.withContents ram mcc) hb,
      stepReturned_of_host (s := s.took rest) hc,
      stepReturned_of_host (s := (s.withContents ram mcc).took rest) hctx]
    exact .inr ⟨_, rfl, rfl, hl, hc⟩
  | .powerOn :: rest =>
    rw [step_powerOn hb, step_powerOn (s := s.withContents ram mcc) hb]
    exact .inr ⟨_, rfl, rfl, rfl, rfl⟩

/-- `step_withContents` for runs: the two runs end alike, or both are still OFF at HOST and differ only in `ram` and
`mcc`. -/
theorem runSteps_withContents (ram : Memory) (mcc : Nat) (n : Nat) :
    ∀ s : State, s.life = .off → s.ctx = .host →
      runSteps n (s.withContents ram mcc) = runSteps n s
      ∨ ∃ t, runSteps n s = .next t ∧ runSteps n (s.withContents ram mcc) = .next (t.withContents ram mcc)
          ∧ t.life = .off := by
  induction n with
  | zero => exact fun s hl _ => .inr ⟨s, rfl, rfl, hl⟩
  | succ n ih =>
    intro s hl hc
    rcases step_withContents hl hc ram mcc with heq | ⟨u, hs, hs', hul, huc⟩
    · exact .inl (by rw [runSteps, runSteps, heq])
    · rw [runSteps_of_step hs, runSteps_of_step hs']
      exact ih u hul huc

/-- Settles O35, by `runSteps_withContents`: the runs agree as soon as an INIT is taken, since it overwrites both
contents, and before that nothing reads them. -/
theorem powerOnContentsAreUnobservable : Obligations.PowerOnContentsAreUnobservable := by
  unfold Obligations.PowerOnContentsAreUnobservable
  intro n s ram mcc hl hc
  have hruns := runSteps_withContents ram mcc n s hl hc
  unfold State.withContents at hruns
  rcases hruns with heq | ⟨t, hr, hr', htl⟩
  · rw [heq]
    exact ⟨fun _ h => h, fun _ h => h, fun t h => ⟨t, h, rfl, rfl, rfl, fun _ => rfl⟩⟩
  · rw [hr, hr']
    refine ⟨nofun, nofun, fun t' h => ?_⟩
    cases h
    exact ⟨_, rfl, rfl, rfl, rfl, fun hready => by simp [htl] at hready⟩

/-! ### The invariant -/

/-- The clauses of a sound state. -/
theorem State.inv_iff :
    s.inv = true ↔ s.cfg.wf = true ∧ s.ram.wf = true ∧ s.mcc < 2 ^ s.cfg.cw
      ∧ s.cartRef = decide (s.life = .ready) ∧ s.ctxOk = true := by
  simp [State.inv, and_assoc]

/-- The ranges of the parameters (R7). -/
theorem cfg_wf_iff {c : Config} : c.wf = true ↔ 2 ≤ c.cw ∧ c.mccInit < 2 ^ c.cw := by
  simp [Config.wf]

/-- Outside a TICK `ctx` puts no condition on the rest. -/
theorem State.ctxOk_of_host (h : s.ctx = .host) : s.ctxOk = true := by
  simp [State.ctxOk, h]

/-- In a sound state, while the picture unit steps, the counter is one past the `c` of the TICK in progress (R130). -/
theorem State.ctxOk_inPpu {c : Nat} (h : s.ctx = .inPpu c) :
    s.ctxOk = true ↔ s.life = .ready ∧ c < 2 ^ s.cfg.cw ∧ s.mcc = (c + 1) % 2 ^ s.cfg.cw := by
  simp [State.ctxOk, h, and_assoc]

theorem State.ctxOk_inCpu (h : s.ctx = .inCpu) :
    s.ctxOk = true ↔ s.life = .ready ∧ stepEnable s.cfg ((s.mcc + (2 ^ s.cfg.cw - 1)) % 2 ^ s.cfg.cw) = true := by
  simp [State.ctxOk, h]

/-- Undoing the increment of a counter that wraps at `m` gives back the counter. -/
theorem wrapped_pred_succ {c m : Nat} (h : c < m) : ((c + 1) % m + (m - 1)) % m = c := by
  rw [Nat.mod_add_mod, show c + 1 + (m - 1) = c + m by omega, Nat.add_mod_right, Nat.mod_eq_of_lt h]

/-- What only `ram` sets apart from a sound state is sound if its RAM has the canonical form. -/
theorem inv_of_session (h : s.inv = true) (hst : SameSession s t) (hram : t.ram.wf = true) : t.inv = true := by
  obtain ⟨hcfg, hmcc, hlife, hctx, hcart, -⟩ := hst
  rw [State.inv_iff] at h ⊢
  obtain ⟨hwf, -, hlt, href, hok⟩ := h
  have hok' : t.ctxOk = s.ctxOk := by simp only [State.ctxOk, hcfg, hmcc, hlife, hctx]
  rw [hok', hcfg, hmcc, hlife, hcart]
  exact ⟨hwf, hram, hlt, href, hok⟩

/-- WR keeps the canonical form of RAM. -/
theorem writeEffect_ram_wf (a : Addr) (v : Byte) (h : s.ram.wf = true) : (writeEffect a v s).ram.wf = true := by
  rw [writeEffect_ram]
  split
  · exact h
  · split
    · exact Memory.write_wf (RamIndex.lt_ramSize _) v h
    · exact h
    · exact h

/-- Every operation keeps a sound state sound. -/
theorem exec_inv {i : Instr} (h : s.inv = true) (he : exec i s = .next t) : t.inv = true := by
  obtain ⟨hwf, hram, hlt, href, -⟩ := State.inv_iff.mp h
  cases i with
  | init sel =>
    obtain ⟨⟨hc, -⟩, rfl⟩ := exec_init_next.mp he
    obtain ⟨hcfg, hram', hmcc, hctx, -, hlife, hcart⟩ := initEffect_fields sel s
    rw [State.inv_iff, hcfg, hram', hmcc, hlife, hcart]
    exact ⟨hwf, Memory.zero_wf, (cfg_wf_iff.mp hwf).2, by cases s.insertAnswer <;> rfl,
      State.ctxOk_of_host (hctx.trans hc)⟩
  | shut =>
    obtain ⟨⟨hc, -⟩, rfl⟩ := exec_shut_next.mp he
    exact State.inv_iff.mpr ⟨hwf, hram, hlt, rfl, State.ctxOk_of_host hc⟩
  | tick =>
    obtain ⟨⟨-, hl⟩, rfl⟩ := exec_tick_next.mp he
    exact State.inv_iff.mpr ⟨hwf, hram, Nat.mod_lt _ (Nat.two_pow_pos _), href,
      (State.ctxOk_inPpu rfl).mpr ⟨hl, hlt, rfl⟩⟩
  | rd a =>
    obtain ⟨-, rfl⟩ := exec_rd_next.mp he
    obtain ⟨hst, hram'⟩ := readEffect_session a s
    exact inv_of_session h hst (hram' ▸ hram)
  | wr a v =>
    obtain ⟨-, rfl⟩ := exec_wr_next.mp he
    exact inv_of_session h (writeEffect_session a v s) (writeEffect_ram_wf a v hram)

/-- The return of a step keeps a sound state sound: the processor is stepped exactly where the counter before its
increment enables it (R131). -/
theorem stepReturned_inv (h : s.inv = true) : (stepReturned s).inv = true := by
  obtain ⟨hwf, hram, hlt, href, hok⟩ := State.inv_iff.mp h
  rcases stepReturned_cases s with ⟨-, heq⟩ | ⟨c, hc, hen, heq⟩ | ⟨-, heq⟩
  · rw [heq]
    exact h
  · obtain ⟨hl, hclt, hmcc⟩ := (State.ctxOk_inPpu hc).mp hok
    have hback : (s.mcc + (2 ^ s.cfg.cw - 1)) % 2 ^ s.cfg.cw = c := by rw [hmcc]; exact wrapped_pred_succ hclt
    rw [heq]
    exact State.inv_iff.mpr ⟨hwf, hram, hlt, href, (State.ctxOk_inCpu rfl).mpr ⟨hl, hback.symm ▸ hen⟩⟩
  · rw [heq]
    exact State.inv_iff.mpr ⟨hwf, hram, hlt, href, State.ctxOk_of_host rfl⟩

/-- Power-on makes `life`, `ctx` and the reference agree again, and keeps the bounds of the storage. -/
theorem powerOn_inv (h : s.inv = true) : s.powerOn.inv = true := by
  obtain ⟨hwf, hram, hlt, -, -⟩ := State.inv_iff.mp h
  exact State.inv_iff.mpr ⟨hwf, hram, hlt, rfl, State.ctxOk_of_host rfl⟩

/-- Settles O36, by cases on the first input: each thing a step can do keeps the invariant. -/
theorem stepKeepsTheStateSound : Obligations.StepKeepsTheStateSound := by
  unfold Obligations.StepKeepsTheStateSound
  intro s t h hs
  rcases step_cases hs with ⟨-, -, rfl⟩ | ⟨w, i, rest, -, -, he⟩ | ⟨w, rest, -, -, rfl⟩ | ⟨rest, -, rfl⟩
    | ⟨rest, -, rfl⟩
  · exact h
  · exact exec_inv (s := s.accept w rest) h he
  · exact h
  · exact stepReturned_inv (s := s.took rest) h
  · exact powerOn_inv (s := s.took rest) h

/-! ### What may change what -/

/-- The RAM window of the fixed map is 0x0000 to 0x1FFF, and the index is the address mod 0x0800 (R111, R53). -/
theorem region_ram_toNat {a : Addr} {i : RamIndex} (h : region a = .ram i) :
    a.toNat ≤ 0x1FFF ∧ i.toNat = a.toNat % 0x0800 := by
  unfold region at h
  split at h
  · next hwin =>
    cases h
    have htop := congrArg BitVec.toNat hwin
    have hlt := a.isLt
    simp only [BitVec.extractLsb'_toNat, BitVec.toNat_ofNat] at htop ⊢
    omega
  · split at h <;> cases h

/-- `ram` changes by INIT, or by WR in the RAM window and then in the byte addressed. -/
theorem exec_ram {i : Instr} (h : exec i s = .next t) :
    t.ram = s.ram ∨ (∃ sel, i = .init sel)
      ∨ ∃ a v, i = .wr a v ∧ a.toNat ≤ 0x1FFF
        ∧ ∀ k, k ≠ a.toNat % 0x0800 → Memory.read t.ram k = Memory.read s.ram k := by
  cases i with
  | init sel => exact .inr (.inl ⟨sel, rfl⟩)
  | shut => rw [(exec_shut_next.mp h).2]; exact .inl rfl
  | tick => rw [(exec_tick_next.mp h).2]; exact .inl rfl
  | rd a => rw [(exec_rd_next.mp h).2]; exact .inl (readEffect_session a s).2
  | wr a v =>
    rw [(exec_wr_next.mp h).2, writeEffect_ram]
    split
    · exact .inl rfl
    · split
      · next i hreg =>
        obtain ⟨hwin, hi⟩ := region_ram_toNat hreg
        exact .inr (.inr ⟨a, v, rfl, hwin, fun k hk => Memory.read_write_other (hi ▸ hk.symm) v s.ram⟩)
      · exact .inl rfl
      · exact .inl rfl

/-- The counter changes by TICK and INIT only. -/
theorem exec_mcc {i : Instr} (h : exec i s = .next t) : t.mcc = s.mcc ∨ i = .tick ∨ ∃ sel, i = .init sel := by
  cases i with
  | init sel => exact .inr (.inr ⟨sel, rfl⟩)
  | shut => rw [(exec_shut_next.mp h).2]; exact .inl rfl
  | tick => exact .inr (.inl rfl)
  | rd a => rw [(exec_rd_next.mp h).2]; obtain ⟨⟨-, hmcc, -⟩, -⟩ := readEffect_session a s; exact .inl hmcc
  | wr a v => rw [(exec_wr_next.mp h).2]; obtain ⟨-, hmcc, -⟩ := writeEffect_session a v s; exact .inl hmcc

/-- `life` and the reference change by SHUT and INIT only. -/
theorem exec_life {i : Instr} (h : exec i s = .next t) :
    (t.life = s.life ∧ t.cartRef = s.cartRef) ∨ i = .shut ∨ ∃ sel, i = .init sel := by
  cases i with
  | init sel => exact .inr (.inr ⟨sel, rfl⟩)
  | shut => exact .inr (.inl rfl)
  | tick => rw [(exec_tick_next.mp h).2]; exact .inl ⟨rfl, rfl⟩
  | rd a =>
    rw [(exec_rd_next.mp h).2]
    obtain ⟨⟨-, -, hlife, -, hcart, -⟩, -⟩ := readEffect_session a s
    exact .inl ⟨hlife, hcart⟩
  | wr a v =>
    rw [(exec_wr_next.mp h).2]
    obtain ⟨-, -, hlife, -, hcart, -⟩ := writeEffect_session a v s
    exact .inl ⟨hlife, hcart⟩

/-- `ctx` changes by TICK only. -/
theorem exec_ctx {i : Instr} (h : exec i s = .next t) : t.ctx = s.ctx ∨ i = .tick := by
  cases i with
  | init sel =>
    rw [(exec_init_next.mp h).2]
    obtain ⟨-, -, -, hctx, -⟩ := initEffect_fields sel s
    exact .inl hctx
  | shut => rw [(exec_shut_next.mp h).2]; exact .inl rfl
  | tick => exact .inr rfl
  | rd a => rw [(exec_rd_next.mp h).2]; obtain ⟨⟨-, -, -, hctx, -⟩, -⟩ := readEffect_session a s; exact .inl hctx
  | wr a v => rw [(exec_wr_next.mp h).2]; obtain ⟨-, -, -, hctx, -⟩ := writeEffect_session a v s; exact .inl hctx

/-- The return of a step changes no element of the block but `ctx`. -/
theorem stepReturned_frame (s : State) :
    (stepReturned s).cfg = s.cfg ∧ (stepReturned s).ram = s.ram ∧ (stepReturned s).mcc = s.mcc
      ∧ (stepReturned s).life = s.life ∧ (stepReturned s).cartRef = s.cartRef := by
  rcases stepReturned_cases s with ⟨-, heq⟩ | ⟨-, -, -, heq⟩ | ⟨-, heq⟩ <;> rw [heq]
  all_goals exact ⟨rfl, rfl, rfl, rfl, rfl⟩

/-- No step changes the parameters (R7). -/
theorem step_cfg (h : step s = .next t) : t.cfg = s.cfg := by
  rcases step_cases h with ⟨-, -, rfl⟩ | ⟨w, i, rest, -, -, he⟩ | ⟨w, rest, -, -, rfl⟩ | ⟨rest, -, rfl⟩
    | ⟨rest, -, rfl⟩
  · rfl
  · exact exec_cfg (s := s.accept w rest) he
  · rfl
  · exact (stepReturned_frame _).1
  · rfl

/-- Settles O31, by cases on the first input, with one change lemma for each element under an operation. -/
theorem stateChangesOnlyByItsOwnOperations : Obligations.StateChangesOnlyByItsOwnOperations := by
  unfold Obligations.StateChangesOnlyByItsOwnOperations
  intro s t h
  refine ⟨step_cfg h, ?_⟩
  rcases step_cases h with ⟨-, -, rfl⟩ | ⟨w, i, rest, hb, hd, he⟩ | ⟨w, rest, -, -, rfl⟩ | ⟨rest, hb, rfl⟩
    | ⟨rest, hb, rfl⟩
  case inl => exact ⟨absurd rfl, absurd rfl, absurd rfl, absurd rfl, absurd rfl⟩
  case inr.inl =>
    have word : ∀ {P : Cmd → Prop}, P w → ∃ w rest, s.inbox = .command w :: rest ∧ P w :=
      fun hp => ⟨w, rest, hb, hp⟩
    refine ⟨fun hne => word ?_, fun hne => word ?_, fun hne => .inr (word ?_), fun hne => .inr (word ?_),
      fun hne => .inr (.inr (word ?_))⟩
    · rcases exec_ram he with heq | ⟨sel, rfl⟩ | ⟨a, v, rfl, hbyte⟩
      · exact absurd heq hne
      · exact .inl ⟨sel, hd⟩
      · exact .inr ⟨a, v, hd, hbyte⟩
    · rcases exec_mcc he with heq | rfl | ⟨sel, rfl⟩
      · exact absurd heq hne
      · exact .inl hd
      · exact .inr ⟨sel, hd⟩
    · rcases exec_life he with ⟨heq, -⟩ | rfl | ⟨sel, rfl⟩
      · exact absurd heq hne
      · exact .inl hd
      · exact .inr ⟨sel, hd⟩
    · rcases exec_life he with ⟨-, heq⟩ | rfl | ⟨sel, rfl⟩
      · exact absurd heq hne
      · exact .inl hd
      · exact .inr ⟨sel, hd⟩
    · rcases exec_ctx he with heq | rfl
      · exact absurd heq hne
      · exact hd
  case inr.inr.inl => exact ⟨absurd rfl, absurd rfl, absurd rfl, absurd rfl, absurd rfl⟩
  case inr.inr.inr.inl =>
    obtain ⟨-, hram, hmcc, hlife, hcart⟩ := stepReturned_frame (s.took rest)
    exact ⟨absurd hram, absurd hmcc, absurd hlife, absurd hcart, fun _ => .inr (.inl ⟨rest, hb⟩)⟩
  case inr.inr.inr.inr =>
    exact ⟨absurd rfl, absurd rfl, fun _ => .inl ⟨rest, hb⟩, fun _ => .inl ⟨rest, hb⟩, fun _ => .inl ⟨rest, hb⟩⟩

/-! ### The counter is a fold of the record -/

theorem mccOfTrace_append (cfg : Config) (c : Nat) (es es' : List Event) :
    mccOfTrace cfg c (es ++ es') = mccOfTrace cfg (mccOfTrace cfg c es) es' := List.foldl_append

/-- The events of a RD leave the counter alone. -/
theorem mccOfTrace_readEvents (cfg : Config) (c : Nat) (a : Addr) (s : State) :
    mccOfTrace cfg c (readEvents a s) = c := by
  unfold readEvents
  split
  · rfl
  · split <;> rfl

/-- The events of a WR leave the counter alone. -/
theorem mccOfTrace_writeEvents (cfg : Config) (c : Nat) (a : Addr) (v : Byte) (s : State) :
    mccOfTrace cfg c (writeEvents a v s) = c := by
  unfold writeEvents
  split
  · rfl
  · split <;> rfl

/-- The events of an INIT set the counter to MCC_INIT, whatever the cartridge answers (R150). -/
theorem mccOfTrace_initEvents (cfg : Config) (c : Nat) (sel : Selector) (s : State) :
    mccOfTrace cfg c (initEvents sel s) = cfg.mccInit := by
  unfold initEvents
  split <;> rfl

/-- An operation leaves in the counter what its own events say. -/
theorem exec_mcc_of_events {i : Instr} (h : exec i s = .next t) :
    t.mcc = mccOfTrace s.cfg s.mcc (instrEvents i s) := by
  cases i with
  | init sel =>
    obtain ⟨-, -, hmcc, -⟩ := initEffect_fields sel s
    rw [(exec_init_next.mp h).2, hmcc, instrEvents, mccOfTrace_initEvents]
  | shut => rw [(exec_shut_next.mp h).2]; rfl
  | tick => rw [(exec_tick_next.mp h).2]; rfl
  | rd a =>
    obtain ⟨⟨-, hmcc, -⟩, -⟩ := readEffect_session a s
    rw [(exec_rd_next.mp h).2, hmcc, instrEvents, mccOfTrace_readEvents]
  | wr a v =>
    obtain ⟨-, hmcc, -⟩ := writeEffect_session a v s
    rw [(exec_wr_next.mp h).2, hmcc, instrEvents, mccOfTrace_writeEvents]

/-- From `s` to `t` something was added to the record, and the counter is what it says. -/
def CounterFollowsRecord (s t : State) : Prop :=
  ∃ es, t.trace = s.trace ++ es ∧ t.mcc = mccOfTrace s.cfg s.mcc es

theorem CounterFollowsRecord.refl (s : State) : CounterFollowsRecord s s := ⟨[], by simp, rfl⟩

/-- Of two parts of a run with the same parameters, the second continues the fold of the first. -/
theorem CounterFollowsRecord.trans {u : State} (hcfg : t.cfg = s.cfg) (h : CounterFollowsRecord s t)
    (h' : CounterFollowsRecord t u) : CounterFollowsRecord s u := by
  obtain ⟨es, htr, hmcc⟩ := h
  obtain ⟨es', htr', hmcc'⟩ := h'
  exact ⟨es ++ es', by rw [htr', htr, List.append_assoc], by rw [hmcc', hmcc, hcfg, mccOfTrace_append]⟩

theorem stepReturned_counterFollowsRecord (s : State) : CounterFollowsRecord s (stepReturned s) := by
  rcases stepReturned_cases s with ⟨-, heq⟩ | ⟨-, -, -, heq⟩ | ⟨-, heq⟩ <;> rw [heq]
  · exact .refl s
  · exact ⟨[.returned, .cpuStep], rfl, rfl⟩
  · exact ⟨[.returned, .response 0 .ok], by simp, rfl⟩

theorem step_counterFollowsRecord (h : step s = .next t) : CounterFollowsRecord s t := by
  rcases step_cases h with ⟨-, -, rfl⟩ | ⟨w, i, rest, -, -, he⟩ | ⟨w, rest, -, -, rfl⟩ | ⟨rest, -, rfl⟩
    | ⟨rest, -, rfl⟩
  · exact .refl _
  · exact ⟨.command w :: instrEvents i (s.accept w rest), by simp [exec_trace he],
      exec_mcc_of_events (s := s.accept w rest) he⟩
  · exact ⟨[.command w, .response 0 .illegal], by simp [State.reservedWord], rfl⟩
  · exact stepReturned_counterFollowsRecord (s.took rest)
  · exact ⟨[.powerOn], rfl, rfl⟩

/-- Settles O33, by induction over the run: every step's counter follows what it records, and the folds compose. -/
theorem counterIsTheTicksSinceInit : Obligations.CounterIsTheTicksSinceInit := by
  unfold Obligations.CounterIsTheTicksSinceInit
  intro n s t h
  exact runSteps_induction (R := CounterFollowsRecord) .refl
    (fun _ _ _ hs hr => (step_counterFollowsRecord hs).trans (step_cfg hs) hr) h

/-! ### The accepted command, and power-on -/

/-- A whole command word numbered as a table word is itself (R80). -/
theorem tableWord_toNat (w : Cmd) : tableWord 32 w.toNat = w := by
  rw [tableWord, Nat.mod_eq_of_lt w.isLt, BitVec.ofNat_toNat, BitVec.setWidth_eq]

/-- Settles O6: the step takes the first input and runs it; `withFetchWord` puts its word there. -/
theorem stepRunsTheAcceptedCommand : Obligations.StepRunsTheAcceptedCommand := by
  unfold Obligations.StepRunsTheAcceptedCommand
  constructor
  · intro s w rest i hb hd
    exact (step_command hb).trans (runWord_decoded hd)
  · intro s w i hd
    rw [State.withFetchWord, tableWord_toNat]
    exact (step_command (s := s.offer w) rfl).trans (runWord_decoded hd)

/-- Settles O37: the reset state meets each clause of the invariant (R35, R240). -/
theorem powerOnStateIsSound : Obligations.PowerOnStateIsSound := by
  unfold Obligations.PowerOnStateIsSound
  exact ⟨rfl, rfl, rfl, State.inv_iff.mpr ⟨by decide, Memory.zero_wf, by decide, rfl, State.ctxOk_of_host rfl⟩⟩

end Sys2Proof.Machine
end

section
/-! The memory family: RAM as a fold of the record, and the values of passed reads. -/

namespace Sys2Proof.Machine

variable {s t : State}

/-! ### Reads that the cartridge passes -/

/-- A passed RD in the RAM window records its offer and answers the byte (R112). -/
theorem readEvents_of_passed_ram {a : Addr} {i : RamIndex} (hpass : s.readAnswer.2 = false)
    (hreg : region a = .ram i) :
    readEvents a s = [.cartRead a s.readAnswer.1 false, .response (s.readRam i) .ok] := by
  simp [readEvents, hpass, hreg]

/-- A passed unmapped RD takes one free byte and answers it (R55, R112). -/
theorem readEffect_of_passed_unmapped {a : Addr} (hpass : s.readAnswer.2 = false) (hreg : region a = .unmapped) :
    readEffect a s = (s.afterCartRead a).afterDraw.respond (s.afterCartRead a).drawn .ok := by
  simp [readEffect, readFixedMap, hpass, hreg]

/-- From 0x4000 on the fixed map gives no handler (R111). -/
theorem region_unmapped_of_le {a : Addr} (h : 0x4000 ≤ a.toNat) : region a = .unmapped := by
  have hlt := a.isLt
  have htop : (a.extractLsb' 13 3).toNat ≠ 0 ∧ (a.extractLsb' 13 3).toNat ≠ 1 := by
    rw [BitVec.extractLsb'_toNat, Nat.shiftRight_eq_div_pow]
    omega
  unfold region
  rw [if_neg fun hw => htop.1 (congrArg BitVec.toNat hw), if_neg fun hw => htop.2 (congrArg BitVec.toNat hw)]

/-- A passed unmapped RD with a scripted offer: it answers the next free byte, moves the draw counter past it, and uses
up one answer of the script. -/
theorem exec_rd_passed_unmapped {a : Addr} {vc : Byte} {xs : List (Byte × Bool)} (hl : s.life = .ready)
    (ha : 0x4000 ≤ a.toNat) (hscript : s.answers.cartRead = (vc, false) :: xs) :
    ∃ t, exec (.rd a) s = .next t
      ∧ t.trace = s.trace ++ [.cartRead a vc false, .response (Config.freeByte s.draws) .ok]
      ∧ t.life = .ready ∧ t.answers.cartRead = xs ∧ t.draws = s.draws + 1 := by
  have hanswer : s.readAnswer = (vc, false) := readAnswer_cons hscript
  have heffect := readEffect_of_passed_unmapped (by rw [hanswer]) (region_unmapped_of_le ha)
  refine ⟨_, exec_rd_next.mpr ⟨hl, heffect.symm⟩, ?_, hl, ?_, ?_⟩ <;>
    simp [hanswer, hscript, drawsAfter, State.drawn]

/-- Settles O15: the first read leaves the draw counter one further, and the second read is such a read again. -/
theorem unmappedReadsDrawFreshValues : Obligations.UnmappedReadsDrawFreshValues := by
  unfold Obligations.UnmappedReadsDrawFreshValues
  intro s a b vc vc' xs hl ha hb hscript
  obtain ⟨t, ht, htrace, htl, htscript, hdraws⟩ := exec_rd_passed_unmapped hl ha hscript
  obtain ⟨u, hu, hutrace, -⟩ := exec_rd_passed_unmapped htl hb htscript
  exact ⟨t, u, ht, hu, htrace, hdraws ▸ hutrace⟩

/-! ### RAM is a fold of the record -/

theorem ramOfTrace_append (i : RamIndex) (b : Byte) (es es' : List Event) :
    ramOfTrace i b (es ++ es') = ramOfTrace i (ramOfTrace i b es) es' := List.foldl_append

/-- The events of a RD leave RAM alone. -/
theorem ramOfTrace_readEvents (i : RamIndex) (b : Byte) (a : Addr) (s : State) :
    ramOfTrace i b (readEvents a s) = b := by
  unfold readEvents
  split
  · rfl
  · split <;> rfl

/-- The events of a WR set the byte it reached, if the cartridge passed it, and leave every other byte alone (R113). -/
theorem ramOfTrace_writeEvents (i : RamIndex) (b : Byte) (a : Addr) (v : Byte) (s : State) :
    ramOfTrace i b (writeEvents a v s) = if s.writeAnswer = false ∧ region a = .ram i then v else b := by
  unfold writeEvents
  split
  · rfl
  · split <;> rfl

/-- The events of an INIT set every byte to 0x00, whatever the cartridge answers (R150). -/
theorem ramOfTrace_initEvents (i : RamIndex) (b : Byte) (sel : Selector) (s : State) :
    ramOfTrace i b (initEvents sel s) = 0 := by
  unfold initEvents
  split <;> rfl

/-- In RAM of the canonical form a write changes the byte at its own index and no other. -/
theorem Memory.read_write {m : Memory} (h : m.wf = true) (i j : RamIndex) (v : Byte) :
    Memory.read (Memory.write m j.toNat v) i.toNat = if j = i then v else Memory.read m i.toNat := by
  split
  · next heq => rw [heq, Memory.read_write_same v h]
  · next hne => exact Memory.read_write_other (fun hnat => hne (BitVec.eq_of_toNat_eq hnat)) v m

/-- WR leaves in each RAM byte the value written where it is passed and reaches the byte, and else what was there
(R113). -/
theorem writeEffect_readRam (hram : s.ram.wf = true) (a : Addr) (v : Byte) (i : RamIndex) :
    (writeEffect a v s).readRam i = if s.writeAnswer = false ∧ region a = .ram i then v else s.readRam i := by
  unfold State.readRam
  rw [writeEffect_ram]
  cases s.writeAnswer with
  | true => simp
  | false => cases hreg : region a <;> simp [Memory.read_write hram]

/-- An operation leaves in each RAM byte what its own events say. -/
theorem exec_readRam_of_events {k : Instr} (hram : s.ram.wf = true) (h : exec k s = .next t) (i : RamIndex) :
    t.readRam i = ramOfTrace i (s.readRam i) (instrEvents k s) := by
  cases k with
  | init sel =>
    obtain ⟨-, hzero, -⟩ := initEffect_fields sel s
    rw [(exec_init_next.mp h).2, State.readRam, hzero, instrEvents, ramOfTrace_initEvents]
    rfl
  | shut => rw [(exec_shut_next.mp h).2]; rfl
  | tick => rw [(exec_tick_next.mp h).2]; rfl
  | rd a =>
    rw [(exec_rd_next.mp h).2, State.readRam, (readEffect_session a s).2, instrEvents, ramOfTrace_readEvents]
    rfl
  | wr a v => rw [(exec_wr_next.mp h).2, writeEffect_readRam hram, instrEvents, ramOfTrace_writeEvents]

/-- From `s` to `t` something was added to the record, and every RAM byte is what it says. -/
def RamFollowsRecord (s t : State) : Prop :=
  ∃ es, t.trace = s.trace ++ es ∧ ∀ i, t.readRam i = ramOfTrace i (s.readRam i) es

theorem RamFollowsRecord.refl (s : State) : RamFollowsRecord s s := ⟨[], by simp, fun _ => rfl⟩

/-- Of two parts of a run, the second continues the fold of the first. -/
theorem RamFollowsRecord.trans {u : State} (h : RamFollowsRecord s t) (h' : RamFollowsRecord t u) :
    RamFollowsRecord s u := by
  obtain ⟨es, htr, hram⟩ := h
  obtain ⟨es', htr', hram'⟩ := h'
  exact ⟨es ++ es', by rw [htr', htr, List.append_assoc], fun i => by rw [hram', hram, ramOfTrace_append]⟩

theorem stepReturned_ramFollowsRecord (s : State) : RamFollowsRecord s (stepReturned s) := by
  rcases stepReturned_cases s with ⟨-, heq⟩ | ⟨-, -, -, heq⟩ | ⟨-, heq⟩ <;> rw [heq]
  · exact .refl s
  · exact ⟨[.returned, .cpuStep], rfl, fun _ => rfl⟩
  · exact ⟨[.returned, .response 0 .ok], by simp, fun _ => rfl⟩

theorem step_ramFollowsRecord (hram : s.ram.wf = true) (h : step s = .next t) : RamFollowsRecord s t := by
  rcases step_cases h with ⟨-, -, rfl⟩ | ⟨w, k, rest, -, -, he⟩ | ⟨w, rest, -, -, rfl⟩ | ⟨rest, -, rfl⟩
    | ⟨rest, -, rfl⟩
  · exact .refl _
  · exact ⟨.command w :: instrEvents k (s.accept w rest), by simp [exec_trace he],
      exec_readRam_of_events (s := s.accept w rest) hram he⟩
  · exact ⟨[.command w, .response 0 .illegal], by simp [State.reservedWord], fun _ => rfl⟩
  · exact stepReturned_ramFollowsRecord (s.took rest)
  · exact ⟨[.powerOn], rfl, fun _ => rfl⟩

/-- In a run from a sound state RAM follows the record: every step keeps the state sound, and the folds compose. -/
theorem runSteps_ramFollowsRecord {n : Nat} (hinv : s.inv = true) (h : runSteps n s = .next t) :
    RamFollowsRecord s t := by
  refine runSteps_induction (R := fun u v => u.inv = true → RamFollowsRecord u v) (fun u _ => .refl u) ?_ h hinv
  intro u v w hs hrest hu
  obtain ⟨-, hram, -⟩ := State.inv_iff.mp hu
  exact (step_ramFollowsRecord hram hs).trans (hrest (stepKeepsTheStateSound u v hu hs))

/-- Settles O32: RAM follows the record in any run (`runSteps_ramFollowsRecord`), and a passed RD answers the byte RAM
holds at its end. -/
theorem ramReadReturnsTheLatestWrite : Obligations.RamReadReturnsTheLatestWrite := by
  unfold Obligations.RamReadReturnsTheLatestWrite
  intro n s t hinv hrun
  obtain ⟨es, htrace, hram⟩ := runSteps_ramFollowsRecord hinv hrun
  refine ⟨es, htrace, hram, fun a i hreg hl hpass => ?_⟩
  refine ⟨readEffect a t, t.readAnswer.1, exec_rd_next.mpr ⟨hl, rfl⟩, ?_⟩
  rw [readEffect_trace, readEvents_of_passed_ram hpass hreg, hram]

end Sys2Proof.Machine
end

section
/-! The encoding family: a word by its fields and by its number, the rows of R85, decode and encode inverse to each
other, and the reserved words. -/

namespace Sys2Proof

variable {w w' : Cmd}

/-! ### The fields of a word as numbers -/

theorem op_toNat (w : Cmd) : (rawOf w).op.toNat = w.toNat / 2 ^ 29 := by
  have hlt := w.isLt
  simp only [rawOf, BitVec.extractLsb'_toNat, Nat.shiftRight_eq_div_pow]
  omega

theorem z_toNat (w : Cmd) : (rawOf w).z.toNat = w.toNat / 2 ^ 24 % 2 ^ 5 := by
  simp only [rawOf, BitVec.extractLsb'_toNat, Nat.shiftRight_eq_div_pow]

theorem addrOf_toNat (w : Cmd) : (addrOf w).toNat = w.toNat / 2 ^ 8 % 2 ^ 16 := by
  simp only [addrOf, BitVec.extractLsb'_toNat, Nat.shiftRight_eq_div_pow]

theorem dataOf_toNat (w : Cmd) : (dataOf w).toNat = w.toNat % 2 ^ 8 := by
  simp only [dataOf, BitVec.extractLsb'_toNat, Nat.shiftRight_zero]

theorem selOf_toNat (w : Cmd) : (selOf w).toNat = w.toNat % 2 ^ 24 := by
  simp only [selOf, BitVec.extractLsb'_toNat, Nat.shiftRight_zero]

/-- A word is its four fields (R81). -/
theorem rawOf_inj : rawOf w = rawOf w' ↔ w = w' := by
  refine ⟨fun h => BitVec.eq_of_toNat_eq ?_, congrArg rawOf⟩
  have hop := congrArg (fun r => r.op.toNat) h
  have hz := congrArg (fun r => r.z.toNat) h
  have ha : (addrOf w).toNat = (addrOf w').toNat := congrArg (fun r => r.addr.toNat) h
  have hd : (dataOf w).toNat = (dataOf w').toNat := congrArg (fun r => r.data.toNat) h
  simp only [op_toNat, z_toNat] at hop hz
  rw [addrOf_toNat, addrOf_toNat] at ha
  rw [dataOf_toNat, dataOf_toNat] at hd
  omega

/-- The selector is the address field followed by the data field (R84: `sel = cmd[23:0]`). -/
theorem selOf_eq_iff {sel : Selector} :
    selOf w = sel ↔ addrOf w = sel.extractLsb' 8 16 ∧ dataOf w = sel.extractLsb' 0 8 := by
  have hlt := sel.isLt
  simp only [← BitVec.toNat_inj, selOf_toNat, addrOf_toNat, dataOf_toNat, BitVec.extractLsb'_toNat,
    Nat.shiftRight_eq_div_pow]
  omega

/-! ### The rows of the table -/

/-- A row whose mask fixes `op` and `z`, and whose pattern has no operand bit set, selects a word by its fields
(R85). -/
theorem Row.selects_iff {r : Row} {op : BitVec 3} {am : Addr} {dm : Byte}
    (hmask : rawOf r.mask = ⟨BitVec.allOnes 3, BitVec.allOnes 5, am, dm⟩)
    (hpattern : rawOf r.pattern = ⟨op, 0#5, 0#16, 0#8⟩) :
    r.selects w = true
      ↔ (rawOf w).op = op ∧ (rawOf w).z = 0#5 ∧ addrOf w &&& am = 0#16 ∧ dataOf w &&& dm = 0#8 := by
  have hand : rawOf (w &&& r.mask) = ⟨(rawOf w).op, (rawOf w).z, addrOf w &&& am, dataOf w &&& dm⟩ := by
    simp only [rawOf, RawCmd.mk.injEq] at hmask
    obtain ⟨hop, hz, ha, hd⟩ := hmask
    simp only [addrOf, dataOf] at ha hd
    simp only [rawOf, addrOf, dataOf, BitVec.extractLsb'_and, hop, hz, ha, hd, BitVec.and_allOnes]
  rw [Row.selects, beq_iff_eq, ← rawOf_inj, hand, hpattern, RawCmd.mk.injEq]

theorem selects_init_iff : rowInit.selects w = true ↔ (rawOf w).op = 1#3 ∧ (rawOf w).z = 0#5 := by
  rw [Row.selects_iff (op := 1) (am := 0) (dm := 0) (by decide) (by decide)]
  simp

theorem selects_shut_iff : rowShut.selects w = true
    ↔ (rawOf w).op = 2#3 ∧ (rawOf w).z = 0#5 ∧ addrOf w = 0#16 ∧ dataOf w = 0#8 := by
  rw [Row.selects_iff (op := 2#3) (am := .allOnes 16) (dm := .allOnes 8) (by decide) (by decide),
    BitVec.and_allOnes, BitVec.and_allOnes]

theorem selects_tick_iff : rowTick.selects w = true
    ↔ (rawOf w).op = 3#3 ∧ (rawOf w).z = 0#5 ∧ addrOf w = 0#16 ∧ dataOf w = 0#8 := by
  rw [Row.selects_iff (op := 3#3) (am := .allOnes 16) (dm := .allOnes 8) (by decide) (by decide),
    BitVec.and_allOnes, BitVec.and_allOnes]

theorem selects_rd_iff : rowRd.selects w = true
    ↔ (rawOf w).op = 4#3 ∧ (rawOf w).z = 0#5 ∧ dataOf w = 0#8 := by
  rw [Row.selects_iff (op := 4) (am := 0) (dm := .allOnes 8) (by decide) (by decide), BitVec.and_allOnes]
  simp

theorem selects_wr_iff : rowWr.selects w = true ↔ (rawOf w).op = 5#3 ∧ (rawOf w).z = 0#5 := by
  rw [Row.selects_iff (op := 5) (am := 0) (dm := 0) (by decide) (by decide)]
  simp

/-- A selected word has the operation code of its row (R82). -/
theorem op_of_selects {r : Row} (hr : r ∈ rows) (h : r.selects w = true) : (rawOf w).op = (rawOf r.pattern).op := by
  simp only [rows, List.mem_cons, List.not_mem_nil, or_false] at hr
  rcases hr with rfl | rfl | rfl | rfl | rfl
  · exact (selects_init_iff.mp h).1
  · exact (selects_shut_iff.mp h).1
  · exact (selects_tick_iff.mp h).1
  · exact (selects_rd_iff.mp h).1
  · exact (selects_wr_iff.mp h).1

/-- The match sets are disjoint because the operation codes differ (R85). -/
theorem row_unique {r r' : Row} (hr : r ∈ rows) (hr' : r' ∈ rows) (h : r.selects w = true)
    (h' : r'.selects w = true) : r = r' := by
  have hdistinct : ∀ r ∈ rows, ∀ r' ∈ rows, (rawOf r.pattern).op = (rawOf r'.pattern).op → r = r' := by decide
  exact hdistinct r hr r' hr' ((op_of_selects hr h).symm.trans (op_of_selects hr' h'))

/-! ### The decoder -/

/-- The decoder gives none exactly where no row selects (R85). -/
theorem decode_eq_none_iff : decode w = none ↔ ∀ r ∈ rows, r.selects w = false := by
  simp [decode, rows, ite_eq_iff]

/-- The operands of an operation are the fields of the word (R84). -/
def operandsIn (w : Cmd) : Instr → Prop
  | .init sel => selOf w = sel
  | .shut => True
  | .tick => True
  | .rd a => addrOf w = a
  | .wr a v => addrOf w = a ∧ dataOf w = v

/-- A word that an operation's row selects and that holds its operands decodes to it: the rows before it in the
decoder have other operation codes. -/
theorem decode_of_selects {i : Instr} (hsel : (rowOf i).selects w = true) (hops : operandsIn w i) :
    decode w = some i := by
  cases i with
  | init sel =>
    cases hops
    exact if_pos hsel
  | shut =>
    rw [rowOf] at hsel
    obtain ⟨hop, -⟩ := selects_shut_iff.mp hsel
    simp [decode, selects_init_iff, hop, hsel]
  | tick =>
    rw [rowOf] at hsel
    obtain ⟨hop, -⟩ := selects_tick_iff.mp hsel
    simp [decode, selects_init_iff, selects_shut_iff, hop, hsel]
  | rd a =>
    cases hops
    rw [rowOf] at hsel
    obtain ⟨hop, -⟩ := selects_rd_iff.mp hsel
    simp [decode, selects_init_iff, selects_shut_iff, selects_tick_iff, hop, hsel]
  | wr a v =>
    obtain ⟨rfl, rfl⟩ := hops
    rw [rowOf] at hsel
    obtain ⟨hop, -⟩ := selects_wr_iff.mp hsel
    simp [decode, selects_init_iff, selects_shut_iff, selects_tick_iff, selects_rd_iff, hop, hsel]

/-- A word that decodes is selected by the row of its operation and holds its operands. -/
theorem decode_some {i : Instr} (h : decode w = some i) : (rowOf i).selects w = true ∧ operandsIn w i := by
  unfold decode at h
  split at h
  · next hsel => cases h; exact ⟨hsel, rfl⟩
  split at h
  · next hsel => cases h; exact ⟨hsel, trivial⟩
  split at h
  · next hsel => cases h; exact ⟨hsel, trivial⟩
  split at h
  · next hsel => cases h; exact ⟨hsel, rfl⟩
  split at h
  · next hsel => cases h; exact ⟨hsel, rfl, rfl⟩
  · cases h

/-! ### Encoder and decoder -/

/-- A word is put together from `op`, `addr` and `data` exactly if those are its fields and `z = 0` (R81). -/
theorem wordOf_eq_iff {op : BitVec 3} {a : Addr} {d : Byte} :
    wordOf op a d = w ↔ (rawOf w).op = op ∧ (rawOf w).z = 0#5 ∧ addrOf w = a ∧ dataOf w = d := by
  rw [eq_comm, ← rawOf_inj, rawOf_wordOf, rawOf, RawCmd.mk.injEq]
  exact Iff.rfl

/-- The word of an operation is the one word that the operation's row selects and that holds its operands. -/
theorem encode_eq_iff {i : Instr} : encode i = w ↔ (rowOf i).selects w = true ∧ operandsIn w i := by
  cases i with
  | init sel => rw [encode, rowOf, wordOf_eq_iff, selects_init_iff, operandsIn, selOf_eq_iff, and_assoc]
  | shut => rw [encode, rowOf, wordOf_eq_iff, selects_shut_iff, operandsIn, and_true]
  | tick => rw [encode, rowOf, wordOf_eq_iff, selects_tick_iff, operandsIn, and_true]
  | rd a =>
    rw [encode, rowOf, wordOf_eq_iff, selects_rd_iff, operandsIn, and_comm (a := addrOf w = a), and_assoc, and_assoc]
  | wr a v => rw [encode, rowOf, wordOf_eq_iff, selects_wr_iff, operandsIn, and_assoc]

/-- Settles O3: the word of an operation is selected by its row and holds its operands. -/
theorem decodeOfEncodeIsTheOperation : Obligations.DecodeOfEncodeIsTheOperation := by
  unfold Obligations.DecodeOfEncodeIsTheOperation
  intro i
  obtain ⟨hsel, hops⟩ := encode_eq_iff.mp (rfl : encode i = encode i)
  exact decode_of_selects hsel hops

/-- Settles O4: what a word decodes to has the word's row and operands, and that fixes its encoding. -/
theorem decodedWordIsItsEncoding : Obligations.DecodedWordIsItsEncoding := by
  unfold Obligations.DecodedWordIsItsEncoding
  intro w i h
  exact encode_eq_iff.mpr (decode_some h)

/-- Settles O1: each row by the decoder's arm for it, the fields read as numbers; disjointness by the operation
codes. -/
theorem decoderFollowsTheMatchAndMaskTable : Obligations.DecoderFollowsTheMatchAndMaskTable := by
  unfold Obligations.DecoderFollowsTheMatchAndMaskTable
  refine ⟨fun w => ?_, by decide⟩
  have hsel : BitVec.ofNat 24 w.toNat = selOf w := rfl
  have haddr : BitVec.ofNat 16 (w.toNat / 2 ^ 8) = addrOf w := by
    rw [← Nat.shiftRight_eq_div_pow]
    rfl
  have hdata : BitVec.ofNat 8 w.toNat = dataOf w := rfl
  rw [hsel, haddr, hdata]
  refine ⟨fun h => decode_of_selects (i := .init (selOf w)) (beq_iff_eq.mpr h) rfl,
    fun h => decode_of_selects (i := .shut) (beq_iff_eq.mpr h) trivial,
    fun h => decode_of_selects (i := .tick) (beq_iff_eq.mpr h) trivial,
    fun h => decode_of_selects (i := .rd (addrOf w)) (beq_iff_eq.mpr h) rfl,
    fun h => decode_of_selects (i := .wr (addrOf w) (dataOf w)) (beq_iff_eq.mpr h) ⟨rfl, rfl⟩,
    fun hi hs ht hr hw => ?_, fun r₁ h₁ r₂ h₂ => row_unique h₁ h₂⟩
  rw [decode_eq_none_iff]
  simp only [rows, List.forall_mem_cons]
  exact ⟨beq_false_of_ne hi, beq_false_of_ne hs, beq_false_of_ne ht, beq_false_of_ne hr, beq_false_of_ne hw, nofun⟩

/-- Settles O5, by running the decoder on the words. -/
theorem vectorWordsDecode : Obligations.VectorWordsDecode := by
  unfold Obligations.VectorWordsDecode
  decide

/-! ### Reserved words -/

/-- The decoder gives none exactly for the words of R86's list, read as numbers. -/
theorem decode_eq_none_iff_toNat : decode w = none ↔
    w.toNat / 2 ^ 29 = 0b000 ∨ w.toNat / 2 ^ 29 = 0b110 ∨ w.toNat / 2 ^ 29 = 0b111
      ∨ w.toNat / 2 ^ 24 % 2 ^ 5 ≠ 0
      ∨ ((w.toNat / 2 ^ 29 = 0b011 ∨ w.toNat / 2 ^ 29 = 0b010) ∧ w.toNat % 2 ^ 24 ≠ 0)
      ∨ (w.toNat / 2 ^ 29 = 0b100 ∧ w.toNat % 2 ^ 8 ≠ 0) := by
  have hlt := w.isLt
  simp only [decode_eq_none_iff, rows, List.forall_mem_cons, List.not_mem_nil, false_imp_iff, implies_true, and_true,
    Bool.eq_false_iff, ne_eq, selects_init_iff, selects_shut_iff, selects_tick_iff, selects_rd_iff, selects_wr_iff,
    ← BitVec.toNat_inj, op_toNat, z_toNat, addrOf_toNat, dataOf_toNat, BitVec.toNat_ofNat]
  omega

end Sys2Proof

namespace Sys2Proof.Machine

variable {s t : State}

/-- Settles O2: R86's list is where the decoder gives none, and there the step is the reserved-word response. -/
theorem reservedWordsAnswerIllegalAndDoNothing : Obligations.ReservedWordsAnswerIllegalAndDoNothing := by
  unfold Obligations.ReservedWordsAnswerIllegalAndDoNothing
  refine ⟨rfl, fun w => ⟨decode_eq_none_iff_toNat.symm, fun s rest hb hres => ?_⟩⟩
  rw [step_command hb, runWord_reserved (decode_eq_none_iff_toNat.mpr hres)]
  simp [State.reservedWord, State.respond, State.emit, State.accept, State.took]

/-- Settles O7, one clause for each first input that is no command. -/
theorem stepWithoutACommand : Obligations.StepWithoutACommand := by
  unfold Obligations.StepWithoutACommand
  intro s
  refine ⟨fun hb hc => ?_, fun hb hc => ?_, fun rest hb hc => ?_, fun rest hb => ?_⟩
  · rw [step_idle hb, idle, if_pos hc]
  · rw [step_idle hb, idle, if_neg hc]
  · rw [step_stepReturns hb, stepReturned_of_host (s := s.took rest) hc, State.took]
  · exact step_powerOn hb

end Sys2Proof.Machine
end

section
/-! The encoding family: the responses of the operations (R89), and that every accepted command gets one. -/

namespace Sys2Proof.Machine

variable {s t : State}

theorem countEvents_append (p : Event → Bool) (es es' : List Event) :
    countEvents p (es ++ es') = countEvents p es + countEvents p es' := List.countP_append

/-! ### The response of an operation -/

/-- A record of calls out and then one response: what an operation that completes in its own step leaves (R89). -/
def CompletesWith (d : Byte) (st : Status) (es : List Event) : Prop :=
  ∃ calls, es = calls ++ [.response d st] ∧ ∀ e ∈ calls, e.isResponse = false ∧ e.isCommand = false

section
variable {d : Byte} {st : Status} {es : List Event}

theorem CompletesWith.responses (h : CompletesWith d st es) : countEvents Event.isResponse es = 1 := by
  obtain ⟨calls, rfl, hcalls⟩ := h
  have hnone : calls.countP Event.isResponse = 0 :=
    List.countP_eq_zero.mpr fun e he => Bool.eq_false_iff.mp (hcalls e he).1
  simp [countEvents, hnone]

theorem CompletesWith.commands (h : CompletesWith d st es) : countEvents Event.isCommand es = 0 := by
  obtain ⟨calls, rfl, hcalls⟩ := h
  have hnone : calls.countP Event.isCommand = 0 :=
    List.countP_eq_zero.mpr fun e he => Bool.eq_false_iff.mp (hcalls e he).2
  simp [countEvents, hnone]

theorem CompletesWith.eq_of_mem {d' : Byte} {st' : Status} (h : CompletesWith d st es)
    (hmem : .response d' st' ∈ es) : d' = d ∧ st' = st := by
  obtain ⟨calls, rfl, hcalls⟩ := h
  rcases List.mem_append.mp hmem with hcall | hresp
  · exact absurd (hcalls _ hcall).1 (by simp)
  · simpa using hresp

end

/-- INIT completes with the status that says whether the cartridge was inserted (R150, R211). -/
theorem initEvents_completes (sel : Selector) (s : State) :
    CompletesWith 0 (if s.insertAnswer then .ok else .loadErr) (initEvents sel s) := by
  unfold initEvents
  split
  · exact ⟨[_, _], rfl, by simp⟩
  · exact ⟨[_], rfl, by simp⟩

/-- RD completes with `ST_OK` whatever answers it (R112). -/
theorem readEvents_completes (a : Addr) (s : State) : ∃ d, CompletesWith d .ok (readEvents a s) := by
  unfold readEvents
  split
  · exact ⟨_, [_], rfl, by simp⟩
  · split
    · exact ⟨_, [_], rfl, by simp⟩
    · exact ⟨_, [_, _], rfl, by simp⟩
    · exact ⟨_, [_], rfl, by simp⟩

/-- WR completes with `ST_OK` and no data whatever it reaches (R113). -/
theorem writeEvents_completes (a : Addr) (v : Byte) (s : State) : CompletesWith 0 .ok (writeEvents a v s) := by
  unfold writeEvents
  split
  · exact ⟨[_], rfl, by simp⟩
  · split
    · exact ⟨[_], rfl, by simp⟩
    · exact ⟨[_, _], rfl, by simp⟩
    · exact ⟨[_], rfl, by simp⟩

/-- What an operation may answer in its own step (R214, R217); TICK answers only when its steps have returned. -/
def ownAnswer (i : Instr) (d : Byte) (st : Status) : Prop :=
  match i with
  | .init _ => (st = .ok ∨ st = .loadErr) ∧ d = 0x00
  | .shut => (st = .ok ∨ st = .unloadErr) ∧ d = 0x00
  | .tick => False
  | .rd _ => st = .ok
  | .wr _ _ => st = .ok ∧ d = 0x00

/-- Every operation but TICK completes in its own step, with an answer of its own. -/
theorem instrEvents_completes {i : Instr} (hi : i ≠ .tick) (s : State) :
    ∃ d st, CompletesWith d st (instrEvents i s) ∧ ownAnswer i d st := by
  cases i with
  | init sel =>
    refine ⟨_, _, initEvents_completes sel s, ?_, rfl⟩
    cases s.insertAnswer
    · exact .inr rfl
    · exact .inl rfl
  | shut =>
    refine ⟨_, _, ⟨[_], rfl, by simp⟩, ?_, rfl⟩
    cases s.removeAnswer
    · exact .inr rfl
    · exact .inl rfl
  | tick => exact absurd rfl hi
  | rd a =>
    obtain ⟨d, hd⟩ := readEvents_completes a s
    exact ⟨d, _, hd, rfl⟩
  | wr a v => exact ⟨_, _, writeEvents_completes a v s, rfl, rfl⟩

theorem instrEvents_responses (i : Instr) (s : State) :
    countEvents Event.isResponse (instrEvents i s) = if i = .tick then 0 else 1 := by
  split
  · next hi => subst hi; rfl
  · next hi =>
    obtain ⟨d, st, hcomp, -⟩ := instrEvents_completes hi s
    exact hcomp.responses

/-- An operation accepts no command: the command stands in the record before what the operation does. -/
theorem instrEvents_commands (i : Instr) (s : State) : countEvents Event.isCommand (instrEvents i s) = 0 := by
  by_cases hi : i = .tick
  · subst hi; rfl
  · obtain ⟨d, st, hcomp, -⟩ := instrEvents_completes hi s
    exact hcomp.commands

theorem ownAnswer_of_mem {i : Instr} {d : Byte} {st : Status} (h : .response d st ∈ instrEvents i s) :
    ownAnswer i d st := by
  by_cases hi : i = .tick
  · subst hi; simp [instrEvents] at h
  · obtain ⟨d', st', hcomp, hown⟩ := instrEvents_completes hi s
    obtain ⟨rfl, rfl⟩ := hcomp.eq_of_mem h
    exact hown

/-- Settles O39, by cases on what the step did: an operation answers only its own statuses (`ownAnswer_of_mem`). -/
theorem responsesCarryTheirOwnStatuses : Obligations.ResponsesCarryTheirOwnStatuses := by
  unfold Obligations.ResponsesCarryTheirOwnStatuses
  intro s t h
  rcases step_cases h with ⟨-, -, rfl⟩ | ⟨w, i, rest, hb, hd, he⟩ | ⟨w, rest, hb, hd, rfl⟩ | ⟨rest, hb, rfl⟩
    | ⟨rest, hb, rfl⟩
  case inl => exact ⟨[], by simp, by simp [countEvents], by simp⟩
  case inr.inl =>
    refine ⟨.command w :: instrEvents i (s.accept w rest), by simp [exec_trace he], ?_, fun d st hmem => ?_⟩
    · rw [countEvents, List.countP_cons_of_neg (by simp), ← countEvents, instrEvents_responses]
      split <;> decide
    · have hown : ownAnswer i d st := ownAnswer_of_mem (by simpa using hmem)
      refine .inr ⟨w, rest, hb, ?_⟩
      cases i with
      | init sel => exact .inr (.inl ⟨sel, hd, hown⟩)
      | shut => exact .inr (.inr (.inl ⟨hd, hown⟩))
      | tick => exact hown.elim
      | rd a => exact .inr (.inr (.inr (.inl ⟨a, hd, hown⟩)))
      | wr a v => exact .inr (.inr (.inr (.inr ⟨a, v, hd, hown⟩)))
  case inr.inr.inl =>
    refine ⟨[.command w, .response 0 .illegal], by simp [State.reservedWord], by simp [countEvents],
      fun d st hmem => .inr ⟨w, rest, hb, .inl ⟨hd, ?_⟩⟩⟩
    simpa [and_comm] using hmem
  case inr.inr.inr.inl =>
    rcases stepReturned_cases (s.took rest) with ⟨-, heq⟩ | ⟨-, -, -, heq⟩ | ⟨-, heq⟩ <;> rw [heq]
    · exact ⟨[], by simp, by simp [countEvents], by simp⟩
    · exact ⟨[.returned, .cpuStep], by simp, by simp [countEvents], by simp⟩
    · refine ⟨[.returned, .response 0 .ok], by simp, by simp [countEvents], fun d st hmem => .inl ⟨rest, hb, ?_⟩⟩
      simpa [and_comm] using hmem
  case inr.inr.inr.inr => exact ⟨[.powerOn], by simp, by simp [countEvents], by simp⟩

/-! ### Every command gets one response -/

/-- The commands still unanswered: one while a TICK is in progress, and none outside (R192). -/
def unanswered (s : State) : Nat := if s.ctx = .host then 0 else 1

/-- From `s` to `t` as many commands were accepted as were answered or are left unanswered. -/
def CommandsAnswered (s t : State) : Prop :=
  ∃ es, t.trace = s.trace ++ es
    ∧ unanswered s + countEvents Event.isCommand es = countEvents Event.isResponse es + unanswered t

theorem CommandsAnswered.refl (s : State) : CommandsAnswered s s := ⟨[], by simp, by simp [countEvents]⟩

theorem CommandsAnswered.trans {u : State} (h : CommandsAnswered s t) (h' : CommandsAnswered t u) :
    CommandsAnswered s u := by
  obtain ⟨es, htr, hcount⟩ := h
  obtain ⟨es', htr', hcount'⟩ := h'
  refine ⟨es ++ es', by rw [htr', htr, List.append_assoc], ?_⟩
  rw [countEvents_append, countEvents_append]
  omega

/-- An accepted operation answers its command, or leaves it unanswered where it is a TICK. -/
theorem exec_unanswered {i : Instr} (h : exec i s = .next t) :
    unanswered s + 1 = countEvents Event.isResponse (instrEvents i s) + unanswered t := by
  rw [instrEvents_responses]
  split
  · next hi =>
    subst hi
    obtain ⟨⟨hc, -⟩, rfl⟩ := exec_tick_next.mp h
    simp [unanswered, hc, tickEffect]
  · next hi =>
    have hctx : t.ctx = s.ctx := (exec_ctx h).resolve_right hi
    rw [unanswered, unanswered, hctx, Nat.add_comm]

/-- The return of a step completes the TICK in progress, or takes it on. -/
theorem stepReturned_commandsAnswered (s : State) : CommandsAnswered s (stepReturned s) := by
  rcases stepReturned_cases s with ⟨-, heq⟩ | ⟨c, hc, -, heq⟩ | ⟨hc, heq⟩ <;> rw [heq]
  · exact .refl s
  · exact ⟨[.returned, .cpuStep], rfl, by simp [countEvents, unanswered, hc]⟩
  · have hne : s.ctx ≠ .host := by rcases hc with ⟨c, hc, -⟩ | hc <;> simp [hc]
    exact ⟨[.returned, .response 0 .ok], by simp, by simp [countEvents, unanswered, hne]⟩

theorem step_commandsAnswered (hpor : .powerOn ∉ s.inbox) (h : step s = .next t) : CommandsAnswered s t := by
  rcases step_cases h with ⟨-, -, rfl⟩ | ⟨w, i, rest, -, -, he⟩ | ⟨w, rest, -, -, rfl⟩ | ⟨rest, -, rfl⟩
    | ⟨rest, hb, rfl⟩
  case inl => exact .refl _
  case inr.inl =>
    refine ⟨.command w :: instrEvents i (s.accept w rest), by simp [exec_trace he], ?_⟩
    rw [countEvents, countEvents, List.countP_cons_of_pos (by simp), List.countP_cons_of_neg (by simp),
      ← countEvents, ← countEvents, instrEvents_commands, Nat.zero_add]
    exact exec_unanswered (s := s.accept w rest) he
  case inr.inr.inl =>
    exact ⟨[.command w, .response 0 .illegal], by simp [State.reservedWord], Nat.add_comm _ 1⟩
  case inr.inr.inr.inl => exact stepReturned_commandsAnswered (s.took rest)
  case inr.inr.inr.inr => simp [hb] at hpor

/-- A step takes the first input and no other (log 1). -/
theorem step_inbox (h : step s = .next t) : t.inbox = s.inbox.tail := by
  rcases step_cases h with ⟨hb, -, rfl⟩ | ⟨w, i, rest, hb, -, he⟩ | ⟨w, rest, hb, -, rfl⟩ | ⟨rest, hb, rfl⟩
    | ⟨rest, hb, rfl⟩
  case inl => rw [hb, List.tail_nil]
  all_goals rw [hb, List.tail_cons]
  case inr.inl => exact exec_inbox he
  case inr.inr.inl => rfl
  case inr.inr.inr.inl =>
    rcases stepReturned_cases (s.took rest) with ⟨-, heq⟩ | ⟨-, -, -, heq⟩ | ⟨-, heq⟩ <;> rw [heq] <;> rfl
  case inr.inr.inr.inr => rfl

/-- In a run with no power-on to come every command is answered or is the TICK in progress. -/
theorem runSteps_commandsAnswered {n : Nat} (hpor : .powerOn ∉ s.inbox) (h : runSteps n s = .next t) :
    CommandsAnswered s t := by
  refine runSteps_induction (R := fun u v => .powerOn ∉ u.inbox → CommandsAnswered u v) (fun u _ => .refl u) ?_ h hpor
  intro u v w hs hrest hu
  have hv : .powerOn ∉ v.inbox := fun hmem => hu (List.mem_of_mem_tail (step_inbox hs ▸ hmem))
  exact (step_commandsAnswered hu hs).trans (hrest hv)

/-- Settles O40: outside a TICK no command is unanswered at the start of the run. -/
theorem everyCommandGetsOneResponse : Obligations.EveryCommandGetsOneResponse := by
  unfold Obligations.EveryCommandGetsOneResponse
  intro n s t hc hpor h
  obtain ⟨es, htr, hcount⟩ := runSteps_commandsAnswered hpor h
  rw [unanswered, if_pos hc, Nat.zero_add] at hcount
  exact ⟨es, htr, hcount⟩

end Sys2Proof.Machine
end

section
/-! The encoding family: `TICKN` (R92). -/

namespace Sys2Proof.Machine

variable {s t : State}

/-! ### The processor steps among a number of ticks -/

/-- The stepping ticks among `m` ticks and then `n` more, the counter having moved on by `m`. -/
theorem steppingTicks_add (cfg : Config) (c m n : Nat) :
    steppingTicks cfg c (m + n) = steppingTicks cfg c m + steppingTicks cfg ((c + m) % 2 ^ cfg.cw) n := by
  simp only [steppingTicks, List.range_add, List.countP_append, List.countP_map, Function.comp_def, Nat.mod_add_mod,
    Nat.add_assoc]

/-- One tick from a counter inside its width steps the processor where that counter enables it (R131). -/
theorem steppingTicks_one {cfg : Config} {c : Nat} (h : c < 2 ^ cfg.cw) :
    steppingTicks cfg c 1 = if stepEnable cfg c then 1 else 0 := by
  simp [steppingTicks, Nat.mod_eq_of_lt h, List.range_succ, List.countP_cons]

/-! ### Ticks without accesses -/

/-- From `s`, outside a TICK in a session, to `t`, outside one again: `n` TICKs, each with its calls (R130, R131). -/
def RunsTicks (n : Nat) (s t : State) : Prop :=
  t.cfg = s.cfg ∧ t.ctx = .host ∧ t.life = .ready ∧ t.ram = s.ram ∧ t.mcc = (s.mcc + n) % 2 ^ s.cfg.cw
    ∧ ∃ es, t.trace = s.trace ++ es ∧ countEvents Event.isCommand es = n ∧ countEvents Event.isTick es = n
      ∧ countEvents Event.isPpuStep es = n ∧ countEvents Event.isCpuStep es = steppingTicks s.cfg s.mcc n

theorem RunsTicks.zero (hl : s.life = .ready) (hc : s.ctx = .host) (hm : s.mcc < 2 ^ s.cfg.cw) : RunsTicks 0 s s :=
  ⟨rfl, hc, hl, rfl, (Nat.mod_eq_of_lt hm).symm, [], (List.append_nil _).symm, rfl, rfl, rfl, rfl⟩

theorem RunsTicks.trans {m n : Nat} {u : State} (h : RunsTicks m s t) (h' : RunsTicks n t u) :
    RunsTicks (m + n) s u := by
  obtain ⟨hcfg, -, -, hram, hmcc, es, htr, hcmd, htick, hppu, hcpu⟩ := h
  obtain ⟨hcfg', hc, hl, hram', hmcc', es', htr', hcmd', htick', hppu', hcpu'⟩ := h'
  refine ⟨hcfg'.trans hcfg, hc, hl, hram'.trans hram, ?_, es ++ es', ?_, ?_, ?_, ?_, ?_⟩
  · rw [hmcc', hmcc, hcfg, Nat.mod_add_mod, Nat.add_assoc]
  · rw [htr', htr, List.append_assoc]
  · rw [countEvents_append, hcmd, hcmd']
  · rw [countEvents_append, htick, htick']
  · rw [countEvents_append, hppu, hppu']
  · rw [countEvents_append, hcpu, hcpu', hcfg, hmcc, steppingTicks_add]

/-- The word of TICK is a TICK. -/
theorem decode_encode_tick : decode (encode .tick) = some .tick := decodeOfEncodeIsTheOperation .tick

/-- A TICK offered in a session outside a TICK is taken up to the call of `PpuStep` (R130). -/
theorem step_tick {rest : List Input} (hl : s.life = .ready) (hc : s.ctx = .host)
    (hb : s.inbox = .command (encode .tick) :: rest) :
    step s = .next (tickEffect (s.accept (encode .tick) rest)) := by
  rw [step_command hb, runWord_decoded decode_encode_tick]
  exact exec_tick_next.mpr ⟨⟨hc, hl⟩, rfl⟩

theorem stepReturned_of_inPpu {c : Nat} (h : s.ctx = .inPpu c) :
    stepReturned s = if stepEnable s.cfg c then (s.setCtx .inCpu).emit [.returned, .cpuStep]
      else ((s.setCtx .host).emit [.returned]).respond 0 .ok := by
  rw [stepReturned, h]

theorem stepReturned_of_inCpu (h : s.ctx = .inCpu) :
    stepReturned s = ((s.setCtx .host).emit [.returned]).respond 0 .ok := by
  rw [stepReturned, h]

/-- What the returns of a TICK's steps record, by the step enable of the TICK (R130). -/
def returnEvents (e : Bool) : List Event :=
  if e then [.returned, .cpuStep, .returned, .response 0 .ok] else [.returned, .response 0 .ok]

/-- Two returns with no access between complete the TICK in progress: where the processor is stepped the second return
is its own, and else it comes at `ctx = HOST` and is ignored (R130; log 10). -/
theorem runSteps_two_returns {c : Nat} {rest : List Input} (hc : s.ctx = .inPpu c)
    (hb : s.inbox = .stepReturns :: .stepReturns :: rest) :
    ∃ t, runSteps 2 s = .next t ∧ t.inbox = rest ∧ t.cfg = s.cfg ∧ t.ctx = .host ∧ t.life = s.life ∧ t.ram = s.ram
      ∧ t.mcc = s.mcc ∧ t.trace = s.trace ++ returnEvents (stepEnable s.cfg c) := by
  have hfirst := step_stepReturns hb
  rw [stepReturned_of_inPpu (s := s.took (.stepReturns :: rest)) hc, took_cfg] at hfirst
  cases he : stepEnable s.cfg c with
  | true =>
    rw [he, if_pos rfl] at hfirst
    have hsecond := step_stepReturns
      (s := ((s.took (.stepReturns :: rest)).setCtx .inCpu).emit [.returned, .cpuStep]) rfl
    rw [stepReturned_of_inCpu rfl] at hsecond
    refine ⟨_, (runSteps_of_step hfirst).trans (runSteps_of_step hsecond), ?_⟩
    simp [returnEvents]
  | false =>
    rw [he, if_neg Bool.false_ne_true] at hfirst
    have hsecond := step_stepReturns
      (s := (((s.took (.stepReturns :: rest)).setCtx .host).emit [.returned]).respond 0 .ok) rfl
    rw [stepReturned_of_host rfl] at hsecond
    refine ⟨_, (runSteps_of_step hfirst).trans (runSteps_of_step hsecond), ?_⟩
    simp [returnEvents]

/-- A TICK and two returns, with no access between, is one TICK in three steps. -/
theorem runSteps_one_tick {rest : List Input} (hl : s.life = .ready) (hc : s.ctx = .host) (hm : s.mcc < 2 ^ s.cfg.cw)
    (hb : s.inbox = .command (encode .tick) :: .stepReturns :: .stepReturns :: rest) :
    ∃ t, runSteps 3 s = .next t ∧ t.inbox = rest ∧ RunsTicks 1 s t := by
  have htick := step_tick hl hc hb
  obtain ⟨t, hrun, hbt, hcfg, hct, hlt, hram, hmcc, htr⟩ := runSteps_two_returns
    (s := tickEffect (s.accept (encode .tick) (.stepReturns :: .stepReturns :: rest))) rfl rfl
  refine ⟨t, (runSteps_of_step htick).trans hrun, hbt, hcfg, hct, hlt.trans hl, hram, hmcc, ?_⟩
  refine ⟨[.command (encode .tick), .ppuStep] ++ returnEvents (stepEnable s.cfg s.mcc), ?_, ?_⟩
  · rw [htr]
    simp [tickEffect]
  · rw [steppingTicks_one hm]
    cases stepEnable s.cfg s.mcc <;> decide

/-- `TICKN n` is `n` TICKs in `3 * n` steps (R92). -/
theorem runSteps_tickN (n : Nat) : ∀ s : State, s.life = .ready → s.ctx = .host → s.mcc < 2 ^ s.cfg.cw →
    s.inbox = tickNInputs n → ∃ t, runSteps (3 * n) s = .next t ∧ t.inbox = [] ∧ RunsTicks n s t := by
  induction n with
  | zero => exact fun s hl hc hm hb => ⟨s, rfl, hb, .zero hl hc hm⟩
  | succ n ih =>
    intro s hl hc hm hb
    obtain ⟨u, hrun, hbu, hticks⟩ := runSteps_one_tick hl hc hm hb
    obtain ⟨hcfg, hcu, hlu, -, hmcc, -⟩ := id hticks
    have hmu : u.mcc < 2 ^ u.cfg.cw := by
      rw [hmcc, hcfg]
      exact Nat.mod_lt _ (Nat.two_pow_pos _)
    obtain ⟨t, hrun', hbt, hticks'⟩ := ih u hlu hcu hmu hbu
    refine ⟨t, ?_, hbt, Nat.add_comm 1 n ▸ hticks.trans hticks'⟩
    rw [Nat.mul_succ, Nat.add_comm, runSteps_add hrun, hrun']

/-- Settles O22, by `runSteps_tickN`. -/
theorem tickNRunsToItsEnd : Obligations.TickNRunsToItsEnd := by
  unfold Obligations.TickNRunsToItsEnd
  intro n s hinv hl hc hb
  obtain ⟨-, -, hm, -⟩ := State.inv_iff.mp hinv
  obtain ⟨t, hrun, hbt, -, hct, hlt, hram, hmcc, es, htr, hcmd, htick, hppu, hcpu⟩ := runSteps_tickN n s hl hc hm hb
  exact ⟨t, es, hrun, hbt, hct, hlt, hram, htr, hcmd, htick, hppu, hcpu, hmcc⟩

end Sys2Proof.Machine
end

section
/-! The access family: the fixed map by its address ranges, what RD and WR record in each case, and the mirror law. -/

namespace Sys2Proof.Machine

variable {s t : State}

/-! ### The fixed map by its ranges -/

/-- The bits that choose the handler are the address in units of 0x2000 (R111). -/
theorem region_bits_eq_iff {a : Addr} {k : BitVec 3} : a.extractLsb' 13 3 = k ↔ a.toNat / 0x2000 = k.toNat := by
  have hlt := a.isLt
  rw [← BitVec.toNat_inj, BitVec.extractLsb'_toNat, Nat.shiftRight_eq_div_pow]
  omega

theorem region_ram_of_le {a : Addr} (h : a.toNat ≤ 0x1FFF) :
    region a = .ram (BitVec.ofNat 11 (a.toNat % 0x0800)) := by
  have hwin : a.extractLsb' 13 3 = 0b000#3 := region_bits_eq_iff.mpr (Nat.div_eq_of_lt (by omega))
  have hidx : a.extractLsb' 0 11 = BitVec.ofNat 11 (a.toNat % 0x0800) := by
    rw [← BitVec.toNat_inj, BitVec.extractLsb'_toNat, BitVec.toNat_ofNat, Nat.shiftRight_zero, Nat.mod_mod]
  rw [region, if_pos hwin, hidx]

theorem region_ppu_of_range {a : Addr} (h : 0x2000 ≤ a.toNat) (h' : a.toNat ≤ 0x3FFF) :
    region a = .ppu (BitVec.ofNat 3 (a.toNat % 8)) := by
  have hram : a.extractLsb' 13 3 ≠ 0b000#3 := fun hwin => by
    have htop : a.toNat / 0x2000 = 0 := region_bits_eq_iff.mp hwin
    omega
  have hppu : a.extractLsb' 13 3 = 0b001#3 := region_bits_eq_iff.mpr (show a.toNat / 0x2000 = 1 by omega)
  have hidx : a.extractLsb' 0 3 = BitVec.ofNat 3 (a.toNat % 8) := by
    rw [← BitVec.toNat_inj, BitVec.extractLsb'_toNat, BitVec.toNat_ofNat, Nat.shiftRight_zero, Nat.mod_mod]
  rw [region, if_neg hram, if_pos hppu, hidx]

/-- A residue mod `2 ^ w` is determined by its vector of width `w`. -/
theorem ofNat_mod_inj {w m n : Nat} :
    BitVec.ofNat w (m % 2 ^ w) = BitVec.ofNat w (n % 2 ^ w) ↔ m % 2 ^ w = n % 2 ^ w := by
  rw [← BitVec.toNat_inj, BitVec.toNat_ofNat, BitVec.toNat_ofNat, Nat.mod_mod, Nat.mod_mod]

/-- The mirrors of the RAM window: address bits 12 and 11 do not matter (R53). -/
theorem region_ram_mirror_iff {a b : Addr} (ha : a.toNat ≤ 0x1FFF) (hb : b.toNat ≤ 0x1FFF) :
    region a = region b ↔ a.toNat % 0x0800 = b.toNat % 0x0800 := by
  rw [region_ram_of_le ha, region_ram_of_le hb, Handler.ram.injEq]
  exact ofNat_mod_inj (w := 11)

/-- The mirrors of the register window: address bits 12 to 3 do not matter (R54). -/
theorem region_ppu_mirror_iff {a b : Addr} (ha : 0x2000 ≤ a.toNat) (ha' : a.toNat ≤ 0x3FFF) (hb : 0x2000 ≤ b.toNat)
    (hb' : b.toNat ≤ 0x3FFF) : region a = region b ↔ a.toNat % 8 = b.toNat % 8 := by
  rw [region_ppu_of_range ha ha', region_ppu_of_range hb hb', Handler.ppu.injEq]
  exact ofNat_mod_inj (w := 3)

/-- Settles O10: the ranges and mirrors by the lemmas above; RD and WR act by the handler by their definitions. -/
theorem regionIsTheFixedMap : Obligations.RegionIsTheFixedMap := by
  unfold Obligations.RegionIsTheFixedMap
  refine ⟨fun a => ⟨region_ram_of_le, region_ppu_of_range, region_unmapped_of_le⟩, fun a b => region_ram_mirror_iff,
    fun a b => region_ppu_mirror_iff, fun a v s => ⟨fun k hreg => ?_, fun k hreg => ?_, fun hreg => ?_⟩⟩
  all_goals
    rw [readFixedMap, writeFixedMap, hreg]
    exact ⟨rfl, rfl⟩

/-! ### What RD and WR record, case by case -/

theorem readEvents_of_hijack {a : Addr} (hhijack : s.readAnswer.2 = true) :
    readEvents a s = [.cartRead a s.readAnswer.1 true, .response s.readAnswer.1 .ok] := by
  simp [readEvents, hhijack]

theorem readEvents_of_passed_ppu {a : Addr} {i : RegIndex} (hpass : s.readAnswer.2 = false)
    (hreg : region a = .ppu i) :
    readEvents a s = [.cartRead a s.readAnswer.1 false, .ppuReg i false 0 (s.afterCartRead a).regAnswer,
      .response (s.afterCartRead a).regAnswer .ok] := by
  simp [readEvents, hpass, hreg]

theorem readEvents_of_passed_unmapped {a : Addr} (hpass : s.readAnswer.2 = false) (hreg : region a = .unmapped) :
    readEvents a s = [.cartRead a s.readAnswer.1 false, .response (s.afterCartRead a).drawn .ok] := by
  simp [readEvents, hpass, hreg]

theorem writeEvents_of_hijack {a : Addr} {v : Byte} (hhijack : s.writeAnswer = true) :
    writeEvents a v s = [.cartWrite a v true, .response 0 .ok] := by
  simp [writeEvents, hhijack]

theorem writeEvents_of_passed_ppu {a : Addr} {v : Byte} {i : RegIndex} (hpass : s.writeAnswer = false)
    (hreg : region a = .ppu i) :
    writeEvents a v s
      = [.cartWrite a v false, .ppuReg i true v (s.afterCartWrite a v).regAnswer, .response 0 .ok] := by
  simp [writeEvents, hpass, hreg]

/-- A passed WR outside the register window makes no call but its offer: it writes a byte of RAM, or nothing. -/
theorem writeEvents_of_passed_not_ppu {a : Addr} {v : Byte} (hpass : s.writeAnswer = false)
    (hreg : ∀ i, region a ≠ .ppu i) : writeEvents a v s = [.cartWrite a v false, .response 0 .ok] := by
  cases hr : region a with
  | ram i => simp [writeEvents, hpass, hr]
  | ppu i => exact absurd hr (hreg i)
  | unmapped => simp [writeEvents, hpass, hr]

/-! ### RD and WR -/

theorem exec_rd_of_off {a : Addr} (h : s.life = .off) : exec (.rd a) s = .refused .notReady := by
  simp [exec, execRd, admission, h, orRefuse]

theorem exec_wr_of_off {a : Addr} {v : Byte} (h : s.life = .off) : exec (.wr a v) s = .refused .notReady := by
  simp [exec, execWr, admission, h, orRefuse]

/-- A call with an answer does not turn the draw counter back. -/
theorem le_drawsAfter (scripted : Bool) (n : Nat) : n ≤ drawsAfter scripted n := by
  cases scripted
  · exact Nat.le_succ n
  · exact Nat.le_refl n

/-- Settles O8: the block by `readEffect_session`, the record of each case by its equation for `readEvents`. -/
theorem rdAnswersFromItsHandler : Obligations.RdAnswersFromItsHandler := by
  unfold Obligations.RdAnswersFromItsHandler
  intro a s
  refine ⟨wordOf_toNat _ _ _, exec_rd_of_off, fun hl => ?_⟩
  obtain ⟨⟨hcfg, hmcc, hlife, hctx, hcart, hinbox⟩, hram⟩ := readEffect_session a s
  refine ⟨s.readAnswer.1, s.readAnswer.2, (s.afterCartRead a).regAnswer, readEffect a s,
    exec_rd_next.mpr ⟨hl, rfl⟩, fun x xs h => (readAnswer_cons h).symm,
    fun x xs h => (regAnswer_cons (s := s.afterCartRead a) h).symm,
    hcfg, hmcc, hram, hlife, hctx, hcart, hinbox, ?_⟩
  rw [readEffect_trace]
  refine ⟨fun hhijack => ?_, fun hpass ha => ?_, fun hpass ha ha' => ?_, fun hpass ha => ?_⟩
  · rw [readEvents_of_hijack hhijack]
  · rw [readEvents_of_passed_ram hpass (region_ram_of_le ha), State.readRam, BitVec.toNat_ofNat, Nat.mod_mod]
  · rw [readEvents_of_passed_ppu hpass (region_ppu_of_range ha ha')]
  · have hreg := region_unmapped_of_le ha
    refine ⟨(s.afterCartRead a).draws, le_drawsAfter _ _, ?_, ?_⟩
    · rw [readEffect_of_passed_unmapped hpass hreg]
      rfl
    · rw [readEvents_of_passed_unmapped hpass hreg]
      rfl

theorem writeEffect_ram_of_hijack {a : Addr} {v : Byte} (hhijack : s.writeAnswer = true) :
    (writeEffect a v s).ram = s.ram := by
  rw [writeEffect_ram, if_pos hhijack]

theorem writeEffect_ram_of_passed_ram {a : Addr} {v : Byte} {i : RamIndex} (hpass : s.writeAnswer = false)
    (hreg : region a = .ram i) : (writeEffect a v s).ram = Memory.write s.ram i.toNat v := by
  simp [writeEffect_ram, hpass, hreg]

/-- WR outside the RAM window leaves RAM alone. -/
theorem writeEffect_ram_of_not_ram {a : Addr} {v : Byte} (hreg : ∀ i, region a ≠ .ram i) :
    (writeEffect a v s).ram = s.ram := by
  rw [writeEffect_ram]
  cases hr : region a with
  | ram i => exact absurd hr (hreg i)
  | ppu i => exact ite_self _
  | unmapped => exact ite_self _

/-- Settles O9: the block by `writeEffect_session`, RAM and the record of each case by their equations. -/
theorem wrReachesItsHandlerOnly : Obligations.WrReachesItsHandlerOnly := by
  unfold Obligations.WrReachesItsHandlerOnly
  intro a v s
  refine ⟨wordOf_toNat _ _ _, exec_wr_of_off, fun hl hwf => ?_⟩
  obtain ⟨hcfg, hmcc, hlife, hctx, hcart, hinbox⟩ := writeEffect_session a v s
  refine ⟨s.writeAnswer, (s.afterCartWrite a v).regAnswer, writeEffect a v s,
    exec_wr_next.mpr ⟨hl, rfl⟩, fun x xs h => (writeAnswer_cons h).symm,
    fun x xs h => (regAnswer_cons (s := s.afterCartWrite a v) h).symm,
    hcfg, hmcc, hlife, hctx, hcart, hinbox, ?_⟩
  rw [writeEffect_trace]
  refine ⟨fun hhijack => ?_, fun hpass ha => ?_, fun hpass ha ha' => ?_, fun hpass ha => ?_⟩
  · exact ⟨writeEffect_ram_of_hijack hhijack, by rw [writeEvents_of_hijack hhijack]⟩
  · have hreg := region_ram_of_le ha
    refine ⟨fun k => ?_, by rw [writeEvents_of_passed_not_ppu hpass (by simp [hreg])]⟩
    rw [writeEffect_ram_of_passed_ram hpass hreg, BitVec.toNat_ofNat, Nat.mod_mod]
    split
    · next heq => rw [heq, Memory.read_write_same v hwf]
    · next hne => exact Memory.read_write_other (Ne.symm hne) v s.ram
  · have hreg := region_ppu_of_range ha ha'
    exact ⟨writeEffect_ram_of_not_ram (by simp [hreg]), by rw [writeEvents_of_passed_ppu hpass hreg]⟩
  · have hreg := region_unmapped_of_le ha
    exact ⟨writeEffect_ram_of_not_ram (by simp [hreg]),
      by rw [writeEvents_of_passed_not_ppu hpass (by simp [hreg])]⟩

/-- Settles O11: RD never writes RAM and a hijacked WR does not; the records are those of the hijacked cases. -/
theorem hijackStopsTheFixedMap : Obligations.HijackStopsTheFixedMap := by
  unfold Obligations.HijackStopsTheFixedMap
  intro s t a v vc
  constructor
  · intro hanswer hexec
    obtain ⟨-, rfl⟩ := exec_rd_next.mp hexec
    refine ⟨(readEffect_session a s).2, ?_⟩
    rw [readEffect_trace, readEvents_of_hijack (by rw [hanswer]), hanswer]
  · intro hanswer hexec
    obtain ⟨-, rfl⟩ := exec_wr_next.mp hexec
    exact ⟨writeEffect_ram_of_hijack hanswer, by rw [writeEffect_trace, writeEvents_of_hijack hanswer]⟩

/-! ### The offer -/

/-- A record that begins with the offer `offer`, makes no other, and calls at most one register after it (R116). -/
def OfferedOnce (offer : Event) (es : List Event) : Prop :=
  ∃ rest, es = offer :: rest ∧ countEvents Event.isOffer rest = 0 ∧ countEvents Event.isReg rest ≤ 1

theorem readEvents_offeredOnce (a : Addr) (s : State) :
    OfferedOnce (.cartRead a s.readAnswer.1 s.readAnswer.2) (readEvents a s) := by
  refine ⟨_, rfl, ?_⟩
  split
  · exact ⟨rfl, Nat.zero_le 1⟩
  · cases region a with
    | ram i => exact ⟨rfl, Nat.zero_le 1⟩
    | ppu i => exact ⟨rfl, Nat.le_refl 1⟩
    | unmapped => exact ⟨rfl, Nat.zero_le 1⟩

theorem writeEvents_offeredOnce (a : Addr) (v : Byte) (s : State) :
    OfferedOnce (.cartWrite a v s.writeAnswer) (writeEvents a v s) := by
  refine ⟨_, rfl, ?_⟩
  split
  · exact ⟨rfl, Nat.zero_le 1⟩
  · cases region a with
    | ram i => exact ⟨rfl, Nat.zero_le 1⟩
    | ppu i => exact ⟨rfl, Nat.le_refl 1⟩
    | unmapped => exact ⟨rfl, Nat.zero_le 1⟩

/-- Settles O12: READY alone admits RD and WR, and what they record is offered once. -/
theorem everyAccessIsOfferedOnce : Obligations.EveryAccessIsOfferedOnce := by
  unfold Obligations.EveryAccessIsOfferedOnce
  intro s a v hl
  constructor
  · obtain ⟨rest, hevents, hcounts⟩ := readEvents_offeredOnce a s
    exact ⟨_, _, _, rest, exec_rd_next.mpr ⟨hl, rfl⟩, hevents ▸ readEffect_trace a s, hcounts⟩
  · obtain ⟨rest, hevents, hcounts⟩ := writeEvents_offeredOnce a v s
    exact ⟨_, _, rest, exec_wr_next.mpr ⟨hl, rfl⟩, hevents ▸ writeEffect_trace a v s, hcounts⟩

/-! ### Totality, and independence of the issuer -/

theorem exec_rd_sound (hinv : s.inv = true) (hl : s.life = .ready) (a : Addr) :
    ∃ t, exec (.rd a) s = .next t ∧ t.inv = true :=
  have hexec := exec_rd_next.mpr ⟨hl, rfl⟩
  ⟨readEffect a s, hexec, exec_inv hinv hexec⟩

theorem exec_wr_sound (hinv : s.inv = true) (hl : s.life = .ready) (a : Addr) (v : Byte) :
    ∃ t, exec (.wr a v) s = .next t ∧ t.inv = true :=
  have hexec := exec_wr_next.mpr ⟨hl, rfl⟩
  ⟨writeEffect a v s, hexec, exec_inv hinv hexec⟩

/-- Settles O13: READY alone admits RD and WR, every operation keeps the invariant, and the invariant reads no
answers. -/
theorem accessesAreTotal : Obligations.AccessesAreTotal := by
  unfold Obligations.AccessesAreTotal
  intro s a v answers hinv hl
  exact ⟨exec_rd_sound (s := { s with answers := answers }) hinv hl a,
    exec_wr_sound (s := { s with answers := answers }) hinv hl a v⟩

/-- RD does the same in every `ctx` (R110). -/
theorem readEffect_setCtx (c : Ctx) (a : Addr) (s : State) :
    readEffect a (s.setCtx c) = (readEffect a s).setCtx c := by
  have hanswer : (s.setCtx c).readAnswer = s.readAnswer := rfl
  unfold readEffect readFixedMap
  rw [hanswer]
  split
  · rfl
  · cases region a <;> rfl

/-- WR does the same in every `ctx` (R110). -/
theorem writeEffect_setCtx (c : Ctx) (a : Addr) (v : Byte) (s : State) :
    writeEffect a v (s.setCtx c) = (writeEffect a v s).setCtx c := by
  have hanswer : (s.setCtx c).writeAnswer = s.writeAnswer := rfl
  unfold writeEffect writeFixedMap
  rw [hanswer]
  split
  · rfl
  · cases region a <;> rfl

/-- Settles O34: admission of an access looks at `life` alone, and the effect carries another `ctx` along unread. -/
theorem accessesServeAllIssuersAlike : Obligations.AccessesServeAllIssuersAlike := by
  unfold Obligations.AccessesServeAllIssuersAlike
  rintro s t i c (⟨a, rfl⟩ | ⟨a, v, rfl⟩) hexec
  · obtain ⟨hl, rfl⟩ := exec_rd_next.mp hexec
    exact exec_rd_next.mpr ⟨hl, (readEffect_setCtx c a s).symm⟩
  · obtain ⟨hl, rfl⟩ := exec_wr_next.mp hexec
    exact exec_wr_next.mpr ⟨hl, (writeEffect_setCtx c a v s).symm⟩

/-! ### The mirror law -/

/-- Flipping address bit 11 stays in the RAM window and reaches the same byte (R53). -/
theorem ram_alias_xor {a : Addr} (h : a.toNat ≤ 0x1FFF) :
    (a ^^^ 0x0800).toNat ≤ 0x1FFF ∧ (a ^^^ 0x0800).toNat % 0x0800 = a.toNat % 0x0800 := by
  rw [BitVec.toNat_xor]
  constructor
  · exact Nat.le_of_lt_succ (Nat.xor_lt_two_pow (n := 13) (Nat.lt_succ_of_le h) (by decide))
  · exact (Nat.xor_mod_two_pow (n := 11)).trans (Nat.xor_zero _)

/-- What an event does to a byte it does not write. -/
theorem ramAfter_of_unwritten {i : RamIndex} {e : Event} (h : e.writesRam i = false) (b : Byte) :
    e.ramAfter i b = b := by
  cases e with
  | cartInsert sel ok => cases h
  | cartWrite a v hijack => exact if_neg (by simpa using h)
  | _ => rfl

/-- A record in which nothing writes `ram[i]` leaves its byte. -/
theorem ramOfTrace_of_unwritten {i : RamIndex} {es : List Event} (h : ∀ e ∈ es, e.writesRam i = false) (b : Byte) :
    ramOfTrace i b es = b := by
  induction es with
  | nil => rfl
  | cons e es ih =>
    rw [List.forall_mem_cons] at h
    obtain ⟨he, hes⟩ := h
    rw [ramOfTrace, List.foldl_cons, ramAfter_of_unwritten he]
    exact ih hes

/-- Settles O14: the WR leaves `v` in the byte (`writeEffect_readRam`), RAM follows the record of the run
(`runSteps_ramFollowsRecord`), in which nothing writes the byte, and every mirror has the same handler. -/
theorem writeIsReadThroughEveryMirror : Obligations.WriteIsReadThroughEveryMirror := by
  unfold Obligations.WriteIsReadThroughEveryMirror
  refine ⟨fun a => ram_alias_xor, fun s s₁ s₂ a a' v n es hinv ha ha' halias hwpass hwr hrun htrace hes hl hrpass => ?_⟩
  have hreg := region_ram_of_le ha
  have hreg' := region_ram_of_le ha'
  rw [← halias] at hreg'
  have hinv₁ := exec_inv hinv hwr
  obtain ⟨-, hram, -⟩ := State.inv_iff.mp hinv
  obtain ⟨-, rfl⟩ := exec_wr_next.mp hwr
  obtain ⟨es', htrace', hfollows⟩ := runSteps_ramFollowsRecord hinv₁ hrun
  obtain rfl : es' = es := List.append_cancel_left (htrace'.symm.trans htrace)
  have hbyte : s₂.readRam (BitVec.ofNat 11 (a.toNat % 0x0800)) = v := by
    rw [hfollows, ramOfTrace_of_unwritten hes, writeEffect_readRam hram, if_pos ⟨hwpass, hreg⟩]
  refine ⟨readEffect a' s₂, s₂.readAnswer.1, exec_rd_next.mpr ⟨hl, rfl⟩, ?_⟩
  rw [readEffect_trace, readEvents_of_passed_ram hrpass hreg', hbyte]

end Sys2Proof.Machine
end

section
/-! The clock family: what TICK and the returns of its steps do (R130, R131). -/

namespace Sys2Proof.Machine

variable {s t : State}

/-- The step enable is the pre-increment counter mod 3 at PHASE (R131). -/
theorem stepEnable_iff {cfg : Config} {c : Nat} : stepEnable cfg c = true ↔ c % 3 = cfg.phase.val :=
  decide_eq_true_iff

theorem stepEnable_eq_false_iff {cfg : Config} {c : Nat} : stepEnable cfg c = false ↔ c % 3 ≠ cfg.phase.val :=
  decide_eq_false_iff_not

/-- An operation that is not admitted is refused for the reason admission gives. -/
theorem exec_refused {i : Instr} {r : Refusal} (h : admission i s = some r) : exec i s = .refused r := by
  cases i <;> exact congrArg (orRefuse · _) h

/-- Settles O16: READY at HOST admits TICK, and its effect is that of `tickEffect`. -/
theorem tickCallsThePictureUnit : Obligations.TickCallsThePictureUnit := by
  unfold Obligations.TickCallsThePictureUnit
  intro s hl hc
  exact exec_tick_next.mpr ⟨⟨hc, hl⟩, rfl⟩

/-- A record made in two parts is made in one. -/
theorem emit_emit (es es' : List Event) (s : State) : (s.emit es).emit es' = s.emit (es ++ es') := by
  simp [State.emit]

/-- Settles O17, by the step of a return and its equation in each `ctx`. -/
theorem stepReturnsTakeTheTickOn : Obligations.StepReturnsTakeTheTickOn := by
  unfold Obligations.StepReturnsTakeTheTickOn
  intro s rest hb
  rw [step_stepReturns hb]
  refine ⟨fun c hc he => ?_, fun c hc he => ?_, fun hc => ?_⟩
  · rw [stepReturned_of_inPpu (s := s.took rest) hc, took_cfg, if_pos (stepEnable_iff.mpr he)]
    rfl
  · rw [stepReturned_of_inPpu (s := s.took rest) hc, took_cfg, if_neg (mt stepEnable_iff.mp he), State.respond,
      emit_emit]
    rfl
  · rw [stepReturned_of_inCpu (s := s.took rest) hc, State.respond, emit_emit]
    rfl

/-! ### Which operations call a step -/

/-- A call of `PpuStep` or of `CpuStep`. -/
def Event.isStepCall (e : Event) : Bool := e.isPpuStep || e.isCpuStep

theorem isStepCall_of_isPpuStep (e : Event) (h : e.isPpuStep = true) : e.isStepCall = true := by
  rw [Event.isStepCall, h, Bool.true_or]

theorem isStepCall_of_isCpuStep (e : Event) (h : e.isCpuStep = true) : e.isStepCall = true := by
  rw [Event.isStepCall, h, Bool.or_true]

/-- What a record has none of, it has none of any kind of. -/
theorem countEvents_eq_zero_of_imp {p q : Event → Bool} {es : List Event} (himp : ∀ e, p e = true → q e = true)
    (h : countEvents q es = 0) : countEvents p es = 0 :=
  Nat.le_zero.mp (h ▸ List.countP_mono_left fun e _ => himp e)

/-- No operation but TICK calls a step (R137). -/
theorem instrEvents_stepCalls {i : Instr} (hi : i ≠ .tick) (s : State) :
    countEvents Event.isStepCall (instrEvents i s) = 0 := by
  cases i with
  | init sel => rw [instrEvents, initEvents]; split <;> rfl
  | shut => rfl
  | tick => exact absurd rfl hi
  | rd a =>
    rw [instrEvents, readEvents]
    split
    · rfl
    · cases region a <;> rfl
  | wr a v =>
    rw [instrEvents, writeEvents]
    split
    · rfl
    · cases region a <;> rfl

theorem instrEvents_ppuSteps (i : Instr) (s : State) :
    countEvents Event.isPpuStep (instrEvents i s) = if i = .tick then 1 else 0 := by
  split
  · next hi => subst hi; rfl
  · next hi => exact countEvents_eq_zero_of_imp isStepCall_of_isPpuStep (instrEvents_stepCalls hi s)

/-- No operation calls `CpuStep` by itself: the return of a TICK's picture step does (R130). -/
theorem instrEvents_cpuSteps (i : Instr) (s : State) : countEvents Event.isCpuStep (instrEvents i s) = 0 := by
  by_cases hi : i = .tick
  · subst hi; rfl
  · exact countEvents_eq_zero_of_imp isStepCall_of_isCpuStep (instrEvents_stepCalls hi s)

/-- A TICK is an accepted command, so an operation records none. -/
theorem instrEvents_ticks (i : Instr) (s : State) : countEvents Event.isTick (instrEvents i s) = 0 :=
  countEvents_eq_zero_of_imp (fun e he => by cases e <;> simp_all) (instrEvents_commands i s)

theorem ppuStep_mem_instrEvents {i : Instr} (h : .ppuStep ∈ instrEvents i s) : i = .tick := by
  by_contra hi
  have hcount := instrEvents_ppuSteps i s
  rw [if_neg hi] at hcount
  exact List.countP_eq_zero.mp hcount _ h rfl

theorem cpuStep_notMem_instrEvents {i : Instr} : .cpuStep ∉ instrEvents i s :=
  fun h => List.countP_eq_zero.mp (instrEvents_cpuSteps i s) _ h rfl

/-- Settles O23: the first part by the events of an operation, the second by cases on what the step did. -/
theorem onlyTickDrivesTheSteps : Obligations.OnlyTickDrivesTheSteps := by
  unfold Obligations.OnlyTickDrivesTheSteps
  refine ⟨fun i s t h => ⟨_, exec_trace h, instrEvents_cpuSteps i s, instrEvents_ppuSteps i s⟩, fun s t h => ?_⟩
  rcases step_cases h with ⟨-, -, rfl⟩ | ⟨w, i, rest, hb, hd, he⟩ | ⟨w, rest, -, -, rfl⟩ | ⟨rest, hb, rfl⟩
    | ⟨rest, -, rfl⟩
  case inl => exact ⟨[], by simp, nofun, nofun⟩
  case inr.inl =>
    refine ⟨.command w :: instrEvents i (s.accept w rest), by simp [exec_trace he], fun hmem => ?_, fun hmem => ?_⟩
    · have hi : i = .tick := ppuStep_mem_instrEvents (by simpa using hmem)
      exact ⟨w, rest, hb, hi ▸ hd⟩
    · exact absurd (by simpa using hmem) (cpuStep_notMem_instrEvents (i := i) (s := s.accept w rest))
  case inr.inr.inl => exact ⟨[.command w, .response 0 .illegal], by simp [State.reservedWord], by simp, by simp⟩
  case inr.inr.inr.inl =>
    rcases stepReturned_cases (s.took rest) with ⟨-, heq⟩ | ⟨c, hc, -, heq⟩ | ⟨-, heq⟩ <;> rw [heq]
    · exact ⟨[], by simp, nofun, nofun⟩
    · exact ⟨[.returned, .cpuStep], rfl, by simp, fun _ => ⟨⟨c, hc⟩, rest, hb⟩⟩
    · exact ⟨[.returned, .response 0 .ok], by simp, by simp, by simp⟩
  case inr.inr.inr.inr => exact ⟨[.powerOn], rfl, by simp, by simp⟩

end Sys2Proof.Machine
end

section
/-! The clock family: the steps of a whole run follow the counter (R130, R131), their cadence (R133), and the slip at
the wrap (R134). -/

namespace Sys2Proof.Machine

variable {s t : State}

/-- The `CpuStep` calls that the TICK in progress is still to make: one while the picture unit steps on a
processor-clock edge (R131), and else none. -/
def cpuStepsOwed (s : State) : Nat :=
  match s.ctx with
  | .inPpu c => if stepEnable s.cfg c then 1 else 0
  | .host | .inCpu => 0

theorem cpuStepsOwed_of_host (h : s.ctx = .host) : cpuStepsOwed s = 0 := by
  rw [cpuStepsOwed, h]

theorem cpuStepsOwed_of_inPpu {c : Nat} (h : s.ctx = .inPpu c) :
    cpuStepsOwed s = if stepEnable s.cfg c then 1 else 0 := by
  rw [cpuStepsOwed, h]

theorem cpuStepsOwed_of_inCpu (h : s.ctx = .inCpu) : cpuStepsOwed s = 0 := by
  rw [cpuStepsOwed, h]

/-- From `s` to `t` every TICK called `PpuStep`, the stepping ticks called `CpuStep` or still owe it, and the counter
moved by the TICKs. -/
def StepsFollowCounter (s t : State) : Prop :=
  ∃ es, t.trace = s.trace ++ es
    ∧ countEvents Event.isPpuStep es = countEvents Event.isTick es
    ∧ countEvents Event.isCpuStep es + cpuStepsOwed t
      = cpuStepsOwed s + steppingTicks s.cfg s.mcc (countEvents Event.isTick es)
    ∧ t.mcc = (s.mcc + countEvents Event.isTick es) % 2 ^ s.cfg.cw

/-- Of two parts of a run with the same parameters, the second counts on from where the first left the counter. -/
theorem StepsFollowCounter.trans {u : State} (hcfg : t.cfg = s.cfg) (h : StepsFollowCounter s t)
    (h' : StepsFollowCounter t u) : StepsFollowCounter s u := by
  obtain ⟨es, htr, hppu, hcpu, hmcc⟩ := h
  obtain ⟨es', htr', hppu', hcpu', hmcc'⟩ := h'
  rw [hcfg, hmcc] at hcpu' hmcc'
  refine ⟨es ++ es', by rw [htr', htr, List.append_assoc], ?_⟩
  simp only [countEvents_append, steppingTicks_add]
  refine ⟨by rw [hppu, hppu'], by omega, ?_⟩
  rw [hmcc', Nat.mod_add_mod, Nat.add_assoc]

/-- A part of a run with no TICK and no `PpuStep` that leaves the counter alone. -/
theorem StepsFollowCounter.of_no_tick (hm : s.mcc < 2 ^ s.cfg.cw) (es : List Event) (htr : t.trace = s.trace ++ es)
    (htick : countEvents Event.isTick es = 0) (hppu : countEvents Event.isPpuStep es = 0)
    (hcpu : countEvents Event.isCpuStep es + cpuStepsOwed t = cpuStepsOwed s) (hmcc : t.mcc = s.mcc) :
    StepsFollowCounter s t := by
  refine ⟨es, htr, by rw [htick, hppu], ?_, ?_⟩
  · rw [htick, hcpu]
    rfl
  · rw [htick, hmcc, Nat.add_zero, Nat.mod_eq_of_lt hm]

theorem StepsFollowCounter.refl (hm : s.mcc < 2 ^ s.cfg.cw) : StepsFollowCounter s s :=
  .of_no_tick hm [] (by simp) rfl rfl (Nat.zero_add _) rfl

/-- The TICK's own step: it calls `PpuStep`, and owes `CpuStep` where its counter enables it. -/
theorem tickEffect_stepsFollowCounter {w : Cmd} (rest : List Input) (hm : s.mcc < 2 ^ s.cfg.cw) (hc : s.ctx = .host)
    (hd : decode w = some .tick) : StepsFollowCounter s (tickEffect (s.accept w rest)) := by
  have htick : countEvents Event.isTick [.command w, .ppuStep] = 1 := by simp [countEvents, hd]
  refine ⟨[.command w, .ppuStep], by simp [tickEffect], ?_⟩
  rw [htick, steppingTicks_one hm, cpuStepsOwed_of_host hc, cpuStepsOwed_of_inPpu rfl]
  exact ⟨rfl, rfl, rfl⟩

theorem countEvents_cons_of_neg {p : Event → Bool} {e : Event} {es : List Event} (h : p e = false) :
    countEvents p (e :: es) = countEvents p es :=
  List.countP_cons_of_neg (Bool.eq_false_iff.mp h)

/-- An accepted operation other than TICK and INIT. -/
theorem exec_stepsFollowCounter {w : Cmd} {i : Instr} {rest : List Input} (hm : s.mcc < 2 ^ s.cfg.cw)
    (hd : decode w = some i) (htick : i ≠ .tick) (hinit : ∀ sel, i ≠ .init sel)
    (he : exec i (s.accept w rest) = .next t) : StepsFollowCounter s t := by
  have hctx : t.ctx = s.ctx := (exec_ctx he).resolve_right htick
  have hmcc : t.mcc = s.mcc := (exec_mcc he).resolve_right (by simp [htick, hinit])
  have hcfg : t.cfg = s.cfg := exec_cfg (s := s.accept w rest) he
  refine .of_no_tick hm (.command w :: instrEvents i (s.accept w rest)) (by simp [exec_trace he]) ?_ ?_ ?_ hmcc
  · rw [countEvents_cons_of_neg (by simp [hd, htick]), instrEvents_ticks]
  · rw [countEvents_cons_of_neg rfl, instrEvents_ppuSteps, if_neg htick]
  · rw [countEvents_cons_of_neg rfl, instrEvents_cpuSteps, Nat.zero_add, cpuStepsOwed, cpuStepsOwed, hctx, hcfg]

/-- The return of a step makes the `CpuStep` call that is owed, if one is. -/
theorem stepReturned_stepsFollowCounter (hm : s.mcc < 2 ^ s.cfg.cw) : StepsFollowCounter s (stepReturned s) := by
  rcases stepReturned_cases s with ⟨-, heq⟩ | ⟨c, hc, hen, heq⟩ | ⟨hc, heq⟩ <;> rw [heq]
  · exact .refl hm
  · refine .of_no_tick hm [.returned, .cpuStep] rfl rfl rfl ?_ rfl
    rw [cpuStepsOwed_of_inPpu hc, if_pos hen, cpuStepsOwed_of_inCpu rfl]
    rfl
  · have howed : cpuStepsOwed s = 0 := by
      rcases hc with ⟨c, hc, hen⟩ | hc
      · rw [cpuStepsOwed_of_inPpu hc, hen]
        rfl
      · exact cpuStepsOwed_of_inCpu hc
    refine .of_no_tick hm [.returned, .response 0 .ok] (by simp) rfl rfl ?_ rfl
    rw [howed, cpuStepsOwed_of_host rfl]
    rfl

/-- A word that does not restart is no INIT. -/
theorem ne_init_of_restarts {w : Cmd} {i : Instr} (h : (Input.command w).restarts = false)
    (hd : decode w = some i) (sel : Selector) : i ≠ .init sel := by
  rintro rfl
  simp [Input.restarts, hd] at h

/-- Inside a session every step follows the counter. -/
theorem step_stepsFollowCounter (hm : s.mcc < 2 ^ s.cfg.cw) (hin : ∀ x ∈ s.inbox, x.restarts = false)
    (h : step s = .next t) : StepsFollowCounter s t := by
  rcases step_cases h with ⟨-, -, rfl⟩ | ⟨w, i, rest, hb, hd, he⟩ | ⟨w, rest, -, hd, rfl⟩ | ⟨rest, -, rfl⟩
    | ⟨rest, hb, rfl⟩
  case inl => exact .refl hm
  case inr.inl =>
    have hnoinit := ne_init_of_restarts (hin (.command w) (by simp [hb])) hd
    by_cases hi : i = .tick
    · subst hi
      obtain ⟨⟨hc, -⟩, rfl⟩ := exec_tick_next.mp he
      exact tickEffect_stepsFollowCounter rest hm hc hd
    · exact exec_stepsFollowCounter hm hd hi hnoinit he
  case inr.inr.inl =>
    exact .of_no_tick hm [.command w, .response 0 .illegal] (by simp [State.reservedWord])
      (by simp [countEvents, hd]) rfl (Nat.zero_add _) rfl
  case inr.inr.inr.inl => exact stepReturned_stepsFollowCounter (s := s.took rest) hm
  case inr.inr.inr.inr => exact absurd (hin .powerOn (by simp [hb])) (by simp [Input.restarts])

/-- In a sound state the counter fits its width (R21). -/
theorem mcc_lt_of_inv (h : s.inv = true) : s.mcc < 2 ^ s.cfg.cw := by
  obtain ⟨-, -, hm, -⟩ := State.inv_iff.mp h
  exact hm

/-- A run inside a session, from and to anywhere in a TICK, follows the counter. -/
theorem runSteps_stepsFollowCounter {n : Nat} (hinv : s.inv = true) (hin : ∀ x ∈ s.inbox, x.restarts = false)
    (h : runSteps n s = .next t) : StepsFollowCounter s t := by
  refine runSteps_induction
    (R := fun u v => u.inv = true → (∀ x ∈ u.inbox, x.restarts = false) → StepsFollowCounter u v)
    (fun u hu _ => .refl (mcc_lt_of_inv hu)) ?_ h hinv hin
  intro u v w hs hrest hu huin
  have hvin : ∀ x ∈ v.inbox, x.restarts = false := fun x hx => huin x (List.mem_of_mem_tail (step_inbox hs ▸ hx))
  exact (step_stepsFollowCounter (mcc_lt_of_inv hu) huin hs).trans (step_cfg hs)
    (hrest (stepKeepsTheStateSound u v hu hs) hvin)

/-- Settles O19: at HOST, where the run begins and ends, no `CpuStep` is owed. -/
theorem processorStepsFollowTheCounter : Obligations.ProcessorStepsFollowTheCounter := by
  unfold Obligations.ProcessorStepsFollowTheCounter
  intro n s t hinv hs ht hin h
  obtain ⟨es, htr, hppu, hcpu, hmcc⟩ := runSteps_stepsFollowCounter hinv hin h
  rw [cpuStepsOwed_of_host hs, cpuStepsOwed_of_host ht, Nat.add_zero, Nat.zero_add] at hcpu
  exact ⟨es, htr, hppu, hcpu, hmcc⟩

/-! ### The cadence -/

/-- One tick more steps the processor where the counter, moved on by the ticks before, enables it. -/
theorem steppingTicks_succ (cfg : Config) (c n : Nat) :
    steppingTicks cfg c (n + 1)
      = steppingTicks cfg c n + if stepEnable cfg ((c + n) % 2 ^ cfg.cw) then 1 else 0 := by
  rw [steppingTicks_add, steppingTicks_one (Nat.mod_lt _ (Nat.two_pow_pos _))]

/-- R133's closed form: without a wrap every third tick steps the processor, the first of them `j0` ticks from the
start. -/
theorem steppingTicks_of_no_wrap {cfg : Config} {c n : Nat} (h : c + n ≤ 2 ^ cfg.cw) :
    steppingTicks cfg c n = (n + 2 - (cfg.phase.val + 3 - c % 3) % 3) / 3 := by
  have hphase := cfg.phase.isLt
  induction n with
  | zero =>
    rw [show steppingTicks cfg c 0 = 0 from rfl]
    omega
  | succ n ih =>
    rw [steppingTicks_succ, ih (by omega), Nat.mod_eq_of_lt (show c + n < 2 ^ cfg.cw by omega)]
    simp only [stepEnable_iff]
    split <;> omega

/-- Settles O20: O19 gives the counts of the run, and without a wrap the closed form is theirs. -/
theorem cadenceIsOneStepInThree : Obligations.CadenceIsOneStepInThree := by
  unfold Obligations.CadenceIsOneStepInThree
  intro n s t es hinv hs ht hin h htr ticks j0 hwrap
  obtain ⟨es', htr', hppu, hcpu, -⟩ := processorStepsFollowTheCounter n s t hinv hs ht hin h
  obtain rfl : es' = es := List.append_cancel_left (htr'.symm.trans htr)
  have hclosed : countEvents Event.isCpuStep es' = (ticks + 2 - j0) / 3 := hcpu.trans (steppingTicks_of_no_wrap hwrap)
  have hj0 : j0 < 3 := Nat.mod_lt _ (by decide)
  rw [hclosed, hppu]
  refine ⟨rfl, fun h0 => ?_, fun h1 => ?_, fun h2 => ?_, fun k hk => ?_, fun hk => ?_⟩ <;> omega

/-! ### The wrap -/

theorem two_pow_mod_three (n : Nat) : 2 ^ n % 3 = if n % 2 = 0 then 1 else 2 := by
  induction n with
  | zero => rfl
  | succ n ih =>
    rw [Nat.pow_succ, Nat.mul_mod, ih]
    split <;> split <;> omega

/-- A row of R134's table: a stepping counter among the last three before the wrap, and an interval that leads from it
to PHASE behind the wrap, are the last stepping counter and its distance to the first one after it. -/
theorem wrap_row {cfg : Config} {last interval : Nat} (hphase : cfg.phase.val < 2 ^ cfg.cw) (hlt : last < 2 ^ cfg.cw)
    (hres : last % 3 = cfg.phase.val) (hnear : 2 ^ cfg.cw ≤ last + 3)
    (hsum : last + interval = 2 ^ cfg.cw + cfg.phase.val) :
    last < 2 ^ cfg.cw
    ∧ stepEnable cfg last = true ∧ (∀ c, last < c → c < 2 ^ cfg.cw → stepEnable cfg c = false)
    ∧ stepEnable cfg cfg.phase.val = true ∧ (∀ c, c < cfg.phase.val → stepEnable cfg c = false)
    ∧ cfg.phase.val < 2 ^ cfg.cw ∧ (last + interval) % 2 ^ cfg.cw = cfg.phase.val := by
  have hthree := cfg.phase.isLt
  simp only [stepEnable_iff, stepEnable_eq_false_iff]
  refine ⟨hlt, hres, fun c hc hcm => by omega, Nat.mod_eq_of_lt hthree, fun c hc => by omega, hphase, ?_⟩
  rw [hsum, Nat.add_mod_left, Nat.mod_eq_of_lt hphase]

/-- Settles O21: the entries of the table for each parity of `CW` and each PHASE make a `wrap_row`. -/
theorem wrapSlipsByTheTable : Obligations.WrapSlipsByTheTable := by
  unfold Obligations.WrapSlipsByTheTable
  refine ⟨two_pow_mod_three, rfl, by decide, fun cfg hwf => ?_⟩
  have hfour : 2 ^ 2 ≤ 2 ^ cfg.cw := Nat.pow_le_pow_right (by decide) (cfg_wf_iff.mp hwf).1
  have hmod := two_pow_mod_three cfg.cw
  have hthree := cfg.phase.isLt
  by_cases heven : cfg.cw % 2 = 0
  · simp only [heven, if_true] at hmod ⊢
    refine wrap_row (by omega) ?_ ?_ ?_ ?_ <;> split_ifs <;> omega
  · simp only [heven, if_false] at hmod ⊢
    refine wrap_row (by omega) ?_ ?_ ?_ ?_ <;> split_ifs <;> omega

end Sys2Proof.Machine
end

section
/-! The clock family: the accesses read neither the counter nor `ctx` nor what is to come (R136, R110), and the flat
TICK is the pseudocode of R130. -/

namespace Sys2Proof.Machine

variable {s t : State}

/-- The same block at another place of a run: another counter, another `ctx`, other inputs to come. -/
def State.placedAt (m : Nat) (c : Ctx) (b : List Input) (s : State) : State := { s with mcc := m, ctx := c, inbox := b }

/-- RD does the same at every place (R110, R136). -/
theorem readEffect_placedAt (m : Nat) (c : Ctx) (b : List Input) (a : Addr) (s : State) :
    readEffect a (s.placedAt m c b) = (readEffect a s).placedAt m c b := by
  have hanswer : (s.placedAt m c b).readAnswer = s.readAnswer := rfl
  unfold readEffect readFixedMap
  rw [hanswer]
  split
  · rfl
  · cases region a <;> rfl

/-- WR does the same at every place (R110, R136). -/
theorem writeEffect_placedAt (m : Nat) (c : Ctx) (b : List Input) (a : Addr) (v : Byte) (s : State) :
    writeEffect a v (s.placedAt m c b) = (writeEffect a v s).placedAt m c b := by
  have hanswer : (s.placedAt m c b).writeAnswer = s.writeAnswer := rfl
  unfold writeEffect writeFixedMap
  rw [hanswer]
  split
  · rfl
  · cases region a <;> rfl

/-- An access stays at its place, so there only the counter is another one. -/
theorem SameSession.placedAt_mcc (h : SameSession s t) (m : Nat) :
    t.placedAt m s.ctx s.inbox = { t with mcc := m } := by
  obtain ⟨-, -, -, hctx, -, hinbox⟩ := h
  rw [State.placedAt, ← hctx, ← hinbox]

/-- Parts of a session that end at HOST differ there only in the inputs to come. -/
theorem SameSession.placedAt_inbox (h : SameSession s t) (hc : s.ctx = .host) (b : List Input) :
    t.placedAt s.mcc .host b = { t with inbox := b } := by
  obtain ⟨-, hmcc, -, hctx, -⟩ := h
  rw [State.placedAt, ← hmcc, ← hc, ← hctx]

/-- Settles O24: admission of an access looks at `life` alone, and the effect carries another counter along unread. -/
theorem counterNeverReachesAnAccess : Obligations.CounterNeverReachesAnAccess := by
  unfold Obligations.CounterNeverReachesAnAccess
  rintro s t i m (⟨a, rfl⟩ | ⟨a, v, rfl⟩) hexec
  · obtain ⟨hl, rfl⟩ := exec_rd_next.mp hexec
    rw [← (readEffect_session a s).1.placedAt_mcc, ← readEffect_placedAt]
    exact exec_rd_next.mpr ⟨hl, rfl⟩
  · obtain ⟨hl, rfl⟩ := exec_wr_next.mp hexec
    rw [← (writeEffect_session a v s).placedAt_mcc, ← writeEffect_placedAt]
    exact exec_wr_next.mpr ⟨hl, rfl⟩

/-! ### The accesses of a step -/

theorem SameSession.trans {u : State} (h : SameSession s t) (h' : SameSession t u) : SameSession s u := by
  obtain ⟨hcfg, hmcc, hlife, hctx, hcart, hinbox⟩ := h
  obtain ⟨hcfg', hmcc', hlife', hctx', hcart', hinbox'⟩ := h'
  exact ⟨hcfg'.trans hcfg, hmcc'.trans hmcc, hlife'.trans hlife, hctx'.trans hctx, hcart'.trans hcart,
    hinbox'.trans hinbox⟩

theorem serve_session (x : Access) (s : State) : SameSession s (x.serve s) := by
  cases x with
  | rd a => exact (readEffect_session a (s.emit _)).1
  | wr a v => exact writeEffect_session a v (s.emit _)

theorem serveAll_session (xs : List Access) : ∀ s : State, SameSession s (serveAll xs s) := by
  induction xs with
  | nil => exact SameSession.refl
  | cons x xs ih => exact fun s => (serve_session x s).trans (ih (x.serve s))

/-- An access taken from the inbox is served as the pseudocode serves it, at every place. -/
theorem step_access (x : Access) (hl : s.life = .ready) (m : Nat) (c : Ctx) (rest : List Input) :
    step (s.placedAt m c (x.toInput :: rest)) = .next ((x.serve s).placedAt m c rest) := by
  rw [step_command rfl, runWord_decoded (decodeOfEncodeIsTheOperation x.toInstr)]
  cases x with
  | rd a => exact exec_rd_next.mpr ⟨hl, (readEffect_placedAt m c rest a (s.emit _)).symm⟩
  | wr a v => exact exec_wr_next.mpr ⟨hl, (writeEffect_placedAt m c rest a v (s.emit _)).symm⟩

/-- The accesses of a step are served one after the other, each complete before the next (R135). -/
theorem runSteps_accesses (xs : List Access) (m : Nat) (c : Ctx) (rest : List Input) :
    ∀ s : State, s.life = .ready →
      runSteps xs.length (s.placedAt m c (xs.map Access.toInput ++ rest))
        = .next ((serveAll xs s).placedAt m c rest) := by
  induction xs with
  | nil => exact fun s _ => rfl
  | cons x xs ih =>
    intro s hl
    obtain ⟨-, -, hlife, -⟩ := serve_session x s
    exact (runSteps_of_step (step_access x hl m c _)).trans (ih (x.serve s) (hlife.trans hl))

/-- The accesses of a step and then its return. -/
theorem runSteps_step_call (xs : List Access) (hl : s.life = .ready) (m : Nat) (c : Ctx) (rest : List Input) :
    runSteps (xs.length + 1) (s.placedAt m c (xs.map Access.toInput ++ .stepReturns :: rest))
      = .next (stepReturned ((serveAll xs s).placedAt m c rest)) :=
  (runSteps_add (runSteps_accesses xs m c _ s hl)).trans (runSteps_of_step (step_stepReturns rfl))

/-! ### The flat TICK is the pseudocode -/

/-- The return of the picture unit's step, at its place (R130). -/
theorem stepReturned_placedAt_inPpu (m c : Nat) (b : List Input) (s : State) :
    stepReturned (s.placedAt m (.inPpu c) b)
      = if stepEnable s.cfg c then (s.emit [.returned, .cpuStep]).placedAt m .inCpu b
        else ((s.emit [.returned]).respond 0 .ok).placedAt m .host b :=
  stepReturned_of_inPpu rfl

/-- The return of the processor's step, at its place (R130). -/
theorem stepReturned_placedAt_inCpu (m : Nat) (b : List Input) (s : State) :
    stepReturned (s.placedAt m .inCpu b) = ((s.emit [.returned]).respond 0 .ok).placedAt m .host b :=
  stepReturned_of_inCpu rfl

/-- The state in which the pseudocode calls `PpuStep` (R130). -/
def State.ppuCalled (s : State) : State := { s with mcc := (s.mcc + 1) % 2 ^ s.cfg.cw }.emit [.ppuStep]

/-- What the pseudocode does from the call of `PpuStep` on, by the step enable of the TICK (R130). -/
def afterPpuCall (e : Bool) (ppu cpu : List Access) (s : State) : State :=
  if e then ((serveAll cpu ((serveAll ppu s).emit [.returned, .cpuStep])).emit [.returned]).respond 0 .ok
  else ((serveAll ppu s).emit [.returned]).respond 0 .ok

theorem tickWhole_eq_afterPpuCall (ppu cpu : List Access) (s : State) :
    tickWhole ppu cpu s = afterPpuCall (stepEnable s.cfg s.mcc) ppu cpu s.ppuCalled := by
  obtain ⟨hcfg, -⟩ := serveAll_session ppu s.ppuCalled
  have hphase : ((serveAll ppu s.ppuCalled).emit [.returned]).cfg.phase = s.cfg.phase := congrArg Config.phase hcfg
  have hwhole : tickWhole ppu cpu s
      = (if s.mcc % 3 = ((serveAll ppu s.ppuCalled).emit [.returned]).cfg.phase.val
          then (serveAll cpu (((serveAll ppu s.ppuCalled).emit [.returned]).emit [.cpuStep])).emit [.returned]
          else (serveAll ppu s.ppuCalled).emit [.returned]).respond 0 .ok := rfl
  rw [hwhole, hphase, emit_emit, afterPpuCall]
  simp only [stepEnable_iff]
  split <;> rfl

theorem afterPpuCall_session (e : Bool) (ppu cpu : List Access) (s : State) :
    SameSession s (afterPpuCall e ppu cpu s) := by
  cases e with
  | true => exact (serveAll_session ppu s).trans (serveAll_session cpu _)
  | false => exact serveAll_session ppu s

/-- What is to come after the call of `PpuStep`: the accesses of the steps and their returns. -/
def stepInputs (e : Bool) (ppu cpu : List Access) (rest : List Input) : List Input :=
  ppu.map Access.toInput ++ .stepReturns :: (if e then cpu.map Access.toInput ++ .stepReturns :: rest else rest)

theorem tickInputs_append (cfg : Config) (c : Nat) (ppu cpu : List Access) (rest : List Input) :
    tickInputs cfg c ppu cpu ++ rest
      = .command (encode .tick) :: stepInputs (stepEnable cfg c) ppu cpu rest := by
  cases he : stepEnable cfg c <;> simp [tickInputs, stepInputs, he]

/-- The steps taken after the call of `PpuStep`: one for each access and each return. -/
def stepCount (e : Bool) (ppu cpu : List Access) : Nat :=
  ppu.length + 1 + (if e then cpu.length + 1 else 0)

theorem tickInputs_length (cfg : Config) (c : Nat) (ppu cpu : List Access) :
    (tickInputs cfg c ppu cpu).length = stepCount (stepEnable cfg c) ppu cpu + 1 := by
  cases he : stepEnable cfg c with
  | true => simp [tickInputs, stepCount, he, Nat.add_assoc, Nat.add_comm 1]
  | false => simp [tickInputs, stepCount, he]

/-- From the call of `PpuStep` on the flat model does what the pseudocode does, at its place (R130). -/
theorem runSteps_afterPpuCall (ppu cpu : List Access) (c : Nat) (rest : List Input) (hl : s.life = .ready) :
    runSteps (stepCount (stepEnable s.cfg c) ppu cpu)
        (s.placedAt s.mcc (.inPpu c) (stepInputs (stepEnable s.cfg c) ppu cpu rest))
      = .next ((afterPpuCall (stepEnable s.cfg c) ppu cpu s).placedAt s.mcc .host rest) := by
  obtain ⟨hcfg, -, hlife, -⟩ := serveAll_session ppu s
  have hfirst := runSteps_step_call ppu hl s.mcc (.inPpu c)
    (if stepEnable s.cfg c then cpu.map Access.toInput ++ .stepReturns :: rest else rest)
  rw [stepReturned_placedAt_inPpu, hcfg] at hfirst
  unfold stepCount stepInputs afterPpuCall
  rw [runSteps_add hfirst]
  cases he : stepEnable s.cfg c with
  | false => rfl
  | true =>
    have hsecond := runSteps_step_call (s := (serveAll ppu s).emit [.returned, .cpuStep]) cpu (hlife.trans hl) s.mcc
      .inCpu rest
    rw [stepReturned_placedAt_inCpu] at hsecond
    exact hsecond

/-- Settles O18: TICK's own step leads to the call of `PpuStep`, and from there on `runSteps_afterPpuCall` is the
pseudocode. -/
theorem tickEqualsItsPseudocode : Obligations.TickEqualsItsPseudocode := by
  unfold Obligations.TickEqualsItsPseudocode
  refine ⟨by decide, fun s hnot => ?_, fun s ppu cpu rest hl hc hb => ?_⟩
  · cases ha : admission .tick s with
    | none =>
      obtain ⟨hc, hl⟩ := admission_tick_none.mp ha
      exact hnot.elim (absurd hl) (absurd hc)
    | some r => exact ⟨r, exec_refused ha⟩
  · have hticked := step_tick hl hc (hb.trans (tickInputs_append _ _ _ _ _))
    have hrun := runSteps_afterPpuCall (s := (s.emit [.command (encode .tick)]).ppuCalled) ppu cpu s.mcc rest hl
    have hsession := afterPpuCall_session (stepEnable s.cfg s.mcc) ppu cpu (s.emit [.command (encode .tick)]).ppuCalled
    rw [tickInputs_length, runSteps_of_step hticked, tickWhole_eq_afterPpuCall]
    exact hrun.trans (congrArg _ (hsession.placedAt_inbox hc rest))

end Sys2Proof.Machine
end

section
/-! The lifecycle family: what INIT and SHUT do in each outcome (R150 to R152), the table of admission (R153), and that
a fresh INIT forgets the session before it (R154). -/

namespace Sys2Proof.Machine

variable {s t : State} {i : Instr} {sel : Selector}

/-! ### Admitted or refused -/

/-- An operation that is not admitted is refused, for one reason or another. -/
theorem exec_refused_of_not_admitted (h : admission i s ≠ none) : ∃ r, exec i s = .refused r := by
  obtain ⟨r, hr⟩ := Option.ne_none_iff_exists'.mp h
  exact ⟨r, exec_refused hr⟩

theorem exec_next_of_admitted (h : admission i s = none) : ∃ t, exec i s = .next t := by
  cases i <;> exact ⟨_, congrArg (orRefuse · _) h⟩

/-- INIT is admitted at every OFF HOST state, so after every SHUT and every failed INIT. -/
theorem exec_init_next_of_off (hl : s.life = .off) (hc : s.ctx = .host) (sel : Selector) :
    ∃ t, exec (.init sel) s = .next t :=
  exec_next_of_admitted (admission_init_none.mpr ⟨hc, hl⟩)

theorem exec_tick_of_off (hl : s.life = .off) (hc : s.ctx = .host) : exec .tick s = .refused .notReady :=
  exec_refused (by simp [admission, hl, hc])

theorem exec_shut_of_off (hl : s.life = .off) (hc : s.ctx = .host) : exec .shut s = .refused .notReady :=
  exec_refused (by simp [admission, hl, hc])

/-- The table of R153: the operations with a meaning in each `life` and `ctx`. -/
def tableAdmits (i : Instr) (s : State) : Prop :=
  (s.life = .off ∧ s.ctx = .host ∧ ∃ sel, i = .init sel)
  ∨ (s.life = .ready ∧ s.ctx = .host ∧ ((∃ a, i = .rd a) ∨ (∃ a v, i = .wr a v) ∨ i = .tick ∨ i = .shut))
  ∨ (s.life = .ready ∧ s.ctx ≠ .host ∧ ((∃ a, i = .rd a) ∨ (∃ a v, i = .wr a v)))

/-- The accesses stand in both READY rows of the table, so `ctx` falls out for them. -/
theorem tableAdmits_iff : tableAdmits i s ↔ admission i s = none := by
  cases i with
  | init sel => simp [tableAdmits, admission_init_none, and_comm]
  | shut => simp [tableAdmits, admission_shut_none, and_comm]
  | tick => simp [tableAdmits, admission_tick_none, and_comm]
  | rd a => by_cases hc : s.ctx = .host <;> simp [tableAdmits, admission_rd_none, hc]
  | wr a v => by_cases hc : s.ctx = .host <;> simp [tableAdmits, admission_wr_none, hc]

/-- Settles O28: the table is what admission looks at, and a reserved word is answered before any admission. -/
theorem lifecycleAdmitsExactlyTheTable : Obligations.LifecycleAdmitsExactlyTheTable := by
  unfold Obligations.LifecycleAdmitsExactlyTheTable
  refine ⟨fun i s => ?_, fun s w rest hreserved hb => ?_⟩
  · exact ⟨fun h => exec_next_of_admitted (tableAdmits_iff.mp h),
      fun h => exec_refused_of_not_admitted (mt tableAdmits_iff.mpr h)⟩
  · refine ⟨_, (step_command hb).trans (runWord_reserved hreserved), ?_⟩
    simp [State.reservedWord, State.accept]

/-! ### INIT -/

/-- INIT's word as a number: the operation code above the selector (R81, R84). -/
theorem encode_init_toNat (sel : Selector) : (encode (.init sel)).toNat = 0x20000000 + sel.toNat := by
  have hlt := sel.isLt
  rw [encode, wordOf_toNat, BitVec.extractLsb'_toNat, BitVec.extractLsb'_toNat, Nat.shiftRight_eq_div_pow,
    Nat.shiftRight_zero]
  simp only [BitVec.toNat_ofNat]
  omega

/-- INIT's zero-fill as a reader of RAM sees it. -/
theorem initEffect_read (sel : Selector) (s : State) (k : Nat) : Memory.read (initEffect sel s).ram k = 0x00 := by
  obtain ⟨-, hram, -⟩ := initEffect_fields sel s
  rw [hram, Memory.read_nil]
  rfl

theorem initEvents_of_ok (h : s.insertAnswer = true) :
    initEvents sel s = [.cartInsert sel true, .cpuInit, .response 0x00 .ok] := by
  simp [initEvents, h]

theorem initEvents_of_fail (h : s.insertAnswer = false) :
    initEvents sel s = [.cartInsert sel false, .response 0x00 .loadErr] := by
  simp [initEvents, h]

/-- Settles O25: the block by `initEffect_fields`, the record of each answer by its equation for `initEvents`. -/
theorem initClearsInsertsAndStarts : Obligations.InitClearsInsertsAndStarts := by
  unfold Obligations.InitClearsInsertsAndStarts
  intro s sel
  refine ⟨encode_init_toNat sel, fun hnot => exec_refused_of_not_admitted fun hadm => ?_, fun hl hc => ?_⟩
  · obtain ⟨hc, hl⟩ := admission_init_none.mp hadm
    exact hnot.elim (absurd hl) (absurd hc)
  · obtain ⟨hcfg, -, hmcc, hctx, hinbox, hlife, hcart⟩ := initEffect_fields sel s
    refine ⟨s.insertAnswer, initEffect sel s, exec_init_next.mpr ⟨⟨hc, hl⟩, rfl⟩,
      fun x xs h => (insertAnswer_cons h).symm, initEffect_read sel s, hmcc, hcfg, hctx.trans hc,
      hinbox, hcart, ?_⟩
    rw [hlife, initEffect_trace]
    exact ⟨fun hok => ⟨if_pos hok, by rw [initEvents_of_ok hok]⟩,
      fun hfail => ⟨if_neg (by simp [hfail]), by rw [initEvents_of_fail hfail]⟩⟩

/-- Settles O26: a failed INIT ends OFF at HOST, and what is refused and admitted there is R153's row. -/
theorem failedInitLeavesOnlyInit : Obligations.FailedInitLeavesOnlyInit := by
  unfold Obligations.FailedInitLeavesOnlyInit
  intro s t sel hexec hfail
  obtain ⟨⟨hc, -⟩, rfl⟩ := exec_init_next.mp hexec
  obtain ⟨-, -, hmcc, hctx, -, hlife, -⟩ := initEffect_fields sel s
  have hoff : (initEffect sel s).life = .off := hlife.trans (if_neg (by simp [hfail]))
  have hhost : (initEffect sel s).ctx = .host := hctx.trans hc
  refine ⟨initEffect_read sel s, hmcc, hoff, ⟨_, initEffect_trace sel s, ?_⟩,
    fun a => exec_rd_of_off hoff, fun a v => exec_wr_of_off hoff, exec_tick_of_off hoff hhost,
    exec_shut_of_off hoff hhost, exec_init_next_of_off hoff hhost⟩
  simp [initEvents_of_fail hfail]

/-! ### SHUT -/

/-- Settles O27: the block by `shutEffect_fields`; SHUT ends OFF at HOST, where a second SHUT is refused. -/
theorem shutEndsTheSessionOnce : Obligations.ShutEndsTheSessionOnce := by
  unfold Obligations.ShutEndsTheSessionOnce
  refine ⟨by decide, fun s => ⟨fun hnot => exec_refused_of_not_admitted fun hadm => ?_, fun hl hc => ?_⟩⟩
  · obtain ⟨hc, hl⟩ := admission_shut_none.mp hadm
    exact hnot.elim (absurd hl) (absurd hc)
  · obtain ⟨hcfg, hram, hmcc, hctx, hinbox, hlife, hcart⟩ := shutEffect_fields s
    have hhost : (shutEffect s).ctx = .host := hctx.trans hc
    exact ⟨s.removeAnswer, shutEffect s, exec_shut_next.mpr ⟨⟨hc, hl⟩, rfl⟩,
      fun x xs h => (removeAnswer_cons h).symm, hlife, hcart, hram, hmcc, hcfg, hhost, hinbox, shutEffect_trace s,
      exec_shut_of_off hlife hhost⟩

/-! ### A fresh INIT -/

/-- INIT overwrites RAM, the counter and the cartridge reference before anything reads them (R150, R154). -/
theorem initEffect_forgets (ram : Memory) (mcc : Nat) (ref : Bool) (sel : Selector) (s : State) :
    initEffect sel { s with ram := ram, mcc := mcc, cartRef := ref } = initEffect sel s := rfl

/-- Settles O30: INIT forgets what the session left, and both ends of a session are OFF at HOST. -/
theorem nothingSurvivesAFreshInit : Obligations.NothingSurvivesAFreshInit := by
  unfold Obligations.NothingSurvivesAFreshInit
  refine ⟨fun s t sel ram mcc ref hexec => ?_, fun s t sel hexec => ?_, fun s t sel sel' hexec hl => ?_⟩
  · obtain ⟨hadm, rfl⟩ := exec_init_next.mp hexec
    exact exec_init_next.mpr ⟨hadm, (initEffect_forgets ram mcc ref sel s).symm⟩
  · obtain ⟨⟨hc, -⟩, rfl⟩ := exec_shut_next.mp hexec
    obtain ⟨-, -, -, hctx, -, hlife, -⟩ := shutEffect_fields s
    exact exec_init_next_of_off hlife (hctx.trans hc) sel
  · obtain ⟨⟨hc, -⟩, rfl⟩ := exec_init_next.mp hexec
    obtain ⟨-, -, -, hctx, -⟩ := initEffect_fields sel s
    exact exec_init_next_of_off hl (hctx.trans hc) sel'

end Sys2Proof.Machine
end

section
/-! The signal-protocol family: one edge of a working block, said once (R190 to R201): what is accepted, and how the
job and the TICK move on. -/

namespace Sys2Proof.Machine

variable {p q r : PinState} {i : PinIn} {w : Cmd}

/-! ### Accepting a command -/

theorem ready_iff :
    p.ready = true ↔ p.mode = .running ∧ p.job = .none ∧ (p.tick = none ∨ p.tick = some .wait) := by
  simp [PinState.ready, and_assoc]

theorem accepts_iff : p.accepts i = true ↔ i.cmdValid = true ∧ p.ready = true := by
  simp [PinState.accepts]

/-- Everything that accepting a word can do (R191): answer a reserved word, begin an admitted operation, or leave the
block unspecified. -/
theorem accept_cases (w : Cmd) (p : PinState) :
    (decode w = none
      ∧ p.accept w = { p with blk := p.blk.emit [.command w], job := .respond 0 .illegal false })
    ∨ (∃ op, decode w = some op ∧ admission op p.blk = none
      ∧ p.accept w = { p with blk := p.blk.emit [.command w] }.begin op)
    ∨ (∃ op x, decode w = some op ∧ admission op p.blk = some x
      ∧ p.accept w = { p with mode := .unspecified, job := .none, tick := none,
                              blk := (p.blk.emit [.command w]).scrambled p.cycle }) := by
  cases hd : decode w with
  | none => exact .inl ⟨rfl, by simp [PinState.accept, hd]⟩
  | some op =>
    cases ha : admission op p.blk with
    | none => exact .inr (.inl ⟨op, rfl, ha, by simp [PinState.accept, hd, ha]⟩)
    | some x => exact .inr (.inr ⟨op, x, rfl, ha, by simp [PinState.accept, hd, ha]⟩)

@[simp] theorem begin_mode (op : Instr) (p : PinState) : (p.begin op).mode = p.mode := by cases op <;> rfl
@[simp] theorem begin_trace (op : Instr) (p : PinState) : (p.begin op).blk.trace = p.blk.trace := by cases op <;> rfl

/-- An accepted word is recorded, whatever becomes of it. -/
@[simp] theorem pinAccept_trace (w : Cmd) (p : PinState) :
    (p.accept w).blk.trace = p.blk.trace ++ [.command w] := by
  rcases accept_cases w p with ⟨-, h⟩ | ⟨op, -, -, h⟩ | ⟨op, x, -, -, h⟩ <;> rw [h] <;> simp

theorem accept_reserved (h : decode w = none) :
    p.accept w = { p with blk := p.blk.emit [.command w], job := .respond 0 .illegal false } := by
  simp [PinState.accept, h]

theorem accept_admitted {op : Instr} (h : decode w = some op) (ha : admission op p.blk = none) :
    p.accept w = { p with blk := p.blk.emit [.command w] }.begin op := by
  simp [PinState.accept, h, ha]

theorem accept_refused {op : Instr} {x : Refusal} (h : decode w = some op) (ha : admission op p.blk = some x) :
    p.accept w = { p with mode := .unspecified, job := .none, tick := none,
                          blk := (p.blk.emit [.command w]).scrambled p.cycle } := by
  simp [PinState.accept, h, ha]

/-! ### Advancing the job -/

/-- The call of the adapter as the record shows it, with what is sampled at the acknowledging edge (R193). -/
def CartCall.event (i : PinIn) : CartCall → Event
  | .read a => .cartRead a i.cartRdata i.cartHijack
  | .write a v => .cartWrite a v i.cartHijack
  | .insert sel => .cartInsert sel (!i.cartFail)
  | .remove => .cartRemove (!i.cartFail)

theorem acked_read_hijack {a : Addr} (h : i.cartHijack = true) :
    p.acked (.read a) i = { p with blk := p.blk.emit [.cartRead a i.cartRdata true],
                                   job := .respond i.cartRdata .ok false } := by
  simp [PinState.acked, h]

theorem acked_read_passed {a : Addr} (h : i.cartHijack = false) :
    p.acked (.read a) i = { p with blk := p.blk.emit [.cartRead a i.cartRdata false] }.readMap a := by
  simp [PinState.acked, h]

theorem acked_write_hijack {a : Addr} {v : Byte} (h : i.cartHijack = true) :
    p.acked (.write a v) i = { p with blk := p.blk.emit [.cartWrite a v true], job := .respond 0 .ok false } := by
  simp [PinState.acked, h]

theorem acked_write_passed {a : Addr} {v : Byte} (h : i.cartHijack = false) :
    p.acked (.write a v) i = { p with blk := p.blk.emit [.cartWrite a v false] }.writeMap a v := by
  simp [PinState.acked, h]

theorem acked_insert_ok {sel : Selector} (h : i.cartFail = false) :
    p.acked (.insert sel) i = { p with blk := p.blk.emit [.cartInsert sel true], job := .cpuInit .pend } := by
  simp [PinState.acked, h]

theorem acked_insert_fail {sel : Selector} (h : i.cartFail = true) :
    p.acked (.insert sel) i = { p with blk := (p.blk.emit [.cartInsert sel false]).setLife .off,
                                       job := .respond 0 .loadErr false } := by
  simp [PinState.acked, h]

theorem acked_remove :
    p.acked .remove i = { p with blk := (p.blk.emit [.cartRemove (!i.cartFail)]).setLife .off,
                                 job := .respond 0 (if i.cartFail then .unloadErr else .ok) false } := rfl

theorem readMap_ram {a : Addr} {k : RamIndex} (h : region a = .ram k) :
    p.readMap a = { p with job := .respond (p.blk.readRam k) .ok false } := by
  rw [PinState.readMap, h]

theorem readMap_ppu {a : Addr} {k : RegIndex} (h : region a = .ppu k) :
    p.readMap a = { p with job := .reg k false 0 false } := by
  rw [PinState.readMap, h]

theorem readMap_unmapped {a : Addr} (h : region a = .unmapped) :
    p.readMap a = { p with blk := p.blk.afterDraw, job := .respond p.blk.drawn .ok false } := by
  rw [PinState.readMap, h]

theorem writeMap_ram {a : Addr} {v : Byte} {k : RamIndex} (h : region a = .ram k) :
    p.writeMap a v = { p with blk := p.blk.writeRam k v, job := .respond 0 .ok false } := by
  rw [PinState.writeMap, h]

theorem writeMap_ppu {a : Addr} {v : Byte} {k : RegIndex} (h : region a = .ppu k) :
    p.writeMap a v = { p with job := .reg k true v false } := by
  rw [PinState.writeMap, h]

theorem writeMap_unmapped {a : Addr} {v : Byte} (h : region a = .unmapped) :
    p.writeMap a v = { p with job := .respond 0 .ok false } := by
  rw [PinState.writeMap, h]

/-- An acknowledged call leads to a response, a register call or `CpuInit`, which are yet to be launched, and records
itself. -/
theorem acked_spec (c : CartCall) (i : PinIn) (p : PinState) :
    ((∃ d st, (p.acked c i).job = .respond d st false)
      ∨ (∃ k w v, (p.acked c i).job = .reg k w v false) ∨ (p.acked c i).job = .cpuInit .pend)
    ∧ (p.acked c i).mode = p.mode ∧ (p.acked c i).tick = p.tick ∧ (p.acked c i).blk.ctx = p.blk.ctx
    ∧ (p.acked c i).blk.trace = p.blk.trace ++ [c.event i] := by
  cases c with
  | read a =>
    cases hh : i.cartHijack <;> cases hr : region a <;>
      simp [PinState.acked, PinState.readMap, CartCall.event, hh, hr]
  | write a v =>
    cases hh : i.cartHijack <;> cases hr : region a <;>
      simp [PinState.acked, PinState.writeMap, CartCall.event, hh, hr]
  | insert sel => cases hf : i.cartFail <;> simp [PinState.acked, CartCall.event, hf]
  | remove => cases hf : i.cartFail <;> simp [PinState.acked, CartCall.event, hf]

/-- Everything that the sampled inputs can do to the job (R192 to R195). -/
theorem advanceJob_cases (i : PinIn) (p : PinState) :
    (p.advanceJob i = p ∧ (∀ d st, p.job ≠ .respond d st true) ∧ p.job ≠ .cpuInit .pulse)
    ∨ (∃ c, p.job = .cart c true ∧ i.cartAck = true ∧ p.advanceJob i = p.acked c i)
    ∨ (∃ k w v, p.job = .reg k w v true ∧ i.ppuRegAck = true
      ∧ p.advanceJob i = { p with blk := p.blk.emit [.ppuReg k w v i.ppuRegRdata],
                                  job := .respond (if w then 0 else i.ppuRegRdata) .ok false })
    ∨ (p.job = .cpuInit .pulse ∧ p.advanceJob i = { p with job := .cpuInit .wait })
    ∨ (p.job = .cpuInit .wait ∧ i.cpuInitDone = true
      ∧ p.advanceJob i = { p with blk := p.blk.setLife .ready, job := .respond 0 .ok false })
    ∨ (∃ d st, p.job = .respond d st true ∧ p.advanceJob i = { p with job := .none }) := by
  unfold PinState.advanceJob
  split
  · next c hj => cases ha : i.cartAck <;> simp [hj]
  · next k w v hj =>
    cases ha : i.ppuRegAck
    · simp [hj]
    · exact .inr (.inr (.inl ⟨k, w, v, hj, rfl, by simp⟩))
  · next hj => simp [hj]
  · next hj => cases ha : i.cpuInitDone <;> simp [hj]
  · next d st hj => simp [hj]
  · next hc hr hp hw hd => exact .inl ⟨rfl, hd, hp⟩

theorem advanceJob_none (h : p.job = .none) : p.advanceJob i = p := by
  simp [PinState.advanceJob, h]

theorem advanceJob_given {d : Byte} {st : Status} (h : p.job = .respond d st true) :
    p.advanceJob i = { p with job := .none } := by
  simp [PinState.advanceJob, h]

theorem advanceJob_held {d : Byte} {st : Status} (h : p.job = .respond d st false) : p.advanceJob i = p := by
  simp [PinState.advanceJob, h]

/-- The sampled inputs of the job touch neither the TICK nor the mode. -/
theorem advanceJob_frame (i : PinIn) (p : PinState) :
    (p.advanceJob i).mode = p.mode ∧ (p.advanceJob i).tick = p.tick ∧ (p.advanceJob i).blk.ctx = p.blk.ctx := by
  rcases advanceJob_cases i p with ⟨h, -⟩ | ⟨c, -, -, h⟩ | ⟨k, w, v, -, -, h⟩ | ⟨-, h⟩ | ⟨-, -, h⟩ | ⟨d, st, -, h⟩
  case inr.inl =>
    obtain ⟨-, hm, ht, hc, -⟩ := acked_spec c i p
    rw [h]
    exact ⟨hm, ht, hc⟩
  all_goals rw [h]; exact ⟨rfl, rfl, rfl⟩

/-! ### The edge before `launch` -/

/-- The block after it has accepted a command or advanced its job, before the TICK moves on. -/
def PinState.taken (i : PinIn) (p : PinState) : PinState := if p.accepts i then p.accept i.cmd else p.advanceJob i

theorem taken_accept (hv : i.cmdValid = true) (hr : p.ready = true) : p.taken i = p.accept i.cmd :=
  if_pos (accepts_iff.mpr ⟨hv, hr⟩)

theorem taken_of_not_valid (hv : i.cmdValid = false) : p.taken i = p.advanceJob i := by
  simp [PinState.taken, PinState.accepts, hv]

theorem taken_of_job (h : p.job ≠ .none) : p.taken i = p.advanceJob i := by
  simp [PinState.taken, PinState.accepts, PinState.ready, h]

theorem taken_of_tick (h : p.tick ≠ none) (h' : p.tick ≠ some .wait) : p.taken i = p.advanceJob i := by
  simp [PinState.taken, PinState.accepts, PinState.ready, h, h']

theorem edge_of_no_call (h : p.tick = none ∨ p.tick = some .pend) : p.edge i = .next (p.taken i) := by
  rcases h with h | h <;> rw [PinState.edge, h] <;> rfl

theorem edge_of_pulse (h : p.tick = some .pulse) : p.edge i = .next { p.taken i with tick := some .wait } := by
  rw [PinState.edge, h]
  rfl

theorem edge_of_wait (h : p.tick = some .wait) :
    p.edge i = if p.stepDone i = true ∧ (p.taken i).mode = .running then
        (if (p.taken i).job.accessOpen = true then .fault .doneDuringAccess else .next (p.taken i).doneSeen)
      else .next (p.taken i) := by
  rw [PinState.edge, h]
  rfl

theorem edge_of_deferred (h : p.tick = some .done) : p.edge i = .next (p.taken i).doneSeen := by
  rw [PinState.edge, h]
  rfl

theorem edge_of_not_done (h : p.tick = some .wait) (hd : p.stepDone i = false) : p.edge i = .next (p.taken i) := by
  simp [edge_of_wait h, hd]

theorem edge_of_done (h : p.tick = some .wait) (hd : p.stepDone i = true) (hm : (p.taken i).mode = .running)
    (ho : (p.taken i).job.accessOpen = false) : p.edge i = .next (p.taken i).doneSeen := by
  simp [edge_of_wait h, hd, hm, ho]

theorem edge_of_done_open (h : p.tick = some .wait) (hd : p.stepDone i = true) (hm : (p.taken i).mode = .running)
    (ho : (p.taken i).job.accessOpen = true) : p.edge i = .fault .doneDuringAccess := by
  simp [edge_of_wait h, hd, hm, ho]

/-- Everything an edge that goes on can do after the job or the command: end a pulse, see the step's `*_done`, or
nothing. -/
theorem edge_cases (h : p.edge i = .next r) :
    (p.tick = some .pulse ∧ r = { p.taken i with tick := some .wait })
    ∨ ((p.tick = some .done
        ∨ (p.tick = some .wait ∧ p.stepDone i = true ∧ (p.taken i).mode = .running
          ∧ (p.taken i).job.accessOpen = false))
      ∧ r = (p.taken i).doneSeen)
    ∨ ((p.tick = none ∨ p.tick = some .pend
        ∨ (p.tick = some .wait ∧ (p.stepDone i = false ∨ (p.taken i).mode ≠ .running)))
      ∧ r = p.taken i) := by
  match ht : p.tick with
  | none | some .pend =>
    rw [edge_of_no_call (by simp [ht])] at h
    cases h
    exact .inr (.inr ⟨by simp, rfl⟩)
  | some .pulse =>
    rw [edge_of_pulse ht] at h
    cases h
    exact .inl ⟨rfl, rfl⟩
  | some .done =>
    rw [edge_of_deferred ht] at h
    cases h
    exact .inr (.inl ⟨.inl rfl, rfl⟩)
  | some .wait =>
    rw [edge_of_wait ht] at h
    split at h
    · next hdone =>
      split at h
      · cases h
      · next ho =>
        cases h
        exact .inr (.inl ⟨.inr ⟨rfl, hdone.1, hdone.2, by simpa using ho⟩, rfl⟩)
    · next hnot =>
      cases h
      refine .inr (.inr ⟨.inr (.inr ⟨rfl, ?_⟩), rfl⟩)
      cases hd : p.stepDone i
      · exact .inl rfl
      · exact .inr fun hm => hnot ⟨hd, hm⟩

/-! ### The return of a step -/

/-- Everything the return of a step can do at pin level (R198). -/
theorem returned_cases (p : PinState) :
    (p.blk.ctx = .host ∧ p.returned = p)
    ∨ (∃ c, p.blk.ctx = .inPpu c ∧ stepEnable p.blk.cfg c = true
      ∧ p.returned = { p with blk := (p.blk.setCtx .inCpu).emit [.returned], tick := some .pend })
    ∨ (((∃ c, p.blk.ctx = .inPpu c ∧ stepEnable p.blk.cfg c = false) ∨ p.blk.ctx = .inCpu)
      ∧ p.returned
        = { p with blk := (p.blk.setCtx .host).emit [.returned], tick := none, job := .respond 0 .ok false }) := by
  unfold PinState.returned
  cases hc : p.blk.ctx with
  | host => exact .inl ⟨rfl, rfl⟩
  | inPpu c =>
    cases he : stepEnable p.blk.cfg c with
    | true => exact .inr (.inl ⟨c, rfl, he, by simp [he]⟩)
    | false => exact .inr (.inr ⟨.inl ⟨c, rfl, he⟩, by simp [he]⟩)
  | inCpu => exact .inr (.inr ⟨.inr rfl, rfl⟩)

@[simp] theorem returned_mode (p : PinState) : p.returned.mode = p.mode := by
  rcases returned_cases p with ⟨-, h⟩ | ⟨c, -, -, h⟩ | ⟨-, h⟩ <;> rw [h]

@[simp] theorem doneSeen_mode (p : PinState) : p.doneSeen.mode = p.mode := by
  by_cases h : p.job = .none
  · rw [doneSeen_idle h, returned_mode]
  · rw [doneSeen_busy h]

/-! ### Launching -/

/-- Everything that launching can do to the job: what waits for its port is put there, and nothing else happens. -/
theorem launchJob_cases (p : PinState) :
    (∃ sel, p.job = .fill sel
      ∧ p.launchJob = { p with blk := p.blk.clear, job := .cart (.insert sel) true })
    ∨ (∃ c, p.job = .cart c false ∧ p.launchJob = { p with job := .cart c true })
    ∨ (∃ k w v, p.job = .reg k w v false ∧ p.launchJob = { p with job := .reg k w v true })
    ∨ (p.job = .cpuInit .pend
      ∧ p.launchJob = { p with blk := p.blk.emit [.cpuInit], job := .cpuInit .pulse })
    ∨ (∃ d st, p.job = .respond d st false
      ∧ p.launchJob = { p with blk := p.blk.respond d st, job := .respond d st true })
    ∨ ((∀ d st, p.job ≠ .respond d st false) ∧ p.launchJob = p) := by
  cases hj : p.job with
  | none => simp [PinState.launchJob, hj]
  | fill sel => simp [PinState.launchJob, hj]
  | cart c raised => cases raised <;> simp [PinState.launchJob, hj]
  | reg k w v raised => cases raised <;> simp [PinState.launchJob, hj]
  | cpuInit u => cases u <;> simp [PinState.launchJob, hj]
  | respond d st driven => cases driven <;> simp [PinState.launchJob, hj]

@[simp] theorem launchJob_mode (p : PinState) : p.launchJob.mode = p.mode := by
  rcases launchJob_cases p with ⟨_, -, h⟩ | ⟨_, -, h⟩ | ⟨_, _, _, -, h⟩ | ⟨-, h⟩ | ⟨_, _, -, h⟩ | ⟨-, h⟩ <;> rw [h]

@[simp] theorem launchJob_tick (p : PinState) : p.launchJob.tick = p.tick := by
  rcases launchJob_cases p with ⟨_, -, h⟩ | ⟨_, -, h⟩ | ⟨_, _, _, -, h⟩ | ⟨-, h⟩ | ⟨_, _, -, h⟩ | ⟨-, h⟩ <;> rw [h]

theorem launchJob_none (h : p.job = .none) : p.launchJob = p := by
  simp [PinState.launchJob, h]

theorem launchTick_pend (h : p.tick = some .pend) :
    p.launchTick = { p with blk := p.blk.emit [p.stepEvent], tick := some .pulse } := by
  simp [PinState.launchTick, h]

theorem launchTick_of_ne (h : p.tick ≠ some .pend) : p.launchTick = p := by
  unfold PinState.launchTick
  split
  · next h' => exact absurd h' h
  · rfl

@[simp] theorem launchTick_mode (p : PinState) : p.launchTick.mode = p.mode := by
  by_cases h : p.tick = some .pend
  · rw [launchTick_pend h]
  · rw [launchTick_of_ne h]

@[simp] theorem launchTick_job (p : PinState) : p.launchTick.job = p.job := by
  by_cases h : p.tick = some .pend
  · rw [launchTick_pend h]
  · rw [launchTick_of_ne h]

@[simp] theorem launch_mode (i : PinIn) (p : PinState) : (p.launch i).mode = p.mode := by
  unfold PinState.launch
  split <;> simp

end Sys2Proof.Machine
end

section
/-! The signal-protocol family: every edge of a working block as a run of moves, and the pin-level invariant. -/

namespace Sys2Proof.Machine

open Relation (ReflTransGen)

variable {p q r : PinState} {i : PinIn} {w : Cmd}

/-! ### The job and the TICK agree -/

/-- What the pin level keeps of itself, apart from the soundness of the block: a job runs in the `life` of its
operation, and the TICK's phase agrees with `ctx` and the job. -/
def PinState.Consistent (p : PinState) : Prop := p.jobOk = true ∧ p.tickOk = true

/-- Outside a TICK, and while its step runs, `tickOk` looks at `ctx` alone. -/
theorem tickOk_of_no_tick (h : p.tick = none) : p.tickOk = true ↔ p.blk.ctx = .host := by
  simp [PinState.tickOk, h]

theorem tickOk_of_wait (h : p.tick = some .wait) : p.tickOk = true ↔ p.blk.ctx ≠ .host := by
  simp [PinState.tickOk, h]

/-- While the step call is being made nothing else runs (R191). -/
theorem tickOk_of_call (h : p.tick = some .pend ∨ p.tick = some .pulse) :
    p.tickOk = true ↔ p.blk.ctx ≠ .host ∧ p.job = .none := by
  rcases h with h | h <;> simp [PinState.tickOk, h]

theorem isReservedResponse_iff {j : Job} : j.isReservedResponse = true ↔ ∃ d b, j = .respond d .illegal b := by
  cases j with
  | respond d st b => cases st <;> simp [Job.isReservedResponse]
  | _ => simp [Job.isReservedResponse]

/-- A return is put off by a reserved-word response only (log 18). -/
theorem tickOk_of_deferred (h : p.tick = some .done) :
    p.tickOk = true ↔ p.blk.ctx ≠ .host ∧ ∃ d b, p.job = .respond d .illegal b := by
  simp [PinState.tickOk, h, isReservedResponse_iff]

/-- A change of the job keeps `tickOk` where no step call is being made and no return is put off. -/
theorem tickOk_of_same_ctx (h : p.tickOk = true) (ht : q.tick = p.tick) (hc : q.blk.ctx = p.blk.ctx)
    (hp : p.tick = none ∨ p.tick = some .wait) : q.tickOk = true := by
  rcases hp with hp | hp
  · rwa [tickOk_of_no_tick (ht.trans hp), hc, ← tickOk_of_no_tick hp]
  · rwa [tickOk_of_wait (ht.trans hp), hc, ← tickOk_of_wait hp]

/-- Outside HOST a TICK is in progress. -/
theorem tick_of_host (h : p.tickOk = true) (hc : p.blk.ctx = .host) : p.tick = none := by
  unfold PinState.tickOk at h
  split at h
  · next hn => exact hn
  all_goals simp [hc] at h

/-! ### Moves -/

/-- What a working block does at an edge, one thing at a time. -/
inductive Move : PinState → PinState → Prop
  | accept {p : PinState} (w : Cmd) : p.ready = true → (p.accept w).mode = .running → Move p (p.accept w)
  | advance {p : PinState} (i : PinIn) : p.tick ≠ some .done → Move p (p.advanceJob i)
  | pulseEnds {p : PinState} : p.tick = some .pulse → Move p { p with tick := some .wait }
  /-- `*_done` with a reserved-word response in progress (log 18). -/
  | defer {p : PinState} {d : Byte} {b : Bool} : p.tick = some .wait → p.job = .respond d .illegal b →
      Move p { p with tick := some .done }
  | returns {p : PinState} : p.tick = some .wait → p.job = .none → Move p p.returned
  | resumes {p : PinState} {d : Byte} {st : Status} : p.tick = some .done → p.job = .respond d st true →
      Move p { p with job := .none }.returned
  | launchJob {p : PinState} : Move p p.launchJob
  | launchTick {p : PinState} : Move p p.launchTick
  | count {p : PinState} : Move p p.counted

/-- `*_done` that breaks no rule finds no job or a reserved-word response. -/
theorem closed_job (hj : p.jobOk = true) (ht : p.tick = some .wait) (ho : p.job.accessOpen = false) :
    p.job = .none ∨ ∃ d b, p.job = .respond d .illegal b := by
  unfold PinState.jobOk at hj
  cases hjob : p.job with
  | none => exact .inl rfl
  | respond d st b => cases st <;> simp_all [Job.accessOpen]
  | cart c b => simp [hjob] at ho
  | reg k w v b => simp [hjob] at ho
  | fill sel => simp [hjob, ht] at hj
  | cpuInit u => simp [hjob, ht] at hj

/-! ### Every move keeps job and TICK in agreement -/

theorem accept_consistent (h : p.Consistent) (hr : p.ready = true) (hm : (p.accept w).mode = .running) :
    (p.accept w).Consistent := by
  obtain ⟨-, htick⟩ := h
  obtain ⟨-, hjob, hidle⟩ := ready_iff.mp hr
  rcases accept_cases w p with ⟨-, heq⟩ | ⟨op, -, hadm, heq⟩ | ⟨op, x, -, -, heq⟩
  · rw [heq]
    exact ⟨rfl, tickOk_of_same_ctx htick rfl rfl hidle⟩
  · rw [heq]
    cases op with
    | rd a => exact ⟨decide_eq_true (admission_rd_none (a := a).mp hadm), tickOk_of_same_ctx htick rfl rfl hidle⟩
    | wr a v => exact ⟨decide_eq_true (admission_wr_none (a := a) (v := v).mp hadm),
        tickOk_of_same_ctx htick rfl rfl hidle⟩
    | shut =>
      obtain ⟨hc, hl⟩ := admission_shut_none.mp hadm
      exact ⟨by simp [PinState.begin, PinState.jobOk, hl, tick_of_host htick hc],
        tickOk_of_same_ctx htick rfl rfl hidle⟩
    | init sel =>
      obtain ⟨hc, hl⟩ := admission_init_none.mp hadm
      exact ⟨by simp [PinState.begin, PinState.jobOk, hl, tick_of_host htick hc],
        tickOk_of_same_ctx htick rfl rfl hidle⟩
    | tick =>
      exact ⟨by simp [PinState.begin, PinState.jobOk, hjob],
        (tickOk_of_call (.inl rfl)).mpr ⟨by simp [PinState.begin], hjob⟩⟩
  · simp [heq] at hm

/-- The acknowledged call leads on within its own operation, so in the same `life`. -/
theorem acked_jobOk {c : CartCall} {b : Bool} (hjob : p.job = .cart c b) (h : p.jobOk = true) :
    (p.acked c i).jobOk = true := by
  cases c with
  | read a =>
    cases hh : i.cartHijack <;> cases hr : region a <;> simp_all [PinState.acked, PinState.readMap, PinState.jobOk]
  | write a v =>
    cases hh : i.cartHijack <;> cases hr : region a <;> simp_all [PinState.acked, PinState.writeMap, PinState.jobOk]
  | insert sel => cases hf : i.cartFail <;> simp_all [PinState.acked, PinState.jobOk]
  | remove => rfl

theorem advanceJob_jobOk (h : p.jobOk = true) : (p.advanceJob i).jobOk = true := by
  rcases advanceJob_cases i p with ⟨heq, -⟩ | ⟨c, hj, -, heq⟩ | ⟨_, _, _, -, -, heq⟩ | ⟨hj, heq⟩ | ⟨-, -, heq⟩
    | ⟨_, _, -, heq⟩ <;> rw [heq]
  case inl => exact h
  case inr.inl => exact acked_jobOk hj h
  case inr.inr.inr.inl => simpa [PinState.jobOk, hj] using h
  all_goals rfl

theorem advanceJob_consistent (h : p.Consistent) (hd : p.tick ≠ some .done) : (p.advanceJob i).Consistent := by
  obtain ⟨hjob, htick⟩ := h
  obtain ⟨-, ht, hc⟩ := advanceJob_frame i p
  refine ⟨advanceJob_jobOk hjob, ?_⟩
  match hp : p.tick with
  | none => exact tickOk_of_same_ctx htick ht hc (.inl hp)
  | some .wait => exact tickOk_of_same_ctx htick ht hc (.inr hp)
  | some .pend =>
    obtain ⟨-, hn⟩ := (tickOk_of_call (.inl hp)).mp htick
    rwa [advanceJob_none hn]
  | some .pulse =>
    obtain ⟨-, hn⟩ := (tickOk_of_call (.inr hp)).mp htick
    rwa [advanceJob_none hn]
  | some .done => exact absurd hp hd

/-- The return of a step leaves the next step call, or the response of the TICK (R198). -/
theorem returned_consistent (hj : p.job = .none) (hc : p.blk.ctx ≠ .host) : p.returned.Consistent := by
  rcases returned_cases p with ⟨hhost, -⟩ | ⟨c, -, -, heq⟩ | ⟨-, heq⟩
  · exact absurd hhost hc
  · rw [heq]
    exact ⟨by simp [PinState.jobOk, hj], (tickOk_of_call (.inl rfl)).mpr ⟨by simp, hj⟩⟩
  · rw [heq]
    exact ⟨rfl, (tickOk_of_no_tick rfl).mpr rfl⟩

/-- `tickOk` looks at the job only for whether there is one and whether it is a reserved-word response. -/
theorem tickOk_congr (ht : q.tick = p.tick) (hc : q.blk.ctx = p.blk.ctx) (hn : q.job = .none ↔ p.job = .none)
    (hr : q.job.isReservedResponse = p.job.isReservedResponse) : q.tickOk = p.tickOk := by
  simp only [PinState.tickOk, ht, hc, hn, hr]

@[simp] theorem isReservedResponse_respond (d : Byte) (st : Status) (b : Bool) :
    (Job.respond d st b).isReservedResponse = decide (st = .illegal) := by
  cases st <;> rfl

theorem launchJob_tickOk (p : PinState) : p.launchJob.tickOk = p.tickOk := by
  rcases launchJob_cases p with ⟨_, hj, heq⟩ | ⟨_, hj, heq⟩ | ⟨_, _, _, hj, heq⟩ | ⟨hj, heq⟩ | ⟨_, _, hj, heq⟩
    | ⟨-, heq⟩ <;> rw [heq]
  case inr.inr.inr.inr.inl => exact tickOk_congr rfl rfl (by simp [hj]) (by simp [hj])
  all_goals exact tickOk_congr rfl rfl (by simp [hj]) (by rw [hj]; rfl)

theorem launchJob_jobOk (p : PinState) : p.launchJob.jobOk = p.jobOk := by
  rcases launchJob_cases p with ⟨_, hj, heq⟩ | ⟨c, hj, heq⟩ | ⟨_, _, _, hj, heq⟩ | ⟨hj, heq⟩ | ⟨_, _, hj, heq⟩
    | ⟨-, heq⟩ <;> rw [heq]
  case inr.inl => cases c <;> simp [PinState.jobOk, hj]
  case inl | inr.inr.inr.inl =>
    rw [PinState.jobOk, PinState.jobOk, hj]
    rfl
  all_goals simp [PinState.jobOk, hj]

theorem launchJob_consistent (h : p.Consistent) : p.launchJob.Consistent := by
  rwa [PinState.Consistent, launchJob_jobOk, launchJob_tickOk]

theorem launchTick_consistent (h : p.Consistent) : p.launchTick.Consistent := by
  by_cases ht : p.tick = some .pend
  · obtain ⟨hjob, htick⟩ := h
    obtain ⟨hc, hn⟩ := (tickOk_of_call (.inl ht)).mp htick
    rw [launchTick_pend ht]
    exact ⟨by simp [PinState.jobOk, hn], (tickOk_of_call (.inr rfl)).mpr ⟨hc, hn⟩⟩
  · rwa [launchTick_of_ne ht]

theorem Move.consistent (hmove : Move p q) (h : p.Consistent) : q.Consistent := by
  obtain ⟨hjob, htick⟩ := id h
  cases hmove with
  | accept w hr hm => exact accept_consistent h hr hm
  | advance i hd => exact advanceJob_consistent h hd
  | pulseEnds ht =>
    obtain ⟨hc, hn⟩ := (tickOk_of_call (.inr ht)).mp htick
    exact ⟨by simp [PinState.jobOk, hn], (tickOk_of_wait rfl).mpr hc⟩
  | defer ht hj =>
    exact ⟨by simp [PinState.jobOk, hj], (tickOk_of_deferred rfl).mpr ⟨(tickOk_of_wait ht).mp htick, _, _, hj⟩⟩
  | returns ht hj => exact returned_consistent hj ((tickOk_of_wait ht).mp htick)
  | resumes ht hj => 
    obtain ⟨hc, -⟩ := (tickOk_of_deferred ht).mp htick
    exact returned_consistent rfl hc
  | launchJob => exact launchJob_consistent h
  | launchTick => exact launchTick_consistent h
  | count => exact h

theorem Moves.consistent (hmoves : ReflTransGen Move p q) (h : p.Consistent) : q.Consistent := by
  induction hmoves with
  | refl => exact h
  | tail _ hmove ih => exact hmove.consistent ih

/-! ### An edge is a run of moves -/

/-- A consistent block whose TICK waits for its step goes on waiting when it takes a command that leaves it working:
no other TICK is admitted (R153). -/
theorem taken_tick_of_wait (h : p.Consistent) (ht : p.tick = some .wait) (hm : (p.taken i).mode = .running) :
    (p.taken i).tick = some .wait := by
  obtain ⟨-, htick⟩ := h
  by_cases ha : p.accepts i = true
  · rw [PinState.taken, if_pos ha] at hm ⊢
    rcases accept_cases i.cmd p with ⟨-, heq⟩ | ⟨op, -, hadm, heq⟩ | ⟨op, x, -, -, heq⟩
    · rw [heq]
      exact ht
    · rw [heq]
      cases op with
      | tick => exact absurd (admission_tick_none.mp hadm).1 ((tickOk_of_wait ht).mp htick)
      | _ => exact ht
    · simp [heq] at hm
  · rw [PinState.taken, if_neg ha, (advanceJob_frame i p).2.1, ht]

theorem taken_moves (hd : p.tick ≠ some .done) (hm : (p.taken i).mode = .running) :
    ReflTransGen Move p (p.taken i) := by
  by_cases ha : p.accepts i = true
  · rw [PinState.taken, if_pos ha] at hm ⊢
    exact .single (.accept _ (accepts_iff.mp ha).2 hm)
  · rw [PinState.taken, if_neg ha]
    exact .single (.advance i hd)

/-- A `*_done` that breaks no rule makes the step return, or puts its return off. -/
theorem doneSeen_moves (h : p.Consistent) (ht : p.tick = some .wait) (ho : p.job.accessOpen = false) :
    ReflTransGen Move p p.doneSeen := by
  rcases closed_job h.1 ht ho with hj | ⟨d, b, hj⟩
  · rw [doneSeen_idle hj]
    exact .single (.returns ht hj)
  · rw [doneSeen_busy (by simp [hj])]
    exact .single (.defer ht hj)

/-- A return that was put off comes at the edge that ends the reserved-word response. -/
theorem deferred_moves (h : p.Consistent) (ht : p.tick = some .done) : ReflTransGen Move p (p.taken i).doneSeen := by
  obtain ⟨-, d, b, hj⟩ := (tickOk_of_deferred ht).mp h.2
  rw [taken_of_job (by simp [hj])]
  cases b with
  | false =>
    have hself : { p with tick := some .done } = p := by rw [← ht]
    rw [advanceJob_held hj, doneSeen_busy (by simp [hj]), hself]
  | true =>
    rw [advanceJob_given hj, doneSeen_idle rfl]
    exact .single (.resumes ht hj)

/-- Before `launch`, an edge that leaves a consistent block working is a run of moves. -/
theorem edge_moves (h : p.Consistent) (he : p.edge i = .next r) (hm : r.mode = .running) :
    ReflTransGen Move p r := by
  rcases edge_cases he with ⟨ht, rfl⟩ | ⟨ht | ⟨ht, -, hm', ho⟩, rfl⟩ | ⟨ht, rfl⟩
  · obtain ⟨-, hj⟩ := (tickOk_of_call (.inr ht)).mp h.2
    rw [taken_of_tick (by simp [ht]) (by simp [ht]), advanceJob_none hj]
    exact .single (.pulseEnds ht)
  · exact deferred_moves h ht
  · have htaken := taken_moves (by simp [ht]) hm'
    exact htaken.trans (doneSeen_moves (Moves.consistent htaken h) (taken_tick_of_wait h ht hm') ho)
  · exact taken_moves (by rcases ht with ht | ht | ⟨ht, -⟩ <;> simp [ht]) hm

/-- An edge that leaves a consistent block working is a run of moves. -/
theorem pinCycle_moves (hm : p.mode = .running) (h : p.Consistent) (hpor : i.por = false)
    (hcycle : pinCycle p i = .next q) (hq : q.mode = .running) : ReflTransGen Move p q := by
  obtain ⟨r, he, rfl⟩ := (pinCycle_running hpor hm).mp hcycle
  have hr : r.mode = .running := by
    by_contra hne
    rw [if_neg hne] at hq
    exact hne hq
  rw [if_pos hr]
  refine (edge_moves h he hr).trans (.trans ?_ (.single .count))
  unfold PinState.launch
  split
  · exact .trans (.single .launchJob) (.single .launchTick)
  · exact .refl

/-- What does not leave the block working is a refused command (R202). -/
theorem taken_refused (hm : p.mode = .running) (hq : (p.taken i).mode ≠ .running) :
    p.ready = true ∧ (p.taken i).mode = .unspecified
      ∧ (p.taken i).blk = (p.blk.emit [.command i.cmd]).scrambled p.cycle := by
  by_cases ha : p.accepts i = true
  · rw [PinState.taken, if_pos ha] at hq ⊢
    refine ⟨(accepts_iff.mp ha).2, ?_⟩
    rcases accept_cases i.cmd p with ⟨-, heq⟩ | ⟨op, -, -, heq⟩ | ⟨op, x, -, -, heq⟩
    · simp [heq, hm] at hq
    · simp [heq, hm] at hq
    · rw [heq]
      exact ⟨rfl, rfl⟩
  · rw [PinState.taken, if_neg ha] at hq
    exact absurd ((advanceJob_frame i p).1.trans hm) hq

/-- An edge after which a working block does not work has accepted a command that is refused (R202). -/
theorem pinCycle_refused (hm : p.mode = .running) (hpor : i.por = false) (hcycle : pinCycle p i = .next q)
    (hq : q.mode ≠ .running) :
    q.mode = .unspecified ∧ q.blk = (p.blk.emit [.command i.cmd]).scrambled p.cycle := by
  obtain ⟨r, he, rfl⟩ := (pinCycle_running hpor hm).mp hcycle
  have hr : r.mode ≠ .running := fun hr => hq (by simp [hr])
  rw [if_neg hr]
  rcases edge_cases he with ⟨ht, rfl⟩ | ⟨ht, rfl⟩ | ⟨-, rfl⟩
  · obtain ⟨hready, -⟩ := taken_refused hm hr
    simp [ready_iff, ht] at hready
  · rw [doneSeen_mode] at hr
    obtain ⟨hready, -⟩ := taken_refused hm hr
    rcases ht with ht | ⟨-, -, hm', -⟩
    · simp [ready_iff, ht] at hready
    · exact absurd hm' hr
  · exact (taken_refused hm hr).2

/-! ### Every move keeps the block sound -/

/-- At HOST a sound state stays sound when the counter, RAM and `life` are set within their bounds. -/
theorem inv_of_host {s t : State} (h : s.inv = true) (hcfg : t.cfg = s.cfg) (hc : t.ctx = .host)
    (hram : t.ram.wf = true) (hm : t.mcc < 2 ^ s.cfg.cw) (href : t.cartRef = decide (t.life = .ready)) :
    t.inv = true := by
  obtain ⟨hwf, -⟩ := State.inv_iff.mp h
  exact State.inv_iff.mpr ⟨hcfg ▸ hwf, hram, hcfg ▸ hm, href, State.ctxOk_of_host hc⟩

theorem setLife_inv {s : State} (h : s.inv = true) (hc : s.ctx = .host) (l : Life) : (s.setLife l).inv = true := by
  obtain ⟨-, hram, hm, -⟩ := State.inv_iff.mp h
  exact inv_of_host (t := s.setLife l) h rfl hc hram hm rfl

theorem clear_inv {s : State} (h : s.inv = true) (hc : s.ctx = .host) : s.clear.inv = true := by
  obtain ⟨hwf, -, -, href, -⟩ := State.inv_iff.mp h
  exact inv_of_host (t := s.clear) h rfl hc Memory.zero_wf (cfg_wf_iff.mp hwf).2 href

theorem writeRam_inv {s : State} (h : s.inv = true) (k : RamIndex) (v : Byte) : (s.writeRam k v).inv = true := by
  obtain ⟨-, hram, -⟩ := State.inv_iff.mp h
  exact inv_of_session (t := s.writeRam k v) h (SameSession.refl s) (Memory.write_wf (RamIndex.lt_ramSize k) v hram)

/-- A lifecycle operation runs outside a TICK, so at HOST. -/
theorem host_of_lifecycle (h : p.Consistent)
    (hj : (∃ sel, p.job = .fill sel) ∨ (∃ sel b, p.job = .cart (.insert sel) b) ∨ (∃ b, p.job = .cart .remove b)
      ∨ ∃ u, p.job = .cpuInit u) : p.blk.ctx = .host := by
  obtain ⟨hjob, htick⟩ := h
  refine (tickOk_of_no_tick ?_).mp htick
  unfold PinState.jobOk at hjob
  rcases hj with ⟨_, hj⟩ | ⟨_, _, hj⟩ | ⟨_, hj⟩ | ⟨_, hj⟩ <;> simp_all

theorem accept_inv (h : p.blk.inv = true) (hm : (p.accept w).mode = .running) : (p.accept w).blk.inv = true := by
  rcases accept_cases w p with ⟨-, heq⟩ | ⟨op, -, hadm, heq⟩ | ⟨op, x, -, -, heq⟩
  · rw [heq]
    exact h
  · rw [heq]
    cases op with
    | tick => exact exec_inv (t := tickEffect p.blk) h (exec_tick_next.mpr ⟨admission_tick_none.mp hadm, rfl⟩)
    | _ => exact h
  · simp [heq] at hm

theorem readMap_inv (h : p.blk.inv = true) (a : Addr) : (p.readMap a).blk.inv = true := by
  unfold PinState.readMap
  split <;> exact h

theorem writeMap_inv (h : p.blk.inv = true) (a : Addr) (v : Byte) : (p.writeMap a v).blk.inv = true := by
  unfold PinState.writeMap
  split
  · exact writeRam_inv h _ v
  all_goals exact h

theorem acked_inv {c : CartCall} {b : Bool} (h : p.Consistent) (hinv : p.blk.inv = true) (hj : p.job = .cart c b) :
    (p.acked c i).blk.inv = true := by
  cases c with
  | read a =>
    cases hh : i.cartHijack with
    | true => rw [acked_read_hijack hh]; exact hinv
    | false => rw [acked_read_passed hh]; exact readMap_inv (p := { p with blk := p.blk.emit _ }) hinv a
  | write a v =>
    cases hh : i.cartHijack with
    | true => rw [acked_write_hijack hh]; exact hinv
    | false => rw [acked_write_passed hh]; exact writeMap_inv (p := { p with blk := p.blk.emit _ }) hinv a v
  | insert sel =>
    have hc := host_of_lifecycle h (.inr (.inl ⟨_, _, hj⟩))
    cases hf : i.cartFail with
    | false => rw [acked_insert_ok hf]; exact hinv
    | true => rw [acked_insert_fail hf]; exact setLife_inv (s := p.blk.emit _) hinv hc .off
  | remove =>
    exact setLife_inv (s := p.blk.emit _) hinv (host_of_lifecycle h (.inr (.inr (.inl ⟨_, hj⟩)))) .off

theorem advanceJob_inv (h : p.Consistent) (hinv : p.blk.inv = true) : (p.advanceJob i).blk.inv = true := by
  rcases advanceJob_cases i p with ⟨heq, -⟩ | ⟨c, hj, -, heq⟩ | ⟨_, _, _, -, -, heq⟩ | ⟨-, heq⟩ | ⟨hj, -, heq⟩
    | ⟨_, _, -, heq⟩ <;> rw [heq]
  case inr.inl => exact acked_inv h hinv hj
  case inr.inr.inr.inr.inl => exact setLife_inv hinv (host_of_lifecycle h (.inr (.inr (.inr ⟨_, hj⟩)))) .ready
  all_goals exact hinv

theorem stepReturned_completes {s : State}
    (h : (∃ c, s.ctx = .inPpu c ∧ stepEnable s.cfg c = false) ∨ s.ctx = .inCpu) :
    stepReturned s = ((s.setCtx .host).emit [.returned]).respond 0 .ok := by
  rcases h with ⟨c, hc, he⟩ | hc
  · simp [stepReturned_of_inPpu hc, he]
  · exact stepReturned_of_inCpu hc

/-- At pin level the step call and the response of a TICK are recorded when they are launched; but for that a return
leaves the block as the operation level does. -/
theorem returned_inv (h : p.blk.inv = true) : p.returned.blk.inv = true := by
  have hop := stepReturned_inv h
  rcases returned_cases p with ⟨-, heq⟩ | ⟨c, hc, he, heq⟩ | ⟨hc, heq⟩
  · rwa [heq]
  · rw [stepReturned_of_inPpu hc, he, if_pos rfl] at hop
    rw [heq]
    exact hop
  · rw [stepReturned_completes hc] at hop
    rw [heq]
    exact hop

theorem launchJob_inv (h : p.Consistent) (hinv : p.blk.inv = true) : p.launchJob.blk.inv = true := by
  rcases launchJob_cases p with ⟨_, hj, heq⟩ | ⟨_, -, heq⟩ | ⟨_, _, _, -, heq⟩ | ⟨-, heq⟩ | ⟨_, _, -, heq⟩
    | ⟨-, heq⟩ <;> rw [heq]
  case inl => exact clear_inv hinv (host_of_lifecycle h (.inl ⟨_, hj⟩))
  all_goals exact hinv

theorem launchTick_inv (hinv : p.blk.inv = true) : p.launchTick.blk.inv = true := by
  by_cases ht : p.tick = some .pend
  · rw [launchTick_pend ht]
    exact hinv
  · rwa [launchTick_of_ne ht]

theorem Move.inv (hmove : Move p q) (h : p.Consistent) (hinv : p.blk.inv = true) : q.blk.inv = true := by
  cases hmove with
  | accept w hr hm => exact accept_inv hinv hm
  | advance i hd => exact advanceJob_inv h hinv
  | returns ht hj => exact returned_inv hinv
  | resumes ht hj => exact returned_inv (p := { p with job := .none }) hinv
  | launchJob => exact launchJob_inv h hinv
  | launchTick => exact launchTick_inv hinv
  | _ => exact hinv

theorem Moves.inv (hmoves : ReflTransGen Move p q) (h : p.Consistent) (hinv : p.blk.inv = true) :
    q.blk.inv = true := by
  induction hmoves with
  | refl => exact hinv
  | tail hmoves hmove ih => exact hmove.inv (Moves.consistent hmoves h) ih

/-! ### The pin-level invariant -/

/-- The bounds of the storage, which hold even after a refused command (R202). -/
def State.InBounds (s : State) : Prop := s.cfg.wf = true ∧ s.ram.wf = true ∧ s.mcc < 2 ^ s.cfg.cw

theorem inBounds_of_inv {s : State} (h : s.inv = true) : s.InBounds := by
  obtain ⟨hwf, hram, hm, -⟩ := State.inv_iff.mp h
  exact ⟨hwf, hram, hm⟩

theorem PinState.inv_iff :
    p.inv = true ↔ p.blk.InBounds ∧ (p.mode = .unspecified ∨ (p.blk.inv = true ∧ p.Consistent)) := by
  simp [PinState.inv, State.InBounds, PinState.Consistent, and_assoc]

theorem pinInv_of_consistent (hinv : p.blk.inv = true) (h : p.Consistent) : p.inv = true :=
  PinState.inv_iff.mpr ⟨inBounds_of_inv hinv, .inr ⟨hinv, h⟩⟩

/-- The byte at `k` as a memory lists it: 0x00 is not listed. -/
theorem Memory.filterMap_range'_wf (f : Nat → Byte) (n : Nat) :
    ∀ lo, lo + n ≤ Config.ramSize →
      Memory.wfFrom lo ((List.range' lo n).filterMap fun k => if f k = 0#8 then none else some (k, f k)) = true := by
  induction n with
  | zero => exact fun lo _ => rfl
  | succ n ih =>
    intro lo hlo
    have hrest := ih (lo + 1) (by omega)
    rw [List.range'_succ]
    by_cases hb : f lo = 0#8
    · rw [List.filterMap_cons_none (by simp [hb])]
      exact Memory.wfFrom_mono (Nat.le_succ lo) hrest
    · rw [List.filterMap_cons_some (b := (lo, f lo)) (by simp [hb]), Memory.wfFrom_cons]
      exact ⟨Nat.le_refl lo, by omega, hb, hrest⟩

/-- RAM given byte by byte has the canonical form. -/
theorem Memory.ofFn_wf (f : Nat → Byte) : (Memory.ofFn f).wf = true := by
  rw [Memory.ofFn, List.range_eq_range']
  exact Memory.filterMap_range'_wf f Config.ramSize 0 (by simp)

theorem scrambled_ram (n : Nat) (s : State) :
    (s.scrambled n).ram = Memory.ofFn fun k => BitVec.ofNat 8 (Config.freeNat n (17 + k)) := by
  simp only [State.scrambled]

theorem scrambled_inBounds {s : State} (h : s.cfg.wf = true) (n : Nat) : (s.scrambled n).InBounds := by
  refine ⟨h, ?_, Nat.mod_lt _ (Nat.two_pow_pos _)⟩
  rw [scrambled_ram]
  exact Memory.ofFn_wf _

/-- Power-on makes a sound block of one whose storage is in bounds. -/
theorem powerOn_inv_of_inBounds {s : State} (h : s.InBounds) : s.powerOn.inv = true := by
  obtain ⟨hwf, hram, hm⟩ := h
  exact State.inv_iff.mpr ⟨hwf, hram, hm, rfl, State.ctxOk_of_host rfl⟩

/-- Settles O42: an edge of a working block is a run of moves, each of which keeps the invariant; power-on and a
refused command need the bounds of the storage only. -/
theorem pinCycleKeepsTheStateSound : Obligations.PinCycleKeepsTheStateSound := by
  unfold Obligations.PinCycleKeepsTheStateSound
  refine ⟨by decide, fun p q i h hcycle => ?_⟩
  obtain ⟨hbounds, hsound⟩ := PinState.inv_iff.mp h
  cases hpor : i.por with
  | true =>
    rw [pinCycle_por hpor] at hcycle
    cases hcycle
    exact pinInv_of_consistent (p := p.powerOn.counted) (powerOn_inv_of_inBounds hbounds) ⟨rfl, rfl⟩
  | false =>
    match hm : p.mode with
    | .por =>
      rw [pinCycle_afterPor hpor hm] at hcycle
      cases hcycle
      obtain ⟨hinv, hcons⟩ := hsound.resolve_left (by simp [hm])
      exact pinInv_of_consistent hinv hcons
    | .unspecified =>
      rw [pinCycle_unspecified hpor hm] at hcycle
      cases hcycle
      exact PinState.inv_iff.mpr ⟨scrambled_inBounds hbounds.1 _, .inl hm⟩
    | .running =>
      obtain ⟨hinv, hcons⟩ := hsound.resolve_left (by simp [hm])
      by_cases hq : q.mode = .running
      · have hmoves := pinCycle_moves hm hcons hpor hcycle hq
        exact pinInv_of_consistent (Moves.inv hmoves hcons hinv) (Moves.consistent hmoves hcons)
      · obtain ⟨hq', hblk⟩ := pinCycle_refused hm hpor hcycle hq
        exact PinState.inv_iff.mpr ⟨hblk ▸ scrambled_inBounds hbounds.1 _, .inl hq'⟩

end Sys2Proof.Machine
end

section
/-! The signal-protocol family: what the pin level records, played back at the operation level (R203). -/

namespace Sys2Proof.Machine

open Relation (ReflTransGen)

variable {p q : PinState} {i : PinIn} {w : Cmd} {s t u : State} {op : Instr}

/-! ### Inputs and answers read off a record -/

/-- The answers of `x`, and then those of `y`. -/
def Answers.append (x y : Answers) : Answers :=
  { cartInsert := x.cartInsert ++ y.cartInsert, cartRemove := x.cartRemove ++ y.cartRemove,
    cartRead := x.cartRead ++ y.cartRead, cartWrite := x.cartWrite ++ y.cartWrite, ppuReg := x.ppuReg ++ y.ppuReg }

theorem Answers.append_none (x : Answers) : x.append .none = x := by
  simp [Answers.append, Answers.none]

theorem Answers.append_assoc (x y z : Answers) : (x.append y).append z = x.append (y.append z) := by
  simp [Answers.append]

theorem answersOf_append (es es' : List Event) : answersOf (es ++ es') = (answersOf es).append (answersOf es') := by
  simp [answersOf, Answers.append]

theorem inputsOf_append (es es' : List Event) : inputsOf (es ++ es') = inputsOf es ++ inputsOf es' :=
  List.filterMap_append

/-- The block with inputs and answers still to come. -/
def State.loaded (ins : List Input) (ans : Answers) (s : State) : State := { s with inbox := ins, answers := ans }

theorem loaded_self {ins : List Input} {ans : Answers} (hin : s.inbox = ins) (han : s.answers = ans) :
    s.loaded ins ans = s := by
  subst hin han
  rfl

/-! ### Playing a record back -/

/-- From `s` to `t` by a record: its inputs, taken in order and answered as the record says, lead from `s` to `t` at
the operation level, whatever is still to come. -/
def Replays (s t : State) : Prop :=
  ∃ es, t.trace = s.trace ++ es ∧ t.inbox = s.inbox ∧ t.answers = s.answers
    ∧ ∀ ins ans, runSteps (inputsOf es).length (s.loaded (inputsOf es ++ ins) ((answersOf es).append ans))
        = .next (t.loaded ins ans)

theorem Replays.refl (s : State) : Replays s s :=
  ⟨[], (List.append_nil _).symm, rfl, rfl, fun _ _ => rfl⟩

theorem Replays.trans (h : Replays s t) (h' : Replays t u) : Replays s u := by
  obtain ⟨es, htr, hin, han, hrun⟩ := h
  obtain ⟨es', htr', hin', han', hrun'⟩ := h'
  refine ⟨es ++ es', by rw [htr', htr, List.append_assoc], hin'.trans hin, han'.trans han, fun ins ans => ?_⟩
  rw [inputsOf_append, answersOf_append, Answers.append_assoc, List.append_assoc, List.length_append,
    runSteps_add (hrun _ _), hrun']

/-- The operation, with its calls answered as recorded, leads from `s` to `t`; it takes no input. -/
def Performs (op : Instr) (s t : State) : Prop :=
  ∃ es, inputsOf es = [] ∧ t.trace = s.trace ++ es ∧ t.inbox = s.inbox ∧ t.answers = s.answers
    ∧ ∀ ins ans, exec op (s.loaded ins ((answersOf es).append ans)) = .next (t.loaded ins ans)

theorem accept_loaded (w : Cmd) (ins : List Input) (ans : Answers) (s : State) :
    (s.loaded (.command w :: ins) ans).accept w ins = (s.emit [.command w]).loaded ins ans := rfl

theorem answersOf_command (w : Cmd) (es : List Event) : answersOf (.command w :: es) = answersOf es := rfl

theorem inputsOf_command (w : Cmd) (es : List Event) : inputsOf (.command w :: es) = .command w :: inputsOf es := rfl

/-- A record with one input, which is an accepted command, plays back as the step that runs its word. -/
theorem replays_command {es : List Event} (hno : inputsOf es = []) (htr : t.trace = s.trace ++ .command w :: es)
    (hin : t.inbox = s.inbox) (han : t.answers = s.answers)
    (hrun : ∀ ins ans, runWord w ((s.emit [.command w]).loaded ins ((answersOf es).append ans))
      = .next (t.loaded ins ans)) : Replays s t := by
  refine ⟨.command w :: es, htr, hin, han, fun ins ans => ?_⟩
  rw [inputsOf_command, hno, answersOf_command]
  refine runSteps_succ.mpr ⟨_, ?_, runSteps_zero _⟩
  rw [List.singleton_append, step_command rfl, accept_loaded]
  exact hrun ins ans

/-- An accepted command plays back as the operation it decodes to. -/
theorem Performs.replays (hd : decode w = some op) (h : Performs op (s.emit [.command w]) t) : Replays s t := by
  obtain ⟨es, hno, htr, hin, han, hexec⟩ := h
  refine replays_command (w := w) hno (by simp [htr]) hin han fun ins ans => ?_
  rw [runWord_decoded hd]
  exact hexec ins ans

theorem replays_reserved (hd : decode w = none) : Replays s ((s.emit [.command w]).respond 0 .illegal) := by
  refine replays_command (w := w) (es := [.response 0 .illegal]) rfl (by simp) rfl rfl fun ins ans => ?_
  rw [runWord_reserved hd]
  rfl

theorem stepReturned_loaded (ins : List Input) (ans : Answers) (s : State) :
    stepReturned (s.loaded ins ans) = (stepReturned s).loaded ins ans := by
  have hc : (s.loaded ins ans).ctx = s.ctx := rfl
  have hcfg : (s.loaded ins ans).cfg = s.cfg := rfl
  cases h : s.ctx with
  | host => rw [stepReturned_of_host (hc.trans h), stepReturned_of_host h]
  | inPpu c =>
    rw [stepReturned_of_inPpu (hc.trans h), stepReturned_of_inPpu h, hcfg]
    split <;> rfl
  | inCpu =>
    rw [stepReturned_of_inCpu (hc.trans h), stepReturned_of_inCpu h]
    rfl

/-- The return of a step plays back as a return, since it asks for no answer. -/
theorem replays_stepReturned (hc : s.ctx ≠ .host) : Replays s (stepReturned s) := by
  have hrun : ∀ ins ans, runSteps 1 (s.loaded (.stepReturns :: ins) ans) = .next ((stepReturned s).loaded ins ans) :=
    fun ins ans => runSteps_succ.mpr ⟨_, step_stepReturns rfl, congrArg _ (stepReturned_loaded ins ans s)⟩
  have hframe : (stepReturned s).inbox = s.inbox ∧ (stepReturned s).answers = s.answers := by
    rcases stepReturned_cases s with ⟨-, heq⟩ | ⟨-, -, -, heq⟩ | ⟨-, heq⟩ <;> rw [heq] <;> exact ⟨rfl, rfl⟩
  rcases stepReturned_cases s with ⟨hhost, -⟩ | ⟨-, -, -, heq⟩ | ⟨-, heq⟩
  · exact absurd hhost hc
  · exact ⟨[.returned, .cpuStep], by rw [heq]; simp, hframe.1, hframe.2, hrun⟩
  · exact ⟨[.returned, .response 0 .ok], by rw [heq]; simp, hframe.1, hframe.2, hrun⟩

/-! ### What is still to come of the job -/

/-- Whatever the called devices answer, the job ends with the block in a state of `Q`. -/
inductive EndsIn (Q : State → Prop) : State → Job → Prop
  | idle {b : State} : Q b → EndsIn Q b .none
  | answered {b : State} {d : Byte} {st : Status} : Q b → EndsIn Q b (.respond d st true)
  | answers {b : State} {d : Byte} {st : Status} : Q (b.respond d st) → EndsIn Q b (.respond d st false)
  | reg {b : State} {k : RegIndex} {wr : Bool} {v : Byte} {raised : Bool} :
      (∀ x, EndsIn Q (b.emit [.ppuReg k wr v x]) (.respond (if wr then 0 else x) .ok false)) →
      EndsIn Q b (.reg k wr v raised)
  | starts {b : State} : EndsIn Q (b.emit [.cpuInit]) (.cpuInit .pulse) → EndsIn Q b (.cpuInit .pend)
  | pulses {b : State} : EndsIn Q b (.cpuInit .wait) → EndsIn Q b (.cpuInit .pulse)
  | waits {b : State} : EndsIn Q (b.setLife .ready) (.respond 0 .ok false) → EndsIn Q b (.cpuInit .wait)
  | cart {b : State} {c : CartCall} {raised : Bool} :
      (∀ (i : PinIn) (p : PinState), p.blk = b → EndsIn Q (p.acked c i).blk (p.acked c i).job) →
      EndsIn Q b (.cart c raised)
  | fill {b : State} {sel : Selector} : EndsIn Q b.clear (.cart (.insert sel) true) → EndsIn Q b (.fill sel)

theorem EndsIn.mono {Q Q' : State → Prop} {b : State} {j : Job} (hq : ∀ t, Q t → Q' t) (h : EndsIn Q b j) :
    EndsIn Q' b j := by
  induction h with
  | idle h => exact .idle (hq _ h)
  | answered h => exact .answered (hq _ h)
  | answers h => exact .answers (hq _ h)
  | reg _ ih => exact .reg ih
  | starts _ ih => exact .starts ih
  | pulses _ ih => exact .pulses ih
  | waits _ ih => exact .waits ih
  | cart _ ih => exact .cart ih
  | fill _ ih => exact .fill ih

/-- A job that is over, but perhaps for the cycle of its response, has ended. -/
theorem EndsIn.ended {Q : State → Prop} {b : State} {j : Job} (h : EndsIn Q b j)
    (hj : j = .none ∨ ∃ d st, j = .respond d st true) : Q b := by
  rcases hj with rfl | ⟨d, st, rfl⟩ <;> cases h <;> assumption

/-- What is sampled for the job is one of the answers it may get. -/
theorem EndsIn.advance {Q : State → Prop} (h : EndsIn Q p.blk p.job) (i : PinIn) :
    EndsIn Q (p.advanceJob i).blk (p.advanceJob i).job := by
  rcases advanceJob_cases i p with ⟨heq, -⟩ | ⟨_, hj, -, heq⟩ | ⟨_, _, _, hj, -, heq⟩ | ⟨hj, heq⟩ | ⟨hj, -, heq⟩
    | ⟨_, _, hj, heq⟩ <;> rw [heq]
  case inl => exact h
  all_goals
    rw [hj] at h
    cases h
  · next h => exact h i p rfl
  · next h => exact h _
  · next h => exact h
  · next h => exact h
  · next h => exact .idle h

theorem EndsIn.launch {Q : State → Prop} (h : EndsIn Q p.blk p.job) : EndsIn Q p.launchJob.blk p.launchJob.job := by
  rcases launchJob_cases p with ⟨_, hj, heq⟩ | ⟨_, hj, heq⟩ | ⟨_, _, _, hj, heq⟩ | ⟨hj, heq⟩ | ⟨_, _, hj, heq⟩
    | ⟨-, heq⟩ <;> rw [heq]
  case inr.inr.inr.inr.inr => exact h
  all_goals
    rw [hj] at h
    cases h
  · next h => exact h
  · next h => exact .cart h
  · next h => exact .reg h
  · next h => exact h
  · next h => exact .answered h

/-! ### An operation that begins at pin level ends as it does at the operation level -/

theorem endsIn_rd {a : Addr} (hl : s.life = .ready) : EndsIn (Performs (.rd a) s) s (.cart (.read a) false) := by
  refine .cart fun i p hp => ?_
  subst hp
  cases hh : i.cartHijack with
  | true =>
    rw [acked_read_hijack hh]
    exact .answers ⟨[.cartRead a i.cartRdata true, .response i.cartRdata .ok], rfl, by simp, rfl, rfl,
      fun ins ans => exec_rd_next.mpr ⟨hl, rfl⟩⟩
  | false =>
    rw [acked_read_passed hh]
    cases hr : region a with
    | ram k =>
      rw [readMap_ram hr]
      refine .answers ⟨[.cartRead a i.cartRdata false, .response (p.blk.readRam k) .ok], rfl, by simp; rfl, rfl, rfl,
        fun ins ans => exec_rd_next.mpr ⟨hl, ?_⟩⟩
      rw [readEffect, readFixedMap, hr]
      rfl
    | ppu k =>
      rw [readMap_ppu hr]
      refine .reg fun x => .answers ⟨[.cartRead a i.cartRdata false, .ppuReg k false 0 x, .response x .ok], rfl,
        by simp, rfl, rfl, fun ins ans => exec_rd_next.mpr ⟨hl, ?_⟩⟩
      rw [readEffect, readFixedMap, hr]
      rfl
    | unmapped =>
      rw [readMap_unmapped hr]
      refine .answers ⟨[.cartRead a i.cartRdata false, .response p.blk.drawn .ok], rfl, by simp; rfl, rfl, rfl,
        fun ins ans => exec_rd_next.mpr ⟨hl, ?_⟩⟩
      rw [readEffect, readFixedMap, hr]
      rfl

theorem endsIn_wr {a : Addr} {v : Byte} (hl : s.life = .ready) :
    EndsIn (Performs (.wr a v) s) s (.cart (.write a v) false) := by
  refine .cart fun i p hp => ?_
  subst hp
  cases hh : i.cartHijack with
  | true =>
    rw [acked_write_hijack hh]
    exact .answers ⟨[.cartWrite a v true, .response 0 .ok], rfl, by simp, rfl, rfl,
      fun ins ans => exec_wr_next.mpr ⟨hl, rfl⟩⟩
  | false =>
    rw [acked_write_passed hh]
    cases hr : region a with
    | ram k =>
      rw [writeMap_ram hr]
      refine .answers ⟨[.cartWrite a v false, .response 0 .ok], rfl, by simp, rfl, rfl,
        fun ins ans => exec_wr_next.mpr ⟨hl, ?_⟩⟩
      rw [writeEffect, writeFixedMap, hr]
      rfl
    | ppu k =>
      rw [writeMap_ppu hr]
      refine .reg fun x => .answers ⟨[.cartWrite a v false, .ppuReg k true v x, .response 0 .ok], rfl, by simp, rfl,
        rfl, fun ins ans => exec_wr_next.mpr ⟨hl, ?_⟩⟩
      rw [writeEffect, writeFixedMap, hr]
      rfl
    | unmapped =>
      rw [writeMap_unmapped hr]
      refine .answers ⟨[.cartWrite a v false, .response 0 .ok], rfl, by simp, rfl, rfl,
        fun ins ans => exec_wr_next.mpr ⟨hl, ?_⟩⟩
      rw [writeEffect, writeFixedMap, hr]
      rfl

theorem endsIn_init {sel : Selector} (hc : s.ctx = .host) (hl : s.life = .off) :
    EndsIn (Performs (.init sel) s) s (.fill sel) := by
  refine .fill (.cart fun i p hp => ?_)
  cases hf : i.cartFail with
  | true =>
    rw [acked_insert_fail hf, hp]
    exact .answers ⟨[.cartInsert sel false, .response 0 .loadErr], rfl, by simp, rfl, rfl,
      fun ins ans => exec_init_next.mpr ⟨⟨hc, hl⟩, rfl⟩⟩
  | false =>
    rw [acked_insert_ok hf, hp]
    exact .starts (.pulses (.waits (.answers ⟨[.cartInsert sel true, .cpuInit, .response 0 .ok], rfl, by simp, rfl, rfl,
      fun ins ans => exec_init_next.mpr ⟨⟨hc, hl⟩, rfl⟩⟩)))

theorem endsIn_shut (hc : s.ctx = .host) (hl : s.life = .ready) :
    EndsIn (Performs .shut s) s (.cart .remove false) := by
  refine .cart fun i p hp => ?_
  subst hp
  rw [acked_remove]
  refine .answers ⟨[.cartRemove (!i.cartFail), .response 0 (if i.cartFail then .unloadErr else .ok)], rfl, by simp, rfl,
    rfl, fun ins ans => exec_shut_next.mpr ⟨⟨hc, hl⟩, ?_⟩⟩
  cases i.cartFail <;> rfl

/-- Every admitted operation but TICK, once begun, ends as it does at the operation level (R196, R197, R199, R200). -/
theorem begin_endsIn (hop : op ≠ .tick) (hadm : admission op p.blk = none) :
    EndsIn (Performs op p.blk) (p.begin op).blk (p.begin op).job := by
  cases op with
  | rd a => exact endsIn_rd (admission_rd_none.mp hadm)
  | wr a v => exact endsIn_wr (admission_wr_none.mp hadm)
  | init sel =>
    obtain ⟨hc, hl⟩ := admission_init_none.mp hadm
    exact endsIn_init hc hl
  | shut =>
    obtain ⟨hc, hl⟩ := admission_shut_none.mp hadm
    exact endsIn_shut hc hl
  | tick => exact absurd rfl hop

/-- TICK up to its step call (R198). -/
theorem performs_tick (hadm : admission .tick s = none) : Performs .tick s (tickEffect s) :=
  ⟨[.ppuStep], rfl, rfl, rfl, rfl, fun _ _ => exec_tick_next.mpr ⟨admission_tick_none.mp hadm, rfl⟩⟩

/-! ### The simulation -/

/-- The run so far plays back from `s`, once the step call that is being made is recorded, or else the job is over. -/
def Follows (s : State) (p : PinState) : Prop :=
  if p.tick = some .pend then Replays s (p.blk.emit [p.stepEvent]) else EndsIn (Replays s) p.blk p.job

theorem follows_of_pend (ht : p.tick = some .pend) : Follows s p ↔ Replays s (p.blk.emit [p.stepEvent]) := by
  rw [Follows, if_pos ht]

theorem follows_of_ne (ht : p.tick ≠ some .pend) : Follows s p ↔ EndsIn (Replays s) p.blk p.job := by
  rw [Follows, if_neg ht]

theorem accept_follows (h : Follows s p) (hr : p.ready = true) (hm : (p.accept w).mode = .running) :
    Follows s (p.accept w) := by
  obtain ⟨-, hj, hidle⟩ := ready_iff.mp hr
  have ht : p.tick ≠ some .pend := by rcases hidle with ht | ht <;> simp [ht]
  have hs : Replays s p.blk := ((follows_of_ne ht).mp h).ended (.inl hj)
  rcases accept_cases w p with ⟨hd, heq⟩ | ⟨op, hd, hadm, heq⟩ | ⟨op, x, -, -, heq⟩
  · rw [heq]
    exact (follows_of_ne (by exact ht)).mpr (.answers (hs.trans (replays_reserved hd)))
  · rw [heq]
    by_cases hop : op = .tick
    · subst hop
      rw [follows_of_pend rfl]
      exact hs.trans ((performs_tick (s := p.blk.emit [.command w]) hadm).replays hd)
    · have ht' : (PinState.begin op { p with blk := p.blk.emit [.command w] }).tick ≠ some .pend := by
        cases op with
        | tick => exact absurd rfl hop
        | _ => exact ht
      rw [follows_of_ne ht']
      exact (begin_endsIn (p := { p with blk := p.blk.emit [.command w] }) hop hadm).mono
        fun t h => hs.trans (h.replays hd)
  · simp [heq] at hm

/-- At pin level the step call and the response of a TICK are recorded when they are launched (R192, R195). -/
theorem returned_follows (h : Replays s p.blk) (hc : p.blk.ctx ≠ .host) : Follows s p.returned := by
  have hop := h.trans (replays_stepReturned hc)
  rcases returned_cases p with ⟨hhost, -⟩ | ⟨c, hin, he, heq⟩ | ⟨hin, heq⟩
  · exact absurd hhost hc
  · rw [stepReturned_of_inPpu hin, he, if_pos rfl] at hop
    rw [heq, follows_of_pend rfl, emit_emit]
    exact hop
  · rw [stepReturned_completes hin] at hop
    rw [heq, follows_of_ne (by simp)]
    exact .answers hop

theorem Move.follows (hmove : Move p q) (h : p.Consistent) (hf : Follows s p) : Follows s q := by
  obtain ⟨hjob, htick⟩ := h
  cases hmove with
  | accept w hr hm => exact accept_follows hf hr hm
  | advance i hd =>
    obtain ⟨-, ht, -⟩ := advanceJob_frame i p
    by_cases hp : p.tick = some .pend
    · rwa [advanceJob_none ((tickOk_of_call (.inl hp)).mp htick).2]
    · rw [follows_of_ne hp] at hf
      exact (follows_of_ne (ht ▸ hp)).mpr (hf.advance i)
  | pulseEnds ht =>
    rw [follows_of_ne (by simp [ht])] at hf
    exact (follows_of_ne (by simp)).mpr hf
  | defer ht hj =>
    rw [follows_of_ne (by simp [ht])] at hf
    exact (follows_of_ne (by simp)).mpr hf
  | returns ht hj =>
    rw [follows_of_ne (by simp [ht])] at hf
    exact returned_follows (hf.ended (.inl hj)) ((tickOk_of_wait ht).mp htick)
  | resumes ht hj =>
    rw [follows_of_ne (by simp [ht])] at hf
    exact returned_follows (p := { p with job := .none }) (hf.ended (.inr ⟨_, _, hj⟩))
      ((tickOk_of_deferred ht).mp htick).1
  | launchJob =>
    by_cases hp : p.tick = some .pend
    · rwa [launchJob_none ((tickOk_of_call (.inl hp)).mp htick).2]
    · rw [follows_of_ne hp] at hf
      exact (follows_of_ne (by simpa using hp)).mpr hf.launch
  | launchTick =>
    by_cases hp : p.tick = some .pend
    · obtain ⟨-, hj⟩ := (tickOk_of_call (.inl hp)).mp htick
      rw [follows_of_pend hp] at hf
      rw [launchTick_pend hp, follows_of_ne (by simp), hj]
      exact .idle hf
    · rwa [launchTick_of_ne hp]
  | count => exact hf

theorem Moves.follows (hmoves : ReflTransGen Move p q) (h : p.Consistent) (hf : Follows s p) : Follows s q := by
  induction hmoves with
  | refl => exact hf
  | tail hmoves hmove ih => exact hmove.follows (Moves.consistent hmoves h) ih

/-- A run with `por = 0` throughout plays back as long as no command was refused. -/
theorem pinRun_follows (ins : List PinIn) : ∀ p : PinState, (∀ i ∈ ins, i.por = false) →
    (p.mode = .running → p.Consistent ∧ Follows s p) → p.mode ≠ .por → pinRun p ins = .next q →
    q.mode = .running → q.Consistent ∧ Follows s q := by
  induction ins with
  | nil =>
    intro p _ h _ hrun
    cases hrun
    exact h
  | cons i ins ih =>
    intro p hpor h hm hrun
    obtain ⟨r, hcycle, hrest⟩ := pinRun_cons.mp hrun
    obtain ⟨hi, hins⟩ := List.forall_mem_cons.mp hpor
    match hp : p.mode with
    | .por => exact absurd hp hm
    | .unspecified =>
      rw [pinCycle_unspecified hi hp] at hcycle
      cases hcycle
      exact ih _ hins (fun hr => by simp [hp] at hr) (by simp [hp]) hrest
    | .running =>
      obtain ⟨hcons, hf⟩ := h hp
      refine ih r hins (fun hr => ?_) (fun hr => ?_) hrest
      · have hmoves := pinCycle_moves hp hcons hi hcycle hr
        exact ⟨Moves.consistent hmoves hcons, Moves.follows hmoves hcons hf⟩
      · simpa [hr] using pinCycle_refused hp hi hcycle (by simp [hr])

/-- Settles O41: at pin level every move keeps that the run plays back from `s` once what is in progress is over
(`Move.follows`), and at a quiet end nothing is. -/
theorem pinRunIsARunOfTheOperationLevel : Obligations.PinRunIsARunOfTheOperationLevel := by
  unfold Obligations.PinRunIsARunOfTheOperationLevel
  intro s ins p hc hin han hpor hrun hquiet
  obtain ⟨hm, hj, hidle⟩ := ready_iff.mp hquiet
  have hstart : (PinState.quietAt s).Consistent ∧ Follows s (PinState.quietAt s) :=
    ⟨⟨rfl, decide_eq_true hc⟩, .idle (.refl s)⟩
  obtain ⟨-, hf⟩ := pinRun_follows ins _ hpor (fun _ => hstart) (by simp [PinState.quietAt]) hrun hm
  rw [follows_of_ne (by rcases hidle with ht | ht <;> simp [ht])] at hf
  obtain ⟨es, htr, hin', han', hplay⟩ := hf.ended (.inl hj)
  have hend := hplay [] .none
  rw [List.append_nil, Answers.append_none, loaded_self (hin'.trans hin) (han'.trans han)] at hend
  exact ⟨es, htr, hend⟩

end Sys2Proof.Machine
end

section
/-! The signal-protocol family: one edge of a working block as seen on the ports (R191 to R195). -/

namespace Sys2Proof.Machine

variable {p q r : PinState} {i j : PinIn}

/-! ### Outputs of a working block -/

theorem pinOut_running (hm : p.mode = .running) : pinOut p = p.runningOut := by
  rw [pinOut, hm]

theorem cmdReady_running (hm : p.mode = .running) : (pinOut p).cmdReady = p.ready := by
  rw [pinOut_running hm]
  rfl

theorem cartReq_running (hm : p.mode = .running) : (pinOut p).cartReq = true ↔ ∃ c, p.job = .cart c true := by
  rw [pinOut_running hm]
  unfold PinState.runningOut PinState.cartCall
  split <;> simp_all

theorem regReq_running (hm : p.mode = .running) : (pinOut p).ppuRegReq = true ↔ ∃ k w v, p.job = .reg k w v true := by
  rw [pinOut_running hm]
  unfold PinState.runningOut PinState.regCall
  split <;> simp_all

theorem rspValid_running (hm : p.mode = .running) :
    (pinOut p).rspValid = true ↔ ∃ d st, p.job = .respond d st true := by
  rw [pinOut_running hm]
  unfold PinState.runningOut PinState.response
  split <;> simp_all

/-! ### What an edge records -/

/-- No command and no response among the events. -/
def Silent (es : List Event) : Prop := countEvents Event.isCommand es = 0 ∧ countEvents Event.isResponse es = 0

theorem Silent.append {es es' : List Event} (h : Silent es) (h' : Silent es') : Silent (es ++ es') := by
  obtain ⟨hc, hr⟩ := h
  obtain ⟨hc', hr'⟩ := h'
  exact ⟨by rw [countEvents_append, hc, hc'], by rw [countEvents_append, hr, hr']⟩

theorem Silent.nil : Silent [] := ⟨rfl, rfl⟩

/-- The record `es` of an edge holds the response that is on the port after it, and no other (R192). -/
def ResponseOf (j : Job) (es : List Event) : Prop :=
  (∃ d st, j = .respond d st true ∧ .response d st ∈ es ∧ countEvents Event.isResponse es = 1)
  ∨ ((∀ d st, j ≠ .respond d st true) ∧ countEvents Event.isResponse es = 0)

theorem ResponseOf.after {j : Job} {es es' : List Event} (hs : countEvents Event.isResponse es' = 0)
    (h : ResponseOf j es) : ResponseOf j (es' ++ es) := by
  rcases h with ⟨d, st, hj, hmem, hone⟩ | ⟨hj, hnone⟩
  · exact .inl ⟨d, st, hj, List.mem_append_right _ hmem, by rw [countEvents_append, hs, hone]⟩
  · exact .inr ⟨hj, by rw [countEvents_append, hs, hnone]⟩

theorem ResponseOf.before {j : Job} {es es' : List Event} (hs : countEvents Event.isResponse es' = 0)
    (h : ResponseOf j es) : ResponseOf j (es ++ es') := by
  rcases h with ⟨d, st, hj, hmem, hone⟩ | ⟨hj, hnone⟩
  · exact .inl ⟨d, st, hj, List.mem_append_left _ hmem, by rw [countEvents_append, hs, hone]⟩
  · exact .inr ⟨hj, by rw [countEvents_append, hs, hnone]⟩

/-- What is sampled for the job is at most one answer, and the response that was on the port is gone. -/
theorem advanceJob_records (i : PinIn) (p : PinState) :
    (∃ es, (p.advanceJob i).blk.trace = p.blk.trace ++ es ∧ Silent es)
    ∧ ∀ d st, (p.advanceJob i).job ≠ .respond d st true := by
  rcases advanceJob_cases i p with ⟨heq, hj, -⟩ | ⟨c, -, -, heq⟩ | ⟨_, _, _, -, -, heq⟩ | ⟨-, heq⟩ | ⟨-, -, heq⟩
    | ⟨_, _, -, heq⟩ <;> rw [heq]
  · exact ⟨⟨[], (List.append_nil _).symm, .nil⟩, hj⟩
  · obtain ⟨hjob, -, -, -, htr⟩ := acked_spec c i p
    refine ⟨⟨_, htr, by cases c <;> exact ⟨rfl, rfl⟩⟩, ?_⟩
    rcases hjob with ⟨_, _, hj⟩ | ⟨_, _, _, hj⟩ | hj <;> simp [hj]
  · exact ⟨⟨_, rfl, rfl, rfl⟩, by simp⟩
  · exact ⟨⟨[], (List.append_nil _).symm, .nil⟩, by simp⟩
  · exact ⟨⟨[], (List.append_nil _).symm, .nil⟩, by simp⟩
  · exact ⟨⟨[], (List.append_nil _).symm, .nil⟩, by simp⟩

theorem accept_not_given (hj : p.job = .none) (w : Cmd) (d : Byte) (st : Status) :
    (p.accept w).job ≠ .respond d st true := by
  rcases accept_cases w p with ⟨-, heq⟩ | ⟨op, -, -, heq⟩ | ⟨op, x, -, -, heq⟩ <;> rw [heq]
  · simp
  · cases op <;> simp [PinState.begin, hj]
  · simp

/-- What an edge takes: the command on `cmd`, recorded first and alone, or what is sampled for the job. -/
theorem taken_records (i : PinIn) (p : PinState) :
    ((p.accepts i = true ∧ (p.taken i).blk.trace = p.blk.trace ++ [.command i.cmd])
      ∨ (p.accepts i = false ∧ ∃ es, (p.taken i).blk.trace = p.blk.trace ++ es ∧ Silent es))
    ∧ ∀ d st, (p.taken i).job ≠ .respond d st true := by
  cases ha : p.accepts i with
  | true =>
    obtain ⟨hv, hr⟩ := accepts_iff.mp ha
    rw [taken_accept hv hr]
    exact ⟨.inl ⟨rfl, pinAccept_trace _ _⟩, accept_not_given (ready_iff.mp hr).2.1 _⟩
  | false =>
    have htaken : p.taken i = p.advanceJob i := by simp [PinState.taken, ha]
    obtain ⟨hrec, hjob⟩ := advanceJob_records i p
    rw [htaken]
    exact ⟨.inr ⟨rfl, hrec⟩, hjob⟩

theorem doneSeen_records (hj : ∀ d st, p.job ≠ .respond d st true) :
    (∃ es, p.doneSeen.blk.trace = p.blk.trace ++ es ∧ Silent es)
    ∧ ∀ d st, p.doneSeen.job ≠ .respond d st true := by
  by_cases hn : p.job = .none
  · rw [doneSeen_idle hn]
    rcases returned_cases p with ⟨-, heq⟩ | ⟨_, -, -, heq⟩ | ⟨-, heq⟩ <;> rw [heq]
    · exact ⟨⟨[], (List.append_nil _).symm, .nil⟩, hj⟩
    · exact ⟨⟨[.returned], rfl, rfl, rfl⟩, hj⟩
    · exact ⟨⟨[.returned], rfl, rfl, rfl⟩, by simp⟩
  · rw [doneSeen_busy hn]
    exact ⟨⟨[], (List.append_nil _).symm, .nil⟩, hj⟩

/-- After what is taken, and before `launch`, an edge records at most a return, and no response is on the port. -/
theorem edge_records (he : p.edge i = .next r) :
    (∃ es, r.blk.trace = (p.taken i).blk.trace ++ es ∧ Silent es) ∧ ∀ d st, r.job ≠ .respond d st true := by
  obtain ⟨-, hj⟩ := taken_records i p
  rcases edge_cases he with ⟨-, rfl⟩ | ⟨-, rfl⟩ | ⟨-, rfl⟩
  · exact ⟨⟨[], (List.append_nil _).symm, .nil⟩, hj⟩
  · exact doneSeen_records hj
  · exact ⟨⟨[], (List.append_nil _).symm, .nil⟩, hj⟩

/-- A response is recorded when it is put on the port (R192). -/
theorem launchJob_records (hj : ∀ d st, p.job ≠ .respond d st true) :
    ∃ es, p.launchJob.blk.trace = p.blk.trace ++ es ∧ countEvents Event.isCommand es = 0
      ∧ ResponseOf p.launchJob.job es := by
  rcases launchJob_cases p with ⟨_, -, heq⟩ | ⟨_, -, heq⟩ | ⟨_, _, _, -, heq⟩ | ⟨-, heq⟩ | ⟨d, st, -, heq⟩
    | ⟨-, heq⟩ <;> rw [heq]
  case inr.inr.inr.inl => exact ⟨[.cpuInit], rfl, rfl, .inr ⟨by simp, rfl⟩⟩
  case inr.inr.inr.inr.inl => exact ⟨[.response d st], rfl, rfl, .inl ⟨d, st, rfl, by simp, rfl⟩⟩
  case inr.inr.inr.inr.inr => exact ⟨[], (List.append_nil _).symm, rfl, .inr ⟨hj, rfl⟩⟩
  all_goals exact ⟨[], (List.append_nil _).symm, rfl, .inr ⟨by simp, rfl⟩⟩

theorem launchTick_records (p : PinState) : ∃ es, p.launchTick.blk.trace = p.blk.trace ++ es ∧ Silent es := by
  by_cases ht : p.tick = some .pend
  · rw [launchTick_pend ht]
    refine ⟨[p.stepEvent], rfl, ?_⟩
    unfold PinState.stepEvent
    split <;> exact ⟨rfl, rfl⟩
  · rw [launchTick_of_ne ht]
    exact ⟨[], (List.append_nil _).symm, .nil⟩

theorem launch_records (i : PinIn) (hj : ∀ d st, p.job ≠ .respond d st true) :
    ∃ es, (p.launch i).blk.trace = p.blk.trace ++ es ∧ countEvents Event.isCommand es = 0
      ∧ ResponseOf (p.launch i).job es := by
  unfold PinState.launch
  split
  · obtain ⟨es, htr, hc, hr⟩ := launchJob_records hj
    obtain ⟨es', htr', hc', hr'⟩ := launchTick_records p.launchJob
    rw [launchTick_job]
    exact ⟨es ++ es', by rw [htr', htr, List.append_assoc], by rw [countEvents_append, hc, hc'], hr.before hr'⟩
  · exact ⟨[], (List.append_nil _).symm, rfl, .inr ⟨hj, rfl⟩⟩

/-- An edge records what it takes first; after that no command, and the response that is on the port next. -/
theorem pinCycle_records (hm : p.mode = .running) (hpor : i.por = false) (hcycle : pinCycle p i = .next q) :
    ∃ es, q.blk.trace = (p.taken i).blk.trace ++ es ∧ countEvents Event.isCommand es = 0 ∧ ResponseOf q.job es := by
  obtain ⟨r, he, rfl⟩ := (pinCycle_running hpor hm).mp hcycle
  obtain ⟨⟨es, htr, hc, hr⟩, hj⟩ := edge_records he
  split
  · obtain ⟨es', htr', hc', hresp⟩ := launch_records i hj
    exact ⟨es ++ es', by rw [counted_blk, htr', htr, List.append_assoc], by rw [countEvents_append, hc, hc'],
      hresp.after hr⟩
  · exact ⟨es, htr, hc, .inr ⟨hj, hr⟩⟩

/-- Settles O43: `cmd_ready` by its definition; the record of an edge begins with what it takes, and no command comes
after. -/
theorem pinAcceptsWhenReady : Obligations.PinAcceptsWhenReady := by
  unfold Obligations.PinAcceptsWhenReady
  intro p q i hm hpor hcycle
  rw [cmdReady_running hm]
  refine ⟨by simp [ready_iff, hm], ?_⟩
  obtain ⟨es, htr, hc, -⟩ := pinCycle_records hm hpor hcycle
  obtain ⟨⟨ha, htaken⟩ | ⟨ha, es', htaken, hc', -⟩, -⟩ := taken_records i p
  · obtain ⟨hv, hr⟩ := accepts_iff.mp ha
    exact ⟨.command i.cmd :: es, by simp [htr, htaken], fun _ _ => ⟨es, rfl, hc⟩, by simp [hv, hr]⟩
  · refine ⟨es' ++ es, by rw [htr, htaken, List.append_assoc], fun hv hr => ?_, fun _ => ?_⟩
    · simp [PinState.accepts, hv, hr] at ha
    · rw [countEvents_append, hc', hc]

/-- Settles O44: a response is recorded at the edge that puts it on the port (`ResponseOf`), and what is taken at that
edge records none. -/
theorem pinResponseLastsOneCycle : Obligations.PinResponseLastsOneCycle := by
  unfold Obligations.PinResponseLastsOneCycle
  intro p q i hm hpor hcycle hq
  obtain ⟨es, htr, -, hresp⟩ := pinCycle_records hm hpor hcycle
  have hrecord : ∃ es, q.blk.trace = p.blk.trace ++ es ∧ ResponseOf q.job es := by
    obtain ⟨⟨-, htaken⟩ | ⟨-, es', htaken, -, hr'⟩, -⟩ := taken_records i p
    · exact ⟨[.command i.cmd] ++ es, by rw [htr, htaken, List.append_assoc], hresp.after rfl⟩
    · exact ⟨es' ++ es, by rw [htr, htaken, List.append_assoc], hresp.after hr'⟩
  obtain ⟨es, htr, ⟨d, st, hj, hmem, hone⟩ | ⟨hj, hnone⟩⟩ := hrecord
  · have hout : (pinOut q).rspValid = true ∧ (pinOut q).rspData = d ∧ (pinOut q).rspStatus = st.code := by
      simp [pinOut_running hq, PinState.runningOut, PinState.response, hj]
    obtain ⟨hv, hd, hs⟩ := hout
    exact ⟨by simp [hv], fun _ => ⟨es, d, st, htr, hmem, hone, hd, hs⟩, by simp [hv]⟩
  · have hnot : q.response = none := by
      unfold PinState.response
      split
      · next hj' => exact absurd hj' (hj _ _)
      · rfl
    exact ⟨fun _ => by simp [pinOut_running hq, PinState.runningOut, hnot],
      fun hv => absurd hv (by simp [pinOut_running hq, PinState.runningOut, hnot]), fun _ => ⟨es, htr, hnone⟩⟩

end Sys2Proof.Machine
end

section
/-! The signal-protocol family: the handshakes, the pulses, reserved and refused words, and power-on on the ports
(R193 to R195, R201, R202). -/

namespace Sys2Proof.Machine

variable {p q r : PinState} {i j : PinIn}

/-! ### What an edge looks at -/

/-- The job looks at the inputs of its own call only. -/
theorem advanceJob_congr
    (hcart : ∀ c, p.job = .cart c true → j.cartAck = i.cartAck ∧ p.acked c j = p.acked c i)
    (hreg : ∀ k w v, p.job = .reg k w v true → j.ppuRegAck = i.ppuRegAck ∧ j.ppuRegRdata = i.ppuRegRdata)
    (hcpu : j.cpuInitDone = i.cpuInitDone) : p.advanceJob j = p.advanceJob i := by
  cases hj : p.job with
  | none => simp [PinState.advanceJob, hj]
  | fill sel => simp [PinState.advanceJob, hj]
  | cart c raised =>
    cases raised
    · simp [PinState.advanceJob, hj]
    · obtain ⟨ha, hacked⟩ := hcart c hj
      simp [PinState.advanceJob, hj, ha, hacked]
  | reg k w v raised =>
    cases raised
    · simp [PinState.advanceJob, hj]
    · obtain ⟨ha, hd⟩ := hreg k w v hj
      simp [PinState.advanceJob, hj, ha, hd]
  | cpuInit u => cases u <;> simp [PinState.advanceJob, hj, hcpu]
  | respond d st driven => cases driven <;> simp [PinState.advanceJob, hj]

/-- The edge depends on `por`, the command port, `go`, the awaited `*_done`, and what is sampled for the job. -/
theorem pinCycle_congr (hpor : j.por = i.por) (hv : j.cmdValid = i.cmdValid) (hc : j.cmd = i.cmd) (hgo : j.go = i.go)
    (hd : p.stepDone j = p.stepDone i) (ha : p.advanceJob j = p.advanceJob i) : pinCycle p j = pinCycle p i := by
  have hlaunch : ∀ r : PinState, r.launch j = r.launch i := fun r => by simp only [PinState.launch, hgo]
  have haccepts : p.accepts j = p.accepts i := by simp only [PinState.accepts, hv]
  have hedge : p.edge j = p.edge i := by
    unfold PinState.edge
    rw [haccepts, hc, ha, hd]
  simp only [pinCycle, hpor, hedge, hlaunch]

theorem advanceJob_cart {c : CartCall} (hj : p.job = .cart c true) :
    p.advanceJob i = if i.cartAck then p.acked c i else p := by
  rw [PinState.advanceJob, hj]

theorem advanceJob_reg {k : RegIndex} {w : Bool} {v : Byte} (hj : p.job = .reg k w v true) :
    p.advanceJob i = if i.ppuRegAck then
        { p with blk := p.blk.emit [.ppuReg k w v i.ppuRegRdata],
                 job := .respond (if w then 0 else i.ppuRegRdata) .ok false }
      else p := by
  rw [PinState.advanceJob, hj]

/-! ### A job in progress -/

/-- The job once what waits for its port has been put there. -/
def Job.launched : Job → Job
  | .fill sel => .cart (.insert sel) true
  | .cart c _ => .cart c true
  | .reg k w v _ => .reg k w v true
  | .cpuInit .pend => .cpuInit .pulse
  | .cpuInit .pulse => .cpuInit .pulse
  | .cpuInit .wait => .cpuInit .wait
  | .respond d st _ => .respond d st true
  | .none => .none

theorem launchJob_job (p : PinState) : p.launchJob.job = p.job.launched := by
  cases hj : p.job with
  | none => simp [PinState.launchJob, hj, Job.launched]
  | fill sel => simp [PinState.launchJob, hj, Job.launched]
  | cart c raised => cases raised <;> simp [PinState.launchJob, hj, Job.launched]
  | reg k w v raised => cases raised <;> simp [PinState.launchJob, hj, Job.launched]
  | cpuInit u => cases u <;> simp [PinState.launchJob, hj, Job.launched]
  | respond d st driven => cases driven <;> simp [PinState.launchJob, hj, Job.launched]

theorem launch_job (i : PinIn) (p : PinState) : (p.launch i).job = if i.go then p.job.launched else p.job := by
  unfold PinState.launch
  split
  · rw [launchTick_job, launchJob_job]
  · rfl

theorem launch_tick (i : PinIn) (p : PinState) :
    (p.launch i).tick = p.tick ∨ (p.tick = some .pend ∧ (p.launch i).tick = some .pulse) := by
  unfold PinState.launch
  split
  · by_cases ht : p.tick = some .pend
    · exact .inr ⟨ht, by rw [launchTick_pend (by simpa using ht)]⟩
    · exact .inl (by rw [launchTick_of_ne (by simpa using ht), launchJob_tick])
  · exact .inl rfl

theorem launchJob_trace (p : PinState) : ∃ es, p.launchJob.blk.trace = p.blk.trace ++ es := by
  rcases launchJob_cases p with ⟨_, -, h⟩ | ⟨_, -, h⟩ | ⟨_, _, _, -, h⟩ | ⟨-, h⟩ | ⟨_, _, -, h⟩ | ⟨-, h⟩ <;> rw [h]
  case inr.inr.inr.inl | inr.inr.inr.inr.inl => exact ⟨_, rfl⟩
  all_goals exact ⟨[], (List.append_nil _).symm⟩

/-- Launching only adds to the record. -/
theorem launch_trace (i : PinIn) (p : PinState) : ∃ es, (p.launch i).blk.trace = p.blk.trace ++ es := by
  unfold PinState.launch
  split
  · obtain ⟨es, htr⟩ := launchJob_trace p
    obtain ⟨es', htr', -⟩ := launchTick_records p.launchJob
    exact ⟨es ++ es', by rw [htr', htr, List.append_assoc]⟩
  · exact ⟨[], (List.append_nil _).symm⟩

/-- While a job is in progress, and still is after the edge, the edge does to it what the sampled inputs do, and may
then launch it. -/
theorem pinCycle_busy (hm : p.mode = .running) (hpor : i.por = false) (hj : p.job ≠ .none)
    (hn : (p.advanceJob i).job ≠ .none) (hcycle : pinCycle p i = .next q) :
    q.mode = .running ∧ (q.job = (p.advanceJob i).job ∨ q.job = (p.advanceJob i).job.launched)
      ∧ ∃ es, q.blk.trace = (p.advanceJob i).blk.trace ++ es := by
  obtain ⟨r, he, rfl⟩ := (pinCycle_running hpor hm).mp hcycle
  have hr : r.mode = p.mode ∧ r.job = (p.advanceJob i).job ∧ r.blk = (p.advanceJob i).blk := by
    obtain ⟨hmode, -⟩ := advanceJob_frame i p
    have hcases := edge_cases he
    rw [taken_of_job hj, doneSeen_busy hn] at hcases
    rcases hcases with ⟨-, rfl⟩ | ⟨-, rfl⟩ | ⟨-, rfl⟩ <;> exact ⟨hmode, rfl, rfl⟩
  obtain ⟨hmode, hjob, hblk⟩ := hr
  obtain ⟨es, htr⟩ := launch_trace i r
  rw [if_pos (hmode.trans hm)]
  refine ⟨by simp [hmode, hm], ?_, es, by rw [counted_blk, htr, hblk]⟩
  rw [counted_job, launch_job, hjob]
  split
  · exact .inr rfl
  · exact .inl rfl

/-! ### The cartridge call -/

theorem cart_out {c : CartCall} (hm : p.mode = .running) (hj : p.job = .cart c true) :
    (pinOut p).cartReq = true ∧ (pinOut p).cartOp = c.op ∧ (pinOut p).cartAddr = c.addr
      ∧ (pinOut p).cartWdata = c.wdata ∧ (pinOut p).cartSel = c.sel := by
  simp [pinOut_running hm, PinState.runningOut, PinState.cartCall, hj]

/-- Without `cart_ack` the call stays on the port as it is. -/
theorem cart_held {c : CartCall} (hm : p.mode = .running) (hpor : i.por = false) (hj : p.job = .cart c true)
    (ha : i.cartAck = false) (hcycle : pinCycle p i = .next q) : q.mode = .running ∧ q.job = .cart c true := by
  have hstay : p.advanceJob i = p := by simp [advanceJob_cart hj, ha]
  obtain ⟨hq, hjob, -⟩ := pinCycle_busy hm hpor (by simp [hj]) (by simp [hstay, hj]) hcycle
  rw [hstay, hj] at hjob
  exact ⟨hq, hjob.elim id id⟩

/-- With `cart_ack` the call is recorded with what is sampled, and is off the port in the next cycle. -/
theorem cart_acked {c : CartCall} (hm : p.mode = .running) (hpor : i.por = false) (hj : p.job = .cart c true)
    (ha : i.cartAck = true) (hcycle : pinCycle p i = .next q) :
    (pinOut q).cartReq = false ∧ ∃ es, q.blk.trace = p.blk.trace ++ c.event i :: es := by
  have hacked : p.advanceJob i = p.acked c i := by simp [advanceJob_cart hj, ha]
  obtain ⟨hjob, -, -, -, htr⟩ := acked_spec c i p
  obtain ⟨hq, hjob', es, htr'⟩ := pinCycle_busy hm hpor (by simp [hj])
    (by rw [hacked]; rcases hjob with ⟨_, _, h⟩ | ⟨_, _, _, h⟩ | h <;> simp [h]) hcycle
  rw [hacked] at hjob' htr'
  refine ⟨Bool.eq_false_iff.mpr fun hreq => ?_, es, by simp [htr', htr]⟩
  obtain ⟨c', hc'⟩ := (cartReq_running hq).mp hreq
  rcases hjob with ⟨_, _, h⟩ | ⟨_, _, _, h⟩ | h <;> rw [h, hc'] at hjob' <;> simp [Job.launched] at hjob'

/-- Settles O45: an edge with a call on the port does to it what `cart_ack` says (`cart_held`, `cart_acked`), and looks
at no input that the call does not use (`pinCycle_congr`). -/
theorem pinCartridgeHandshake : Obligations.PinCartridgeHandshake := by
  unfold Obligations.PinCartridgeHandshake
  intro p i hm hpor
  refine ⟨fun hreq b => ?_, fun c hj => ?_⟩
  · refine pinCycle_congr rfl rfl rfl rfl rfl (advanceJob_congr (fun c hj => ?_) (fun _ _ _ _ => ⟨rfl, rfl⟩) rfl)
    simp [(cart_out hm hj).1] at hreq
  · obtain ⟨hreq, hop, haddr, hwdata, hsel⟩ := cart_out hm hj
    have hunused : ∀ j : PinIn, j.por = i.por → j.cmdValid = i.cmdValid → j.cmd = i.cmd → j.go = i.go →
        p.stepDone j = p.stepDone i → j.cartAck = i.cartAck → p.acked c j = p.acked c i →
        pinCycle p j = pinCycle p i := fun j h1 h2 h3 h4 h5 h6 h7 =>
      pinCycle_congr h1 h2 h3 h4 h5 (by rw [advanceJob_cart hj, advanceJob_cart hj, h6, h7])
    rw [hop, haddr, hwdata, hsel]
    refine ⟨hreq, ?_, ?_, ?_, ?_, fun q hcycle => ⟨fun ha => ?_, fun ha => ?_⟩⟩
    · rintro a rfl
      exact ⟨rfl, rfl, rfl, rfl, fun b => hunused _ rfl rfl rfl rfl rfl rfl rfl⟩
    · rintro a v rfl
      exact ⟨rfl, rfl, rfl, rfl, fun b d => hunused _ rfl rfl rfl rfl rfl rfl rfl⟩
    · rintro sel rfl
      exact ⟨rfl, rfl, rfl, rfl, fun b d => hunused _ rfl rfl rfl rfl rfl rfl rfl⟩
    · rintro rfl
      exact ⟨rfl, rfl, rfl, rfl, fun b d => hunused _ rfl rfl rfl rfl rfl rfl rfl⟩
    · obtain ⟨hq, hj'⟩ := cart_held hm hpor hj ha hcycle
      exact cart_out hq hj'
    · obtain ⟨hreq', es, htr⟩ := cart_acked hm hpor hj ha hcycle
      refine ⟨hreq', es, ?_⟩
      cases c <;> exact htr

/-! ### The register call -/

theorem reg_out {k : RegIndex} {w : Bool} {v : Byte} (hm : p.mode = .running) (hj : p.job = .reg k w v true) :
    (pinOut p).ppuRegReq = true ∧ (pinOut p).ppuRegWe = w ∧ (pinOut p).ppuRegIdx = k
      ∧ (pinOut p).ppuRegWdata = v := by
  simp [pinOut_running hm, PinState.runningOut, PinState.regCall, hj]

/-- Without `ppu_reg_ack` the call stays on the port as it is. -/
theorem reg_held {k : RegIndex} {w : Bool} {v : Byte} (hm : p.mode = .running) (hpor : i.por = false)
    (hj : p.job = .reg k w v true) (ha : i.ppuRegAck = false) (hcycle : pinCycle p i = .next q) :
    q.mode = .running ∧ q.job = .reg k w v true := by
  have hstay : p.advanceJob i = p := by simp [advanceJob_reg hj, ha]
  obtain ⟨hq, hjob, -⟩ := pinCycle_busy hm hpor (by simp [hj]) (by simp [hstay, hj]) hcycle
  rw [hstay, hj] at hjob
  exact ⟨hq, hjob.elim id id⟩

/-- With `ppu_reg_ack` the response follows: the value sampled on a read, 0x00 on a write (R194). -/
theorem reg_acked {k : RegIndex} {w : Bool} {v : Byte} (hm : p.mode = .running) (hpor : i.por = false)
    (hj : p.job = .reg k w v true) (ha : i.ppuRegAck = true) (hcycle : pinCycle p i = .next q) :
    q.mode = .running ∧ ∃ b, q.job = .respond (if w = true then 0x00 else i.ppuRegRdata) .ok b := by
  have hacked : (p.advanceJob i).job = .respond (if w = true then 0x00 else i.ppuRegRdata) .ok false := by
    simp [advanceJob_reg hj, ha]
  obtain ⟨hq, hjob, -⟩ := pinCycle_busy hm hpor (by simp [hj]) (by simp [hacked]) hcycle
  rw [hacked] at hjob
  exact ⟨hq, hjob.elim (fun h => ⟨false, h⟩) (fun h => ⟨true, h⟩)⟩

/-- Settles O46: an edge with a register call on the port does to it what `ppu_reg_ack` says (`reg_held`,
`reg_acked`). -/
theorem pinRegisterHandshake : Obligations.PinRegisterHandshake := by
  unfold Obligations.PinRegisterHandshake
  intro p i hm hpor
  refine ⟨fun hreq b => ?_, fun a k hr => by rw [readMap_ppu hr], fun k w v hj => ?_⟩
  · refine pinCycle_congr rfl rfl rfl rfl rfl (advanceJob_congr (fun c _ => ⟨rfl, by cases c <;> rfl⟩)
      (fun k w v hj => ?_) rfl)
    simp [(reg_out hm hj).1] at hreq
  · obtain ⟨hreq, hwe, hidx, hwdata⟩ := reg_out hm hj
    refine ⟨hreq, hwe, hidx, hwdata, fun q hcycle => ⟨fun ha => ?_, fun ha => ?_⟩⟩
    · obtain ⟨hq, hj'⟩ := reg_held hm hpor hj ha hcycle
      exact reg_out hq hj'
    · obtain ⟨hq, b, hj'⟩ := reg_acked hm hpor hj ha hcycle
      refine ⟨Bool.eq_false_iff.mpr fun hreq' => ?_, b, hj'⟩
      obtain ⟨_, _, _, hreg⟩ := (regReq_running hq).mp hreq'
      simp [hj'] at hreg

/-! ### Pulses and the end of a step -/

theorem pulse_out (hm : p.mode = .running) (h : p.tick ≠ some .pulse) :
    (pinOut p).ppuStep = false ∧ (pinOut p).cpuStep = false := by
  simp [pinOut_running hm, PinState.runningOut, PinState.pulsing, h]

theorem tick_of_pulse_out (hm : p.mode = .running) (h : (pinOut p).ppuStep = true ∨ (pinOut p).cpuStep = true) :
    p.tick = some .pulse := by
  by_contra hne
  obtain ⟨hp, hc⟩ := pulse_out hm hne
  simp [hp, hc] at h

theorem cpuInit_out (hm : p.mode = .running) : (pinOut p).cpuInit = true ↔ p.job = .cpuInit .pulse := by
  simp [pinOut_running hm, PinState.runningOut]

/-- An edge that leaves the block working launches what the edge prepared. -/
theorem pinCycle_launch (hm : p.mode = .running) (hpor : i.por = false) (he : p.edge i = .next r)
    (hr : r.mode = .running) : pinCycle p i = .next (r.launch i).counted :=
  (pinCycle_running hpor hm).mpr ⟨r, he, by rw [if_pos hr]⟩

/-- A step pulse is over at the next edge, and the step is waited for (R195). -/
theorem pulse_ends (hm : p.mode = .running) (hpor : i.por = false) (ht : p.tick = some .pulse)
    (hcycle : pinCycle p i = .next q) : q.tick = some .wait := by
  obtain ⟨r, he, rfl⟩ := (pinCycle_running hpor hm).mp hcycle
  rw [edge_of_pulse ht] at he
  cases he
  split
  · rcases launch_tick i { p.taken i with tick := some .wait } with h | ⟨h, -⟩
    · exact h
    · cases h
  · rfl

/-- The pulse of `CpuInit` is over at the next edge. -/
theorem cpuInit_pulse_ends (hm : p.mode = .running) (hpor : i.por = false) (hj : p.job = .cpuInit .pulse)
    (hcycle : pinCycle p i = .next q) : q.job = .cpuInit .wait := by
  have hwait : (p.advanceJob i).job = .cpuInit .wait := by simp [PinState.advanceJob, hj]
  obtain ⟨-, hjob, -⟩ := pinCycle_busy hm hpor (by simp [hj]) (by simp [hwait]) hcycle
  rw [hwait] at hjob
  exact hjob.elim id id

/-- The edge that accepts a reserved word: the response is prepared, and a `*_done` sampled there is taken (R201;
log 18). -/
theorem edge_reserved (hr : p.ready = true) (hv : i.cmdValid = true) (hd : decode i.cmd = none) :
    ∃ r, p.edge i = .next r ∧ r.mode = .running ∧ r.job = .respond 0 .illegal false
      ∧ r.tick = (if p.tick = some .wait ∧ p.stepDone i = true then some .done else p.tick)
      ∧ r.blk = p.blk.emit [.command i.cmd] := by
  obtain ⟨hm, -, hidle⟩ := ready_iff.mp hr
  have htaken : p.taken i = { p with blk := p.blk.emit [.command i.cmd], job := .respond 0 .illegal false } := by
    rw [taken_accept hv hr, accept_reserved hd]
  rcases hidle with ht | ht
  · exact ⟨_, edge_of_no_call (.inl ht), by rw [htaken]; simp [ht, hm]⟩
  · cases hdone : p.stepDone i with
    | false => exact ⟨_, edge_of_not_done ht hdone, by rw [htaken]; simp [hm]⟩
    | true =>
      refine ⟨_, edge_of_done ht hdone (by rw [htaken]; exact hm) (by rw [htaken]; rfl), ?_⟩
      rw [htaken, doneSeen_busy (by simp)]
      simp [ht, hm]

/-- A `*_done` while a reserved-word response is held back is taken, and the return waits (log 18). -/
theorem edge_done_reserved {d : Byte} (hm : p.mode = .running) (ht : p.tick = some .wait)
    (hd : p.stepDone i = true) (hj : p.job = .respond d .illegal false) :
    p.edge i = .next { p with tick := some .done } := by
  have htaken : p.taken i = p := by rw [taken_of_job (by simp [hj]), advanceJob_held hj]
  rw [edge_of_done ht hd (by rw [htaken, hm]) (by rw [htaken, hj]; rfl), htaken, doneSeen_busy (by simp [hj])]

/-- Launching a response changes nothing but the record and whether the response is on the port. -/
theorem launch_response {d : Byte} {st : Status} (hj : p.job = .respond d st false) (ht : p.tick ≠ some .pend) :
    (∃ b, (p.launch i).job = .respond d st b) ∧ (p.launch i).tick = p.tick
      ∧ ∃ tr, (p.launch i).blk = { p.blk with trace := tr } := by
  unfold PinState.launch
  split
  · rw [launchTick_of_ne (by simpa using ht), launchJob_job, launchJob_tick, hj]
    refine ⟨⟨true, rfl⟩, rfl, p.blk.trace ++ [.response d st], ?_⟩
    simp [PinState.launchJob, hj, State.respond, State.emit]
  · exact ⟨⟨false, hj⟩, rfl, p.blk.trace, rfl⟩

/-- With a response in progress no call is on the ports. -/
theorem respond_out {d : Byte} {st : Status} {b : Bool} (hm : p.mode = .running) (hj : p.job = .respond d st b) :
    (pinOut p).cartReq = false ∧ (pinOut p).ppuRegReq = false ∧ (pinOut p).cpuInit = false := by
  simp [pinOut_running hm, PinState.runningOut, PinState.cartCall, PinState.regCall, hj]

/-- Where the return was put off and no reserved word is in progress any more, the step returns (log 18). -/
theorem resume_returns {d : Byte} {st : Status} (hm : p.mode = .running) (hpor : i.por = false)
    (ht : p.tick = some .done) (hc : p.blk.ctx ≠ .host) (hj : p.job = .respond d st true) :
    ∃ q es, pinCycle p i = .next q ∧ q.blk.trace = p.blk.trace ++ .returned :: es ∧ q.tick ≠ some .done := by
  have htaken : p.taken i = { p with job := .none } := by rw [taken_of_job (by simp [hj]), advanceJob_given hj]
  have hedge : p.edge i = .next { p with job := .none }.returned := by
    rw [edge_of_deferred ht, htaken, doneSeen_idle rfl]
  have hret : { p with job := .none }.returned.blk.trace = p.blk.trace ++ [.returned]
      ∧ { p with job := .none }.returned.tick ≠ some .done := by
    rcases returned_cases { p with job := .none } with ⟨hhost, -⟩ | ⟨_, -, -, heq⟩ | ⟨-, heq⟩
    · exact absurd hhost hc
    all_goals
      rw [heq]
      exact ⟨rfl, by simp⟩
  obtain ⟨htr, hnot⟩ := hret
  obtain ⟨es, htr'⟩ := launch_trace i { p with job := .none }.returned
  refine ⟨_, es, pinCycle_launch hm hpor hedge (by rw [returned_mode, hm]), by simp [htr', htr], ?_⟩
  rw [counted_tick]
  rcases launch_tick i { p with job := .none }.returned with h | ⟨-, h⟩ <;> rw [h]
  · exact hnot
  · simp

/-- Settles O47: the pulses by `pulse_ends` and `cpuInit_pulse_ends`, the awaited `*_done` by what the edge does with
it in each state of the job. -/
theorem pinPulsesLastOneCycle : Obligations.PinPulsesLastOneCycle := by
  unfold Obligations.PinPulsesLastOneCycle
  intro p i hm hpor
  rw [cmdReady_running hm]
  refine ⟨fun q hcycle hq => ⟨fun hpulse => ?_, fun hinit => ?_⟩, fun u hj => ?_, fun ht hd hcall hack => ?_,
    fun ht hd hres => ?_, fun ht hc ⟨d, hj⟩ => resume_returns hm hpor ht hc hj⟩
  · have hwait := pulse_ends hm hpor (tick_of_pulse_out hm hpulse) hcycle
    exact pulse_out hq (by simp [hwait])
  · have hwait := cpuInit_pulse_ends hm hpor ((cpuInit_out hm).mp hinit) hcycle
    rw [Bool.eq_false_iff, ne_eq, cpuInit_out hq, hwait]
    simp
  · simp [PinState.ready, hj]
  · obtain ⟨c, hj⟩ := hcall
    have htaken : p.taken i = p := by
      rw [taken_of_job (by simp [hj]), advanceJob_cart hj]
      simp [hack]
    have hedge := edge_of_done_open ht hd (by rw [htaken, hm]) (by rw [htaken, hj]; rfl)
    simp [pinCycle, hpor, hm, hedge]
  · have hedge : ∃ r d, p.edge i = .next r ∧ r.mode = .running ∧ r.tick = some .done
        ∧ r.job = .respond d .illegal false := by
      rcases hres with ⟨d, hj⟩ | ⟨hready, hv, hdec⟩
      · exact ⟨_, d, edge_done_reserved hm ht hd hj, hm, rfl, hj⟩
      · obtain ⟨r, he, hr, hj, htick, -⟩ := edge_reserved hready hv hdec
        exact ⟨r, 0, he, hr, htick.trans (if_pos ⟨ht, hd⟩), hj⟩
    obtain ⟨r, d, he, hr, hdone, hj⟩ := hedge
    obtain ⟨⟨b, hb⟩, htick, -⟩ := launch_response (i := i) hj (by simp [hdone])
    refine ⟨_, pinCycle_launch hm hpor he hr, htick.trans hdone, ?_⟩
    rw [cmdReady_running (by simpa using hr)]
    simp [PinState.ready, hb]

/-! ### Reserved and refused words -/

/-- Settles O50: `edge_reserved`, and the response may be launched at once. -/
theorem pinReservedWordIsAnswered : Obligations.PinReservedWordIsAnswered := by
  unfold Obligations.PinReservedWordIsAnswered
  intro p q i hm hpor hv hready hdec hcycle
  rw [cmdReady_running hm] at hready
  obtain ⟨-, -, hidle⟩ := ready_iff.mp hready
  obtain ⟨r, he, hr, hj, htick, hblk⟩ := edge_reserved hready hv hdec
  have hcall : r.tick ≠ some .pend ∧ r.tick ≠ some .pulse := by
    rw [htick]
    rcases hidle with ht | ht <;> cases hd : p.stepDone i <;> simp [ht]
  obtain ⟨⟨b, hb⟩, hlaunch, tr, htr⟩ := launch_response (i := i) hj hcall.1
  rw [pinCycle_launch hm hpor he hr] at hcycle
  cases hcycle
  have hq : (r.launch i).counted.mode = .running := by simp [hr]
  obtain ⟨hcart, hreg, hinit⟩ := respond_out hq hb
  obtain ⟨hppu, hcpu⟩ := pulse_out hq (hlaunch ▸ hcall.2)
  exact ⟨⟨b, hb⟩, hlaunch.trans htick, hq, hcart, hreg, hppu, hcpu, hinit, tr, by rw [counted_blk, htr, hblk]; rfl⟩

theorem admission_of_refused {op : Instr} {s : State} {x : Refusal} (h : exec op s = .refused x) :
    ∃ y, admission op s = some y := by
  refine Option.ne_none_iff_exists'.mp fun hadm => ?_
  obtain ⟨t, ht⟩ := exec_next_of_admitted hadm
  rw [ht] at h
  cases h

/-- After a refused command every edge until `por` leaves another free state (R202; log 19). -/
theorem pinRun_unspecified (js : List PinIn) : ∀ (p : PinState) (s : State) (n : Nat), (∀ j ∈ js, j.por = false) →
    p.mode = .unspecified → p.blk = s.scrambled n → p.cycle = n + 1 →
    ∃ u, pinRun p js = .next u ∧ u.mode = .unspecified ∧ u.blk = s.scrambled (n + js.length)
      ∧ u.cycle = p.cycle + js.length := by
  induction js with
  | nil => exact fun p s n _ hm hblk _ => ⟨p, rfl, hm, hblk, rfl⟩
  | cons j js ih =>
    intro p s n hpor hm hblk hn
    obtain ⟨hj, hjs⟩ := List.forall_mem_cons.mp hpor
    have hfree : ({ p with blk := p.blk.scrambled p.cycle }.counted).blk = s.scrambled (n + 1) := by
      rw [counted_blk, hblk, hn, scrambled_scrambled]
    obtain ⟨u, hrun, hu, hublk, hcycle⟩ := ih { p with blk := p.blk.scrambled p.cycle }.counted s (n + 1) hjs hm hfree
      (by rw [counted_cycle, hn])
    refine ⟨u, pinRun_cons.mpr ⟨_, pinCycle_unspecified hj hm, hrun⟩, hu, ?_, ?_⟩
    · rw [hublk, List.length_cons, Nat.add_assoc, Nat.add_comm 1]
    · rw [hcycle, counted_cycle, List.length_cons, Nat.add_assoc, Nat.add_comm 1]

/-- The edge that accepts a refused command leaves the block unspecified, whatever the stepping device does. -/
theorem pinCycle_of_refused {op : Instr} {x : Refusal} (hpor : i.por = false) (hready : p.ready = true)
    (hv : i.cmdValid = true) (hdec : decode i.cmd = some op) (hadm : admission op p.blk = some x) :
    pinCycle p i = .next { p with mode := .unspecified, job := .none, tick := none,
                                  blk := (p.blk.emit [.command i.cmd]).scrambled p.cycle }.counted := by
  obtain ⟨hm, -, hidle⟩ := ready_iff.mp hready
  have htaken := (taken_accept hv hready).trans (accept_refused hdec hadm)
  have hedge : p.edge i = .next (p.taken i) := by
    rcases hidle with ht | ht
    · exact edge_of_no_call (.inl ht)
    · simp [edge_of_wait ht, htaken]
  refine (pinCycle_running hpor hm).mpr ⟨_, hedge, ?_⟩
  simp [htaken]

/-- Settles O49: `pinCycle_of_refused`, then `pinRun_unspecified`. -/
theorem pinRefusedCommandLeavesOutputsFree : Obligations.PinRefusedCommandLeavesOutputsFree := by
  unfold Obligations.PinRefusedCommandLeavesOutputsFree
  intro p i js op x hm hpor hjs hv hready hdec hexec
  rw [cmdReady_running hm] at hready
  obtain ⟨y, hadm⟩ := admission_of_refused hexec
  have hcycle := pinCycle_of_refused hpor hready hv hdec hadm
  obtain ⟨u, hrun, hu, hublk, hucycle⟩ := pinRun_unspecified js
    { p with mode := .unspecified, job := .none, tick := none,
             blk := (p.blk.emit [.command i.cmd]).scrambled p.cycle }.counted
    (p.blk.emit [.command i.cmd]) p.cycle hjs rfl rfl rfl
  exact ⟨_, u, hcycle, rfl, rfl, hrun, hu, hublk, hucycle, by rw [pinOut, hu]⟩

/-! ### Power-on -/

/-- Settles O48, by the two edges. -/
theorem pinPowerOnDrivesZero : Obligations.PinPowerOnDrivesZero := by
  unfold Obligations.PinPowerOnDrivesZero
  intro p i j hi hj
  exact ⟨_, _, pinCycle_por hi, rfl, rfl, rfl, rfl, rfl, pinCycle_afterPor hj rfl, rfl, rfl, rfl⟩

end Sys2Proof.Machine
end

section
/-! The signal-protocol family: operations with prompt devices, from their acceptance to their response (R196 to
R200). -/

namespace Sys2Proof.Machine

variable {p q r : PinState} {i j : PinIn} {op : Instr} {Q : State → Prop}

/-- A run of the first samples, then one of the rest. -/
theorem pinRun_append {is js : List PinIn} (h : pinRun p is = .next q) : pinRun p (is ++ js) = pinRun q js := by
  induction is generalizing p with
  | nil =>
    cases h
    rfl
  | cons i is ih =>
    obtain ⟨r, hcycle, hrest⟩ := pinRun_cons.mp h
    rw [List.cons_append, pinRun, hcycle]
    exact ih hrest

/-! ### How many edges a job needs -/

/-- With prompt devices and no stall, the edges until the job's response is on the port. -/
def Job.left : Job → Nat
  | .none => 0
  | .respond _ _ _ => 0
  | .reg _ _ _ _ => 1
  | .cpuInit .wait => 1
  | .cpuInit _ => 2
  | .cart (.insert _) _ => 3
  | .cart _ _ => 2
  | .fill _ => 3

/-- Launching is what the edge that prepared the job does anyway, so it is not counted. -/
theorem launched_left (j : Job) : j.launched.left = j.left := by
  cases j with
  | cart c raised => cases c <;> rfl
  | cpuInit u => cases u <;> rfl
  | _ => rfl

theorem launched_launched (j : Job) : j.launched.launched = j.launched := by
  cases j with
  | cpuInit u => cases u <;> rfl
  | _ => rfl

/-- A job that needs no more edges and has been launched is over, but perhaps for the cycle of its response. -/
theorem ended_of_left {j : Job} (hup : j.launched = j) (h : j.left = 0) :
    j = .none ∨ ∃ d st, j = .respond d st true := by
  cases j with
  | none => exact .inl rfl
  | respond d st b => exact .inr ⟨d, st, hup.symm⟩
  | cart c b => cases c <;> cases h
  | cpuInit u => cases u <;> cases h
  | reg k w v b => cases h
  | fill sel => cases h

theorem acked_left (c : CartCall) (i : PinIn) (p : PinState) : (p.acked c i).job.left < (Job.cart c true).left := by
  cases c with
  | read a =>
    cases hh : i.cartHijack <;> cases hr : region a <;> simp [PinState.acked, PinState.readMap, hh, hr, Job.left]
  | write a v =>
    cases hh : i.cartHijack <;> cases hr : region a <;> simp [PinState.acked, PinState.writeMap, hh, hr, Job.left]
  | insert sel => cases hf : i.cartFail <;> simp [PinState.acked, hf, Job.left]
  | remove => simp [acked_remove, Job.left]

/-- An edge with every acknowledge at 1 brings a job that is on its port one edge nearer to its response. -/
theorem advanceJob_left (hup : p.job.launched = p.job) (hc : i.cartAck = true) (hr : i.ppuRegAck = true)
    (hd : i.cpuInitDone = true) : (p.advanceJob i).job.left ≤ p.job.left - 1 := by
  cases hj : p.job with
  | none => simp [advanceJob_none hj, hj, Job.left]
  | fill sel => simp [hj, Job.launched] at hup
  | cart c raised =>
    obtain rfl : raised = true := by simpa [hj, Job.launched] using hup.symm
    have hlt := acked_left c i p
    rw [advanceJob_cart hj, if_pos hc]
    omega
  | reg k w v raised =>
    obtain rfl : raised = true := by simpa [hj, Job.launched] using hup.symm
    simp [advanceJob_reg hj, hr, Job.left]
  | cpuInit u =>
    cases u with
    | pend => simp [hj, Job.launched] at hup
    | pulse => simp [PinState.advanceJob, hj, Job.left]
    | wait => simp [PinState.advanceJob, hj, hd, Job.left]
  | respond d st driven =>
    obtain rfl : driven = true := by simpa [hj, Job.launched] using hup.symm
    simp [advanceJob_given hj, Job.left]

/-! ### Operations other than TICK -/

/-- Working, with at most `n` edges left of a job that will end in `Q`, outside a TICK or while its step runs. -/
def EndsWithin (Q : State → Prop) (n : Nat) (p : PinState) : Prop :=
  p.mode = .running ∧ (p.tick = none ∨ p.tick = some .wait) ∧ p.job.launched = p.job ∧ p.job.left ≤ n
    ∧ EndsIn Q p.blk p.job

/-- An edge with no step call under way, no `*_done` and no stall takes what it takes and launches it. -/
theorem pinCycle_taken (hm : p.mode = .running) (hpor : i.por = false) (hgo : i.go = true)
    (hidle : p.tick = none ∨ p.tick = some .wait) (hd : p.stepDone i = false) (hr : (p.taken i).mode = .running)
    (ht : (p.taken i).tick ≠ some .pend) : pinCycle p i = .next (p.taken i).launchJob.counted := by
  have hedge : p.edge i = .next (p.taken i) := by
    rcases hidle with h | h
    · exact edge_of_no_call (.inl h)
    · exact edge_of_not_done h hd
  rw [pinCycle_launch hm hpor hedge hr, PinState.launch, if_pos hgo, launchTick_of_ne (by simpa using ht)]

theorem EndsWithin.of_launch {n : Nat} (hm : p.mode = .running) (hidle : p.tick = none ∨ p.tick = some .wait)
    (hleft : p.job.left ≤ n) (h : EndsIn Q p.blk p.job) : EndsWithin Q n p.launchJob.counted := by
  refine ⟨by simpa using hm, by simpa using hidle, ?_, ?_, h.launch⟩
  · rw [counted_job, launchJob_job, launched_launched]
  · rwa [counted_job, launchJob_job, launched_left]

/-- Every acknowledge at 1, no command, no `*_done`, no stall. -/
structure Prompt (i : PinIn) : Prop where
  por : i.por = false
  go : i.go = true
  noCommand : i.cmdValid = false
  cartAck : i.cartAck = true
  regAck : i.ppuRegAck = true
  initDone : i.cpuInitDone = true
  noPpuDone : i.ppuStepDone = false
  noCpuDone : i.cpuStepDone = false

theorem stepDone_of_none (hp : i.ppuStepDone = false) (hc : i.cpuStepDone = false) (p : PinState) :
    p.stepDone i = false := by
  unfold PinState.stepDone
  split
  · rfl
  · exact hp
  · exact hc

theorem EndsWithin.prompt {n : Nat} (h : EndsWithin Q n p) (hi : Prompt i) :
    ∃ q, pinCycle p i = .next q ∧ EndsWithin Q (n - 1) q := by
  obtain ⟨hm, hidle, hup, hleft, hends⟩ := h
  obtain ⟨hmode, htick, -⟩ := advanceJob_frame i p
  have htaken : p.taken i = p.advanceJob i := taken_of_not_valid hi.noCommand
  have hidle' : (p.advanceJob i).tick = none ∨ (p.advanceJob i).tick = some .wait := by rwa [htick]
  refine ⟨(p.advanceJob i).launchJob.counted, ?_, .of_launch (hmode.trans hm) hidle' ?_ (hends.advance i)⟩
  · rw [pinCycle_taken hm hi.por hi.go hidle (stepDone_of_none hi.noPpuDone hi.noCpuDone p), htaken]
    · rw [htaken, hmode, hm]
    · rw [htaken]
      rcases hidle' with h | h <;> simp [h]
  · have hnear := advanceJob_left hup hi.cartAck hi.regAck hi.initDone
    omega

theorem EndsWithin.prompt_run (is : List PinIn) : ∀ p : PinState, EndsWithin Q is.length p → (∀ i ∈ is, Prompt i) →
    ∃ q, pinRun p is = .next q ∧ EndsWithin Q 0 q := by
  induction is with
  | nil => exact fun p h _ => ⟨p, rfl, h⟩
  | cons i is ih =>
    intro p h hprompt
    obtain ⟨hi, his⟩ := List.forall_mem_cons.mp hprompt
    obtain ⟨r, hcycle, hr⟩ := h.prompt hi
    obtain ⟨q, hrun, hq⟩ := ih r hr his
    exact ⟨q, pinRun_cons.mpr ⟨r, hcycle, hrun⟩, hq⟩

/-- Accepting an admitted operation leaves at most three edges. -/
theorem accept_endsWithin (hready : p.ready = true) (hpor : i.por = false) (hgo : i.go = true)
    (hv : i.cmdValid = true) (hd : p.stepDone i = false) (hdec : decode i.cmd = some op) (hop : op ≠ .tick)
    (hadm : admission op p.blk = none) :
    ∃ q, pinCycle p i = .next q ∧ EndsWithin (Performs op (p.blk.emit [.command i.cmd])) 3 q := by
  obtain ⟨hm, -, hidle⟩ := ready_iff.mp hready
  have htaken := (taken_accept hv hready).trans (accept_admitted hdec hadm)
  have hends := begin_endsIn (p := { p with blk := p.blk.emit [.command i.cmd] }) hop hadm
  have hframe : (p.taken i).mode = .running ∧ (p.taken i).tick = p.tick ∧ (p.taken i).job.left ≤ 3 := by
    rw [htaken]
    cases op with
    | tick => exact absurd rfl hop
    | _ => exact ⟨hm, rfl, by simp [PinState.begin, Job.left]⟩
  obtain ⟨hmode, htick, hleft⟩ := hframe
  have hidle' : (p.taken i).tick = none ∨ (p.taken i).tick = some .wait := by rwa [htick]
  refine ⟨_, pinCycle_taken hm hpor hgo hidle hd hmode (by rcases hidle' with h | h <;> simp [h]), ?_⟩
  exact .of_launch hmode hidle' hleft (htaken ▸ hends)

/-- An operation but TICK that performs as recorded has answered once. -/
theorem Performs.answered {s t : State} (hop : op ≠ .tick) (h : Performs op s t) :
    ∃ es, t.trace = s.trace ++ es ∧ countEvents Event.isResponse es = 1
      ∧ exec op { s with answers := answersOf es } = .next { t with answers := .none } := by
  obtain ⟨es, -, htr, hin, -, hexec⟩ := h
  have hrun := hexec s.inbox .none
  rw [Answers.append_none] at hrun
  have hes : es = instrEvents op (s.loaded s.inbox (answersOf es)) :=
    List.append_cancel_left (htr.symm.trans (exec_trace hrun))
  refine ⟨es, htr, ?_, hrun.trans (congrArg _ ?_)⟩
  · rw [hes, instrEvents_responses, if_neg hop]
  · rw [State.loaded, ← hin]

/-- Settles O51: an accepted operation has at most three edges left (`accept_endsWithin`), each prompt edge takes one
away (`EndsWithin.prompt`), and then the job has ended as the operation level says. -/
theorem pinOperationsComplete : Obligations.PinOperationsComplete := by
  unfold Obligations.PinOperationsComplete
  intro p i₀ i₁ i₂ i₃ op hm hready hdec hop hadm hv hall hprompt
  rw [cmdReady_running hm] at hready
  obtain ⟨⟨hpor, hgo, hp, hc⟩, hrest⟩ := List.forall_mem_cons.mp hall
  obtain ⟨q₀, hcycle, h₀⟩ := accept_endsWithin hready hpor hgo hv (stepDone_of_none hp hc p) hdec hop hadm
  obtain ⟨q, hrun, -, -, hup, hleft, hends⟩ := EndsWithin.prompt_run [i₁, i₂, i₃] q₀ h₀ fun i hi => by
    obtain ⟨hpor, hgo, hp, hc⟩ := hrest i hi
    obtain ⟨hv, hack, hreg, hinit⟩ := hprompt i hi
    exact ⟨hpor, hgo, hv, hack, hreg, hinit, hp, hc⟩
  obtain ⟨es, htr, hone, hexec⟩ := (hends.ended (ended_of_left hup (Nat.le_zero.mp hleft))).answered hop
  exact ⟨q, es, pinRun_cons.mpr ⟨q₀, hcycle, hrun⟩, by simp [htr], hone, hexec⟩

/-! ### TICK -/

/-- The state in which the picture unit steps: after TICK's acceptance and its first call (R198). -/
def State.ticked (w : Cmd) (s : State) : State := tickEffect (s.emit [.command w])

@[simp] theorem ticked_cfg (w : Cmd) (s : State) : (s.ticked w).cfg = s.cfg := rfl
@[simp] theorem ticked_mcc (w : Cmd) (s : State) : (s.ticked w).mcc = (s.mcc + 1) % 2 ^ s.cfg.cw := rfl
@[simp] theorem ticked_ctx (w : Cmd) (s : State) : (s.ticked w).ctx = .inPpu s.mcc := rfl
@[simp] theorem ticked_trace (w : Cmd) (s : State) : (s.ticked w).trace = s.trace ++ [.command w, .ppuStep] := by
  simp [State.ticked, tickEffect]

/-- An edge that launches nothing. -/
theorem launch_nothing (hj : p.job = .none) (ht : p.tick ≠ some .pend) : p.launch i = p := by
  unfold PinState.launch
  split
  · rw [launchJob_none hj, launchTick_of_ne ht]
  · rfl

/-- A TICK accepted with no stall is at its step pulse in the next cycle (R198). -/
theorem accept_tick (hready : p.ready = true) (ht : p.tick = none) (hpor : i.por = false) (hgo : i.go = true)
    (hv : i.cmdValid = true) (hdec : decode i.cmd = some .tick) (hadm : admission .tick p.blk = none) :
    ∃ q, pinCycle p i = .next q ∧ q.mode = .running ∧ q.job = .none ∧ q.tick = some .pulse
      ∧ q.blk = p.blk.ticked i.cmd := by
  obtain ⟨hm, hj, -⟩ := ready_iff.mp hready
  have htaken := (taken_accept hv hready).trans (accept_admitted hdec hadm)
  have hjob : (p.taken i).job = .none := by rw [htaken]; exact hj
  have hpend : (p.taken i).tick = some .pend := by rw [htaken]; rfl
  have hmode : (p.taken i).mode = .running := by rw [htaken]; exact hm
  refine ⟨_, pinCycle_launch hm hpor (edge_of_no_call (.inl ht)) hmode, ?_⟩
  rw [PinState.launch, if_pos hgo, launchJob_none hjob, launchTick_pend hpend]
  exact ⟨hmode, hjob, rfl, by rw [htaken]; rfl⟩

/-- The edge that ends a step pulse only begins the wait for the step (R195). -/
theorem pinCycle_pulse (hm : p.mode = .running) (hj : p.job = .none) (ht : p.tick = some .pulse) (hi : i.por = false) :
    ∃ q, pinCycle p i = .next q ∧ q.mode = .running ∧ q.job = .none ∧ q.tick = some .wait ∧ q.blk = p.blk := by
  have htaken : p.taken i = p := by rw [taken_of_tick (by simp [ht]) (by simp [ht]), advanceJob_none hj]
  have hedge := edge_of_pulse (i := i) ht
  rw [htaken] at hedge
  refine ⟨_, pinCycle_launch hm hi hedge hm, ?_⟩
  rw [launch_nothing (by exact hj) (by simp)]
  exact ⟨hm, hj, rfl, rfl⟩

/-- What a step calls next, or the end of its TICK: with no stall it is on the port in the cycle after the edge that
saw `*_done` (R198). -/
def StepFollows (s : State) (q : PinState) : Prop :=
  ((∃ c, s.ctx = .inPpu c ∧ stepEnable s.cfg c = true) ∧ q.job = .none ∧ q.tick = some .pulse)
  ∨ (((∃ c, s.ctx = .inPpu c ∧ stepEnable s.cfg c = false) ∨ s.ctx = .inCpu)
    ∧ q.job = .respond 0 .ok true ∧ q.tick = none)

/-- With no access and no stall, the edge that sees `*_done` returns from the step as the operation level does. -/
theorem pinCycle_done (hm : p.mode = .running) (hj : p.job = .none) (ht : p.tick = some .wait)
    (hc : p.blk.ctx ≠ .host) (hi : i.por = false) (hgo : i.go = true) (hv : i.cmdValid = false)
    (hd : p.stepDone i = true) :
    ∃ q, pinCycle p i = .next q ∧ q.mode = .running ∧ q.blk = stepReturned p.blk ∧ StepFollows p.blk q := by
  have htaken : p.taken i = p := by rw [taken_of_not_valid hv, advanceJob_none hj]
  have hedge := edge_of_done (i := i) ht hd (by rw [htaken, hm]) (by rw [htaken, hj]; rfl)
  rw [htaken, doneSeen_idle hj] at hedge
  refine ⟨_, pinCycle_launch hm hi hedge ((returned_mode p).trans hm), ?_⟩
  rw [PinState.launch, if_pos hgo]
  rcases returned_cases p with ⟨hhost, -⟩ | ⟨c, hin, he, heq⟩ | ⟨hin, heq⟩
  · exact absurd hhost hc
  · rw [heq, launchJob_none (by exact hj), launchTick_pend rfl, stepReturned_of_inPpu hin, if_pos he]
    exact ⟨hm, emit_emit [.returned] [.cpuStep] _, .inl ⟨⟨c, hin, he⟩, hj, rfl⟩⟩
  · rw [heq, launchTick_of_ne (by simp), stepReturned_completes hin]
    exact ⟨hm, rfl, .inr ⟨hin, rfl, rfl⟩⟩

/-- A step pulse, then the step's `*_done` with no access between. -/
theorem step_prompt (hm : p.mode = .running) (hj : p.job = .none) (ht : p.tick = some .pulse)
    (hc : p.blk.ctx ≠ .host) (hi : i.por = false) (hj' : j.por = false) (hgo : j.go = true) (hv : j.cmdValid = false)
    (hd : ∀ q : PinState, q.blk.ctx ≠ .host → q.stepDone j = true) :
    ∃ q, pinRun p [i, j] = .next q ∧ q.mode = .running ∧ q.blk = stepReturned p.blk ∧ StepFollows p.blk q := by
  obtain ⟨r, hcycle, hmr, hjr, htr, hblk⟩ := pinCycle_pulse hm hj ht hi
  rw [← hblk] at hc ⊢
  obtain ⟨q, hcycle', hq⟩ := pinCycle_done hmr hjr htr hc hj' hgo hv (hd r hc)
  exact ⟨q, pinRun_cons.mpr ⟨r, hcycle, pinRun_cons.mpr ⟨q, hcycle', rfl⟩⟩, hq⟩

theorem stepDone_of_both (hp : i.ppuStepDone = true) (hc : i.cpuStepDone = true) (p : PinState)
    (h : p.blk.ctx ≠ .host) : p.stepDone i = true := by
  unfold PinState.stepDone
  split
  · next hhost => exact absurd hhost h
  · exact hp
  · exact hc

/-- In the cycle of a step pulse the pulse is that of the device of `ctx`, and no response is given. -/
theorem step_out (hm : p.mode = .running) (hj : p.job = .none) (ht : p.tick = some .pulse) :
    (pinOut p).ppuStep = decide (activeAgent p.blk = .pictureUnit)
      ∧ (pinOut p).cpuStep = decide (activeAgent p.blk = .processor) ∧ (pinOut p).rspValid = false := by
  simp [pinOut_running hm, PinState.runningOut, PinState.pulsing, PinState.response, ht, hj]

theorem stepFollows_ticked {w : Cmd} {s : State} (h : StepFollows (s.ticked w) q) :
    if stepEnable s.cfg s.mcc then q.job = .none ∧ q.tick = some .pulse
    else q.job = .respond 0 .ok true ∧ q.tick = none := by
  cases he : stepEnable s.cfg s.mcc <;> simpa [StepFollows, he] using h

/-- Where the counter enables no processor step, the picture unit's return ends the TICK. -/
theorem stepReturned_ticked_of_not_enabled (w : Cmd) {s : State} (h : stepEnable s.cfg s.mcc = false) :
    (stepReturned (s.ticked w)).ctx = .host
      ∧ (stepReturned (s.ticked w)).trace = s.trace ++ [.command w, .ppuStep, .returned, .response 0 .ok] := by
  rw [stepReturned_completes (s := s.ticked w) (.inl ⟨s.mcc, rfl, h⟩)]
  simp

/-- Where it enables one, the processor is stepped, and its return ends the TICK. -/
theorem stepReturned_ticked_of_enabled (w : Cmd) {s : State} (h : stepEnable s.cfg s.mcc = true) :
    (stepReturned (s.ticked w)).ctx = .inCpu
      ∧ (stepReturned (stepReturned (s.ticked w))).ctx = .host
      ∧ (stepReturned (stepReturned (s.ticked w))).trace
        = s.trace ++ [.command w, .ppuStep, .returned, .cpuStep, .returned, .response 0 .ok] := by
  have hfirst : stepReturned (s.ticked w) = ((s.ticked w).setCtx .inCpu).emit [.returned, .cpuStep] := by
    rw [stepReturned_of_inPpu (ticked_ctx w s), ticked_cfg, if_pos h]
  rw [hfirst, stepReturned_of_inCpu rfl]
  simp

/-- Settles O52: `accept_tick`, then one `step_prompt` for each step that is called. -/
theorem pinTickPulsesInOrder : Obligations.PinTickPulsesInOrder := by
  unfold Obligations.PinTickPulsesInOrder
  intro p i₀ i₁ i₂ i₃ i₄ hm hj ht hdec hadm hv hall hquiet
  simp only [List.forall_mem_cons, List.not_mem_nil, false_imp_iff, implies_true, and_true] at hall hquiet
  obtain ⟨⟨hpor₀, hgo₀, -⟩, ⟨hpor₁, -⟩, ⟨hpor₂, hgo₂, hp₂, hc₂⟩, ⟨hpor₃, -⟩, ⟨hpor₄, hgo₄, hp₄, hc₄⟩⟩ := hall
  obtain ⟨-, hv₂, -, hv₄⟩ := hquiet
  obtain ⟨q₀, hcycle₀, hm₀, hj₀, ht₀, hblk₀⟩ :=
    accept_tick (ready_iff.mpr ⟨hm, hj, .inl ht⟩) ht hpor₀ hgo₀ hv hdec hadm
  have hctx₀ : q₀.blk.ctx = .inPpu p.blk.mcc := by rw [hblk₀, ticked_ctx]
  obtain ⟨hppu₀, hcpu₀, -⟩ := step_out hm₀ hj₀ ht₀
  obtain ⟨q₂, hrun₂, hm₂, hblk₂, hnext⟩ := step_prompt hm₀ hj₀ ht₀ (by simp [hctx₀]) hpor₁ hpor₂ hgo₂ hv₂
    (stepDone_of_both hp₂ hc₂)
  have hrun : pinRun p [i₀, i₁, i₂] = .next q₂ := pinRun_cons.mpr ⟨q₀, hcycle₀, hrun₂⟩
  rw [hblk₀] at hblk₂ hnext
  replace hnext := stepFollows_ticked hnext
  refine ⟨q₀, q₂, pinRun_cons.mpr ⟨q₀, hcycle₀, rfl⟩, by simp [hppu₀, activeAgent, hctx₀],
    by simp [hcpu₀, activeAgent, hctx₀], by rw [hblk₀, ticked_mcc], hrun, fun hne => ?_, fun heq => ?_⟩
  · have he := stepEnable_eq_false_iff.mpr hne
    obtain ⟨hctx, htr⟩ := stepReturned_ticked_of_not_enabled i₀.cmd he
    rw [he, if_neg Bool.false_ne_true] at hnext
    obtain ⟨hj₂, ht₂⟩ := hnext
    exact ⟨(pulse_out hm₂ (by simp [ht₂])).2, (rspValid_running hm₂).mpr ⟨_, _, hj₂⟩, hblk₂ ▸ hctx, hblk₂ ▸ htr⟩
  · have he := stepEnable_iff.mpr heq
    obtain ⟨hctx, hctx', htr⟩ := stepReturned_ticked_of_enabled i₀.cmd he
    rw [← hblk₂] at hctx hctx' htr
    rw [he, if_pos rfl] at hnext
    obtain ⟨hj₂, ht₂⟩ := hnext
    obtain ⟨-, hcpu₂, hrsp₂⟩ := step_out hm₂ hj₂ ht₂
    obtain ⟨q₄, hrun₄, hm₄, hblk₄, hnext₄⟩ := step_prompt hm₂ hj₂ ht₂ (by simp [hctx]) hpor₃ hpor₄ hgo₄ hv₄
      (stepDone_of_both hp₄ hc₄)
    rw [← hblk₄] at hctx' htr
    obtain ⟨⟨_, hin, -⟩, -⟩ | ⟨-, hj₄, -⟩ := hnext₄
    · simp [hctx] at hin
    · exact ⟨by simp [hcpu₂, activeAgent, hctx], hrsp₂, q₄, (pinRun_append hrun).trans hrun₄,
        (rspValid_running hm₄).mpr ⟨_, _, hj₄⟩, hctx', htr⟩

end Sys2Proof.Machine
end

section
/-! The exceptions family: the rights of the agents (R221) are admission (R153) to whoever is active, and the codes of
the statuses (R213). -/

namespace Sys2Proof.Machine

variable {s : State} {g : Agent} {i : Instr}

/-! ### The rights of the agents -/

theorem activeAgent_eq_host_iff : activeAgent s = .host ↔ s.ctx = .host := by
  cases hc : s.ctx <;> simp [activeAgent, hc]

/-- The cartridge adapter is never the active agent: it has no step of its own (R31). -/
theorem activeAgent_ne_cartridge : activeAgent s ≠ .cartridge := by
  cases hc : s.ctx <;> simp [activeAgent, hc]

/-- Inside a step, an operation is admitted where it is an access and the session is READY (R135, R153). -/
theorem admission_none_of_inStep (hc : s.ctx ≠ .host) :
    admission i s = none ↔ s.life = .ready ∧ ((∃ a, i = .rd a) ∨ (∃ a v, i = .wr a v)) := by
  cases i with
  | init sel => simp [admission_init_none, hc]
  | shut => simp [admission_shut_none, hc]
  | tick => simp [admission_tick_none, hc]
  | rd a => simp [admission_rd_none]
  | wr a v => simp [admission_wr_none]

theorem mayIssue_host_iff : mayIssue .host i s = true ↔ s.ctx = .host ∧ admission i s = none := by
  cases i with
  | init sel => simp [mayIssue, admission_init_none, and_comm]
  | shut => simp [mayIssue, admission_shut_none, and_comm]
  | tick => simp [mayIssue, admission_tick_none, and_comm]
  | rd a => simp [mayIssue, admission_rd_none, and_comm]
  | wr a v => simp [mayIssue, admission_wr_none, and_comm]

/-- The two devices that are stepped have one row: RD and WR, while READY and inside the agent's own step. -/
theorem mayIssue_device_iff (hg : g = .pictureUnit ∨ g = .processor) :
    mayIssue g i s = true
      ↔ activeAgent s = g ∧ s.life = .ready ∧ ((∃ a, i = .rd a) ∨ (∃ a v, i = .wr a v)) := by
  obtain rfl | rfl := hg <;> cases i <;> simp [mayIssue, and_comm]

/-- The table of R221 is admission to the active agent, and to no other. -/
theorem mayIssue_iff : mayIssue g i s = true ↔ activeAgent s = g ∧ admission i s = none := by
  have device (hg : g = .pictureUnit ∨ g = .processor) :
      mayIssue g i s = true ↔ activeAgent s = g ∧ admission i s = none := by
    rw [mayIssue_device_iff hg]
    refine and_congr_right fun hactive => (admission_none_of_inStep fun hhost => ?_).symm
    rw [activeAgent_eq_host_iff.mpr hhost] at hactive
    simp [← hactive] at hg
  cases g with
  | host => rw [mayIssue_host_iff, activeAgent_eq_host_iff]
  | pictureUnit => exact device (.inl rfl)
  | processor => exact device (.inr rfl)
  | cartridge => simp [mayIssue, activeAgent_ne_cartridge]

theorem exec_next_iff_admitted : (∃ t, exec i s = .next t) ↔ admission i s = none := by
  refine ⟨fun ⟨t, hnext⟩ => ?_, exec_next_of_admitted⟩
  by_contra hadm
  obtain ⟨r, hrefused⟩ := exec_refused_of_not_admitted hadm
  simp [hnext] at hrefused

/-- Settles O29: the table is admission to the active agent (`mayIssue_iff`), and what is admitted runs. -/
theorem rightsDecideWhatRuns : Obligations.RightsDecideWhatRuns := by
  unfold Obligations.RightsDecideWhatRuns
  refine ⟨fun i s => ?_, fun g i s hmay => ?_⟩
  · rw [exec_next_iff_admitted, mayIssue_iff, and_iff_right rfl]
  · obtain ⟨rfl, -⟩ := mayIssue_iff.mp hmay
    exact ⟨rfl, activeAgent_ne_cartridge⟩

/-! ### The codes of the statuses -/

/-- The zero code is success and no other status has it. -/
theorem Status.code_eq_zero_iff {st : Status} : st.code = 0 ↔ st = .ok := by
  cases st <;> decide

/-- Codes 4 to 7 are not in use. -/
theorem Status.code_lt_four (st : Status) : st.code.toNat < 4 := by
  cases st <;> decide

/-- Settles O38: the codes by definition, and what R213 says of all of them by cases on the status. -/
theorem statusCodesAreTheTable : Obligations.StatusCodesAreTheTable := by
  unfold Obligations.StatusCodesAreTheTable
  exact ⟨rfl, rfl, rfl, rfl, fun _ => Status.code_eq_zero_iff, Status.code_lt_four⟩

end Sys2Proof.Machine
end
